-- ==== Sys2Proof/Word.lean ====
section
/-! DEFINITION. The word types of the DSP core. Widths are those of `10_state.md` R21 to R26 and
`30_encoding.md` R101. Nothing here computes: arithmetic stands in `Machine/Operands.lean`. -/

namespace Sys2Proof

/-- A byte: 8 bits (R8). -/
abbrev Byte := BitVec 8

/-- A 16-bit sample. It is read as signed with `BitVec.toInt` (R9 `sext_16`). -/
abbrev Sample := BitVec 16

/-- A memory address: 16 bits, so that every sum wraps mod 65536 (R60, R64). -/
abbrev Addr := BitVec 16

/-- The address of a DSP register: 7 bits (R97). -/
abbrev RegAddr := BitVec 7

/-- The tick counter as an operand: 15 bits (R101). -/
abbrev Counter := BitVec 15

/-- An envelope level: 11 bits unsigned, 0 to 2047 (R22). -/
abbrev Level := BitVec 11

/-- A nibble of a BRR block (R93). -/
abbrev Nibble := BitVec 4

/-- The index of a voice, 0 to 7 (R23). -/
abbrev VoiceIx := Fin 8

/-- A BRR block: 9 bytes, byte 0 the header (R63, R91). -/
abbrev Block := Vector Byte 9

/-- The eight voice indexes in the order in which everything visits them (R224, R235). -/
def allVoices : List VoiceIx := [0, 1, 2, 3, 4, 5, 6, 7]

end Sys2Proof
end

