-- ==== Sys2Proof/Config.lean ====
section
/-! DEFINITION. What an implementation fixes: the parameters that `00_scope.md` R7 and
`93_implementation_defined.md` leave as configuration values. A record of them is carried by the
state and written by no operation (log 10). The numbers in the spec's formulas stand in
`Machine/Params.lean`. -/

namespace Sys2Proof

/-- The five envelope states (R6 ENVELOPE_STATES, R22). -/
inductive EnvMode where
  | attack | decay | sustain | release | directGain
  deriving DecidableEq, Repr

/-- MIX_ORDER (R7, R228, U14): where the master volume acts. -/
inductive MixOrder where
  /-- the echo is mixed in before the master volume (the default) -/
  | sourceOrder
  /-- the echo is added after the master volume has scaled the dry sum -/
  | chipOrder
  deriving DecidableEq, Repr

/-- The comparison of the sustain threshold (R170, U8). -/
inductive SustainCompare where
  /-- `(env >> 8) <= SL` (the default) -/
  | le
  /-- `(env >> 8) = SL` -/
  | eq
  deriving DecidableEq, Repr

/-- What GAIN_EXIT_MODE may be (R7, R165, U19): "the mode is one of Attack, Decay, Sustain" while
the ADSR fields govern. -/
inductive AdsrPhase where
  | attack | decay | sustain
  deriving DecidableEq, Repr

/-- A configured function as plain data: the arguments, each with its value, at which the function
differs from the formula that the spec gives as its default (log 10). The empty list is the default. -/
abbrev Exceptions (α β : Type) := List (α × β)

/-- The places of the header's fields in a block's first byte, by the number of their lowest bit (D5). -/
structure HeaderLayout where
  shiftAt  : Nat
  filterAt : Nat
  loopAt   : Nat
  endAt    : Nat
  deriving DecidableEq, Repr

/-- Which nibble of a data byte is the earlier sample (D6). -/
inductive NibbleOrder where
  | highFirst | lowFirst
  deriving DecidableEq, Repr

/-- One term of a predictor (D9): `(factor * p) >> shift`, `p` the halved older output if `older` is set,
else the newest output. -/
structure PredictTerm where
  older  : Bool
  factor : Int
  shift  : Nat
  deriving DecidableEq, Repr

/-- What stands between the echo history and the mix (D31). -/
inductive EchoFilter where
  /-- the filter of R227 over the last eight inputs (the default) -/
  | eightTap
  /-- "may be replaced by identity": the newest input passes (log 21) -/
  | identity
  deriving DecidableEq, Repr

/-- Where FLG has its fields, by the number of their lowest bit (D34, R106). -/
structure FlgLayout where
  resetAt   : Nat
  muteAt    : Nat
  echoOffAt : Nat
  noiseAt   : Nat
  deriving DecidableEq, Repr

/-- The configuration record (R11, log 10): every formula that the spec marks as its own decision from general
knowledge, the decisions that `92_eei_decisions.md` marks (config), and the parameters of
`93_implementation_defined.md` that have more than one value (R7). A formula is the spec's but for the exceptions
that its field lists. -/
structure Config where
  /-- D2: MEM_SIZE - 1, the highest address of a byte of memory -/
  memTop         : Addr

  /-- D5, R91 -/
  header         : HeaderLayout
  /-- D6, R91 -/
  nibbleOrder    : NibbleOrder
  /-- D7, D8, U5: the scaling of a nibble by a shift; the formulas are those of R133 and R134 -/
  scaling        : Exceptions (BitVec 4 × Nibble) Int
  /-- D9: the four predictors, by filter number; the defaults are R135 to R138 -/
  predictors     : Vector (List PredictTerm) 4
  /-- D9: predict of filter, `p1` and `p2`; the formula is the sum of the filter's terms -/
  predictions    : Exceptions (BitVec 2 × Int × Int) Int
  /-- D10, U6: the output of a predicted sample; the formula is R139's -/
  output         : Exceptions Int Sample

  /-- D13: whether the ADSR fields govern, of ADSR1; the formula is R165's -/
  governs        : Exceptions Byte Bool
  gainExitMode   : AdsrPhase
  sustainCompare : SustainCompare
  /-- D13, D16: whether a candidate level has reached the threshold, of the level and ADSR2; the formula is R170's,
  by `sustainCompare` -/
  threshold      : Exceptions (Int × Byte) Bool
  /-- D14: RATE, the period of each rate index; the entry of index 0 is not read -/
  rates          : Vector Nat 32
  /-- D14: OFFSET -/
  offsets        : Vector Nat 32
  /-- D14: the rate gate of a rate index and the counter; the formula is R173's -/
  gate           : Exceptions (Nat × Nat) Bool
  /-- D17: the level after a tick in Release; the formula is R164's -/
  release        : Exceptions Level Level
  /-- D13, D15: candidate level and rate index in Attack, of ADSR1 and the level; the formula is R166's -/
  attack         : Exceptions (Byte × Level) (Int × Nat)
  /-- D13, D16: candidate level and rate index in Decay, of ADSR1 and the level; the formula is R167's -/
  decay          : Exceptions (Byte × Level) (Int × Nat)
  /-- D13, D16: candidate level and rate index in Sustain, of ADSR2 and the level; the formula is R168's -/
  sustain        : Exceptions (Byte × Level) (Int × Nat)
  /-- D18: `gain_step` of GAIN and the level; the formula is R169's -/
  gain           : Exceptions (Byte × Level) (Int × Nat)
  /-- D15: mode and candidate level after the range clamp; the formula is R171's -/
  levelClamp     : Exceptions (EnvMode × Int) (EnvMode × Int)
  /-- D19: mode and level after a tick, of whether the gate fires, the mode and level before, and the mode and
  level worked out; the formula is R172's -/
  commit         : Exceptions (Bool × (EnvMode × Level) × (EnvMode × Int)) (EnvMode × Level)

  /-- D26: where the start and the loop address of DIR and SRCN stand; the formula is R68's -/
  directory      : Exceptions (Byte × Byte) (Addr × Addr)
  /-- D20: the pitch of PITCHH and PITCHL; the formula is R192's -/
  pitch          : Exceptions (Byte × Byte) Int
  /-- D20: the modulated pitch of a raw output and a pitch; the formula is R192's -/
  modulation     : Exceptions (Int × Int) Int
  /-- D21, U7: INTERPOLATION, the source sample of `cur`, `nxt` and `pos`; the formula is R193's -/
  interpolation  : Exceptions (Sample × Sample × BitVec 12) Sample
  /-- D22: the sample a voice makes of the noise register; the formula is R193's -/
  noiseSample    : Exceptions (BitVec 16) Sample
  /-- D23: the raw output of a source sample and a level; the formula is R194's -/
  envScale       : Exceptions (Int × Level) Sample
  /-- D24: a number by a volume register; the formula is R199's -/
  volume         : Exceptions (Int × Byte) Int

  /-- D14: COUNTER_RANGE - 1, the value that follows 0 -/
  counterTop     : Counter
  /-- D14: the counter after a tick; the formula is R222's -/
  counterNext    : Exceptions Counter Counter
  /-- D22: the noise register after a shift; the formula is R223's -/
  noiseNext      : Exceptions (BitVec 16) (BitVec 16)
  /-- D22: NOISE_RESET (R7, R331) -/
  noiseReset     : BitVec 16
  /-- D34, R106 -/
  flg            : FlgLayout
  /-- D36: FLG after reset (R331) -/
  flgReset       : Byte
  /-- D29: a sum after a voice's addition; the formula is R225's -/
  accumulate     : Exceptions (Int × Int) Int
  /-- D30: where the left and the right sample of the echo frame stand, of ESA and the echo position; the formula is
  R69's -/
  echoAddress    : Exceptions (Byte × BitVec 16) (Addr × Addr)
  /-- D31: the history entry of an echo input; the formula is R227's -/
  echoInput      : Exceptions Sample Sample
  /-- D31 -/
  echoFilter     : EchoFilter
  /-- D31: the filtered echo of the eight entries, oldest first, and C0 to C7; the formula is the filter's -/
  fir            : Exceptions (Vector Sample 8 × Vector Byte 8) Int
  mixOrder       : MixOrder
  /-- D33: the combined value of the echo sum, the filtered echo and EFB; the formula is R229's -/
  feedback       : Exceptions (Int × Int × Byte) Sample
  /-- D30: the echo position after a tick, of the one before and EDL; the formula is R230's -/
  echoNext       : Exceptions (BitVec 16 × Byte) (BitVec 16)
  /-- D35: ENVX of a level; the formula is R38's -/
  envx           : Exceptions Level Byte
  /-- D35: OUTX of a raw output; the formula is R39's -/
  outx           : Exceptions Sample Byte

  /-- RB_CAPACITY: "a positive integer" (R7, R290), OPEN in the spec (D39). -/
  rbCapacity     : Nat
  deriving DecidableEq, Repr

/-- What an address that memory does not list reads as. The spec leaves memory unspecified after
reset (R25, R331); 0x00 is a DESIGN CHOICE (log 8). -/
def Config.unlistedByte : Byte := 0

end Sys2Proof
end

