-- ==== Sys2Proof/Syntax.lean ====
section
/-! DEFINITION. The operations of the DSP core as data: one constructor of `Instr` for each of the 65
rows of `spec/opcode_table.json`, and the command lines that carry them (`30_encoding.md`). -/

namespace Sys2Proof

/-- What a register address is used for: it is the operand of a `DSP.WRITE` (with the data byte) or
of a `DSP.READ` (R233, R237). -/
inductive RegAccess where
  | write (data : Byte)
  | read
  deriving DecidableEq, Repr

/-- How the value of an envelope register acts (R99; log 5): it is the data that a `DSP.WRITE`
stores in the register, or it is in force while `ENV.TICK` runs at the given counter. -/
inductive CfgUse where
  | write
  | tick (counter : Counter)
  deriving DecidableEq, Repr

/-- How the value of FLG acts (R106; log 5): as the data of a `DSP.WRITE`, or in force while
`DSP.TICK` runs. -/
inductive FlgUse where
  | write
  | tick
  deriving DecidableEq, Repr

/-- The fields of a BRR block, less the filter, which selects the row (R91, R94). Nibble `i` is the
nibble of sample `i`. -/
structure BlockFields where
  shift    : BitVec 4
  loopFlag : Bool
  endFlag  : Bool
  nibbles  : Vector Nibble 16
  deriving DecidableEq, Repr

/-- The operand of `APU.SET_STATE`: "65536 memory bytes + 128 register bytes" (R101, R272). -/
structure Snapshot where
  ram     : List Byte
  dspregs : List Byte
  deriving DecidableEq, Repr

/-- The operations: one constructor per row of the opcode table. -/
inductive Instr where
  -- OP8, the command port (R100, R101)
  | brrReset (sample0 sample1 : Sample)
  | brrRead (block : Block)
  | brrNext
  | brrFin
  | envTick (counter : Counter)
  | envKon
  | envKoff
  | voiceRender (last : Sample) (noise : BitVec 16) (counter : Counter)
  | voiceKon (dir : Byte)
  | voiceKoff
  | dspTick
  | dspWrite (addr : RegAddr) (data : Byte)
  | dspRead (addr : RegAddr)
  | apuReset
  | apuSetState (snapshot : Snapshot)
  | apuRender (n : Nat)
  | apuReadByte (addr : Addr)
  | apuWriteByte (addr : Addr) (data : Byte)
  | rbReset
  | rbWrite (left right : Sample)
  | rbRead (n : Nat)
  | rbCount
  -- BRRBLK, the operand of BRR.READ, by filter (R94)
  | brrblkF0 (fields : BlockFields)
  | brrblkF1 (fields : BlockFields)
  | brrblkF2 (fields : BlockFields)
  | brrblkF3 (fields : BlockFields)
  -- DSPREG, per-voice columns (R98)
  | vxVoll (v : VoiceIx) (access : RegAccess)
  | vxVolr (v : VoiceIx) (access : RegAccess)
  | vxPitchl (v : VoiceIx) (access : RegAccess)
  | vxPitchh (v : VoiceIx) (access : RegAccess)
  | vxSrcn (v : VoiceIx) (access : RegAccess)
  | vxAdsr1 (v : VoiceIx) (access : RegAccess)
  | vxAdsr2 (v : VoiceIx) (access : RegAccess)
  | vxGain (v : VoiceIx) (access : RegAccess)
  | vxEnvx (v : VoiceIx) (access : RegAccess)
  | vxOutx (v : VoiceIx) (access : RegAccess)
  | vxUnusedA (v : VoiceIx) (access : RegAccess)
  | vxUnusedB (v : VoiceIx) (access : RegAccess)
  | vxUnusedE (v : VoiceIx) (access : RegAccess)
  -- DSPREG, column 0xC (R40)
  | mvoll (access : RegAccess)
  | mvolr (access : RegAccess)
  | evoll (access : RegAccess)
  | evolr (access : RegAccess)
  | kon (access : RegAccess)
  | koff (access : RegAccess)
  | flg (access : RegAccess)
  | endx (access : RegAccess)
  -- DSPREG, column 0xD (R41)
  | efb (access : RegAccess)
  | unused1D (access : RegAccess)
  | pmon (access : RegAccess)
  | non (access : RegAccess)
  | eon (access : RegAccess)
  | dir (access : RegAccess)
  | esa (access : RegAccess)
  | edl (access : RegAccess)
  -- DSPREG, column 0xF (R42)
  | cxFir (tap : Fin 8) (access : RegAccess)
  -- register values (R99, R106)
  | adsr1Adsr (dr : BitVec 3) (ar : BitVec 4) (use : CfgUse)
  | adsr1Gain (ignored : BitVec 7) (use : CfgUse)
  | adsr2 (sl : BitVec 3) (sr : BitVec 5) (use : CfgUse)
  | gainDirect (g : BitVec 7) (use : CfgUse)
  | gainLindec (rate : BitVec 5) (use : CfgUse)
  | gainExpdec (rate : BitVec 5) (use : CfgUse)
  | gainLininc (rate : BitVec 5) (use : CfgUse)
  | gainBentinc (rate : BitVec 5) (use : CfgUse)
  | flgValue (softReset mute echoOff : Bool) (noiseRate : BitVec 5) (use : FlgUse)
  deriving DecidableEq, Repr

/-- The registers whose value the opcode table decodes (R99, R106). -/
inductive CfgReg where
  | adsr1 | adsr2 | gain | flg
  deriving DecidableEq, Repr

/-- Which format a line's bytes are in, that is, what the bytes are an operand of (R90; log 5). -/
inductive Port where
  /-- format OP8: an operation code and its operands (R100, R104); a host program uses this one -/
  | op8
  /-- format BRRBLK: the operand of `BRR.READ` -/
  | brrblk
  /-- format DSPREG as the operand of `DSP.WRITE`: the address, then the data -/
  | dspregWrite
  /-- format DSPREG as the operand of `DSP.READ`: the address -/
  | dspregRead
  /-- formats ADSR1, ADSR2, GAIN, FLG as the data of a `DSP.WRITE` -/
  | cfgWrite (reg : CfgReg)
  /-- formats ADSR1, ADSR2, GAIN, FLG in force at a tick: the value, then the tick's operand -/
  | cfgTick (reg : CfgReg)
  deriving DecidableEq, Repr

/-- One command line of the host (R104): the format, the voice whose units a unit-level operation
reaches (log 4), and the bytes. -/
structure Line where
  port  : Port
  voice : VoiceIx
  bytes : List Byte
  deriving DecidableEq, Repr

/-- Why a line is no operation (R102, R311). -/
inductive DecodeError where
  /-- an `OP8` code that R100 does not list -/
  | unknownOp (code : Byte)
  /-- an operand outside its declared width, or a line of the wrong length -/
  | badOperand
  deriving DecidableEq, Repr

end Sys2Proof
end

