-- ==== Sys2Proof/WellFormed.lean ====
section
/-! DEFINITION. Which operations can be written as a line: the checks of `60_exceptions.md` R311
(BadOperand) and the count limit of `30_encoding.md` R104 that the types of `Instr` do not make by
themselves. -/

namespace Sys2Proof

/-- The list has exactly `n` elements. Written by recursion on both, so that a snapshot's length is
checked in one walk. -/
def hasLength : List Byte → Nat → Bool
  | [], 0 => true
  | _ :: t, n + 1 => hasLength t n
  | _, _ => false

/-- "65536 memory bytes + 128 register bytes" (R101, R311). -/
def Snapshot.wellFormed (s : Snapshot) : Bool :=
  hasLength s.ram 65536 && hasLength s.dspregs 128

/-- An operation that a line can carry: a snapshot of the declared size, a count below 65536 (R104).
Every other operand has its declared width by its type. -/
def Instr.wellFormed : Instr → Bool
  | .apuSetState snap => snap.wellFormed
  | .apuRender n => decide (n < 65536)
  | .rbRead n => decide (n < 65536)
  | .brrReset _ _ | .brrRead _ | .brrNext | .brrFin | .envTick _ | .envKon | .envKoff
  | .voiceRender _ _ _ | .voiceKon _ | .voiceKoff | .dspTick | .dspWrite _ _ | .dspRead _
  | .apuReset | .apuReadByte _ | .apuWriteByte _ _ | .rbReset | .rbWrite _ _ | .rbCount
  | .brrblkF0 _ | .brrblkF1 _ | .brrblkF2 _ | .brrblkF3 _
  | .vxVoll _ _ | .vxVolr _ _ | .vxPitchl _ _ | .vxPitchh _ _ | .vxSrcn _ _ | .vxAdsr1 _ _
  | .vxAdsr2 _ _ | .vxGain _ _ | .vxEnvx _ _ | .vxOutx _ _ | .vxUnusedA _ _ | .vxUnusedB _ _
  | .vxUnusedE _ _ | .mvoll _ | .mvolr _ | .evoll _ | .evolr _ | .kon _ | .koff _ | .flg _
  | .endx _ | .efb _ | .unused1D _ | .pmon _ | .non _ | .eon _ | .dir _ | .esa _ | .edl _
  | .cxFir _ _ | .adsr1Adsr _ _ _ | .adsr1Gain _ _ | .adsr2 _ _ _ | .gainDirect _ _
  | .gainLindec _ _ | .gainExpdec _ _ | .gainLininc _ _ | .gainBentinc _ _
  | .flgValue _ _ _ _ _ => true

end Sys2Proof
end

