-- ==== Sys2Proof/Decode.lean ====
section
/-! DEFINITION. The encodings of `30_encoding.md`: the decoder, total on any bytes, which refuses by
name what is no operation (R102, R311), and after it the encoder, written from the same tables. -/

namespace Sys2Proof

/-! ### Fields -/

/-- Bits 7:4 of a byte (R8). -/
def highNibble (b : Byte) : Nibble := b.extractLsb' 4 4

/-- Bits 3:0 of a byte (R8). -/
def lowNibble (b : Byte) : Nibble := b.extractLsb' 0 4

/-- The 16-bit value of two bytes, low byte first (R62, R104). -/
def le16 (lo hi : Byte) : BitVec 16 := hi ++ lo

/-- Bits 7:0 of a 16-bit value. -/
def lowByte (x : BitVec 16) : Byte := x.extractLsb' 0 8

/-- Bits 15:8 of a 16-bit value. -/
def highByte (x : BitVec 16) : Byte := x.extractLsb' 8 8

/-- A count as two bytes, low byte first (R104). -/
def countBytes (n : Nat) : List Byte := [BitVec.ofNat 8 n, BitVec.ofNat 8 (n / 256)]

/-- The column of a register address, bits 3:0 (R97). -/
def regColumn (a : RegAddr) : BitVec 4 := a.extractLsb' 0 4

/-- The voice (or row, or tap) of a register address, bits 6:4 (R97). -/
def regVoice (a : RegAddr) : VoiceIx := (a.extractLsb' 4 3).toFin

/-- The address `(v << 4) | n` (R27, R30). -/
def regAddr (v : VoiceIx) (n : BitVec 4) : RegAddr := BitVec.ofFin v ++ n

/-! ### BRR blocks (R91 to R94) -/

/-- The filter field, header bits 3:2 (R92). -/
def blockFilter (b : Block) : BitVec 2 := b[0].extractLsb' 2 2

/-- The fields of a block (R91 to R93): the header, and for sample `i` the high nibble of data byte
`1 + i / 2` if `i` is even and its low nibble if `i` is odd. -/
def blockFields (b : Block) : BlockFields :=
  { shift := highNibble b[0]
    loopFlag := b[0].getLsbD 1
    endFlag := b[0].getLsbD 0
    nibbles := #v[highNibble b[1], lowNibble b[1], highNibble b[2], lowNibble b[2],
                  highNibble b[3], lowNibble b[3], highNibble b[4], lowNibble b[4],
                  highNibble b[5], lowNibble b[5], highNibble b[6], lowNibble b[6],
                  highNibble b[7], lowNibble b[7], highNibble b[8], lowNibble b[8]] }

/-- The opcode-table row that a block is (R94). -/
def decodeBlock (b : Block) : Instr :=
  match (blockFilter b).toNat with
  | 0 => .brrblkF0 (blockFields b)
  | 1 => .brrblkF1 (blockFields b)
  | 2 => .brrblkF2 (blockFields b)
  | _ => .brrblkF3 (blockFields b)

/-! ### Register addresses (R97, R98) -/

/-- The register row that an address names (R98); every address names exactly one. -/
def decodeReg (a : RegAddr) (access : RegAccess) : Instr :=
  match (regColumn a).toNat with
  | 0x0 => .vxVoll (regVoice a) access
  | 0x1 => .vxVolr (regVoice a) access
  | 0x2 => .vxPitchl (regVoice a) access
  | 0x3 => .vxPitchh (regVoice a) access
  | 0x4 => .vxSrcn (regVoice a) access
  | 0x5 => .vxAdsr1 (regVoice a) access
  | 0x6 => .vxAdsr2 (regVoice a) access
  | 0x7 => .vxGain (regVoice a) access
  | 0x8 => .vxEnvx (regVoice a) access
  | 0x9 => .vxOutx (regVoice a) access
  | 0xA => .vxUnusedA (regVoice a) access
  | 0xB => .vxUnusedB (regVoice a) access
  | 0xC =>
    match (regVoice a).val with
    | 0 => .mvoll access
    | 1 => .mvolr access
    | 2 => .evoll access
    | 3 => .evolr access
    | 4 => .kon access
    | 5 => .koff access
    | 6 => .flg access
    | _ => .endx access
  | 0xD =>
    match (regVoice a).val with
    | 0 => .efb access
    | 1 => .unused1D access
    | 2 => .pmon access
    | 3 => .non access
    | 4 => .eon access
    | 5 => .dir access
    | 6 => .esa access
    | _ => .edl access
  | 0xE => .vxUnusedE (regVoice a) access
  | _ => .cxFir (regVoice a) access

/-! ### Register values (R99, R106) -/

/-- The row of an ADSR1 value: bit 7 set is `ADSR1.ADSR`, clear is `ADSR1.GAIN` (R99). -/
def decodeAdsr1 (b : Byte) (use : CfgUse) : Instr :=
  if b.getLsbD 7 then .adsr1Adsr (b.extractLsb' 4 3) (b.extractLsb' 0 4) use
  else .adsr1Gain (b.extractLsb' 0 7) use

/-- The row of an ADSR2 value: `lllrrrrr` (R99). -/
def decodeAdsr2 (b : Byte) (use : CfgUse) : Instr :=
  .adsr2 (b.extractLsb' 5 3) (b.extractLsb' 0 5) use

/-- The row of a GAIN value (R99). -/
def decodeGain (b : Byte) (use : CfgUse) : Instr :=
  if b.getLsbD 7 then
    match (b.extractLsb' 5 2).toNat with
    | 0 => .gainLindec (b.extractLsb' 0 5) use
    | 1 => .gainExpdec (b.extractLsb' 0 5) use
    | 2 => .gainLininc (b.extractLsb' 0 5) use
    | _ => .gainBentinc (b.extractLsb' 0 5) use
  else .gainDirect (b.extractLsb' 0 7) use

/-- The row of a FLG value: `rmennnnn` (R106). -/
def decodeFlg (b : Byte) (use : FlgUse) : Instr :=
  .flgValue (b.getLsbD 7) (b.getLsbD 6) (b.getLsbD 5) (b.extractLsb' 0 5) use

/-! ### Lines (R100, R101, R104) -/

/-- A 7-bit register address from its byte; a byte of 128 or more is outside the declared width
(R311). -/
def operandRegAddr (b : Byte) : Except DecodeError RegAddr :=
  if b.getLsbD 7 then .error .badOperand else .ok (b.extractLsb' 0 7)

/-- A 15-bit counter from its two bytes; 32768 or more is outside the declared width (R101, R311). -/
def operandCounter (lo hi : Byte) : Except DecodeError Counter :=
  if hi.getLsbD 7 then .error .badOperand else .ok ((le16 lo hi).extractLsb' 0 15)

/-- The block of exactly nine bytes (R311: "a block not of 9 bytes"). -/
def operandBlock (bs : List Byte) : Except DecodeError Block :=
  if h : bs.length = 9 then .ok ⟨bs.toArray, by simpa using h⟩ else .error .badOperand

/-- The snapshot of exactly 65536 + 128 bytes, memory first (R104, R311). -/
def operandSnapshot (bs : List Byte) : Except DecodeError Snapshot :=
  if hasLength bs 65664 then .ok ⟨bs.take 65536, bs.drop 65536⟩ else .error .badOperand

/-- Format OP8: the code selects the operation (R100), its operands follow in the order of R101, each
in the fewest whole bytes (R104). A code that R100 does not list is refused (R102). -/
def decodeOp8 (code : Byte) (operands : List Byte) : Except DecodeError Instr :=
  match code.toNat with
  | 0x00 =>
    match operands with
    | [a, b, c, d] => .ok (.brrReset (le16 a b) (le16 c d))
    | _ => .error .badOperand
  | 0x01 => (operandBlock operands).map .brrRead
  | 0x02 => if operands = [] then .ok .brrNext else .error .badOperand
  | 0x03 => if operands = [] then .ok .brrFin else .error .badOperand
  | 0x10 =>
    match operands with
    | [a, b] => (operandCounter a b).map .envTick
    | _ => .error .badOperand
  | 0x11 => if operands = [] then .ok .envKon else .error .badOperand
  | 0x12 => if operands = [] then .ok .envKoff else .error .badOperand
  | 0x20 =>
    match operands with
    | [a, b, c, d, e, f] => (operandCounter e f).map (.voiceRender (le16 a b) (le16 c d))
    | _ => .error .badOperand
  | 0x21 =>
    match operands with
    | [a] => .ok (.voiceKon a)
    | _ => .error .badOperand
  | 0x22 => if operands = [] then .ok .voiceKoff else .error .badOperand
  | 0x30 => if operands = [] then .ok .dspTick else .error .badOperand
  | 0x31 =>
    match operands with
    | [a, b] => (operandRegAddr a).map (Instr.dspWrite · b)
    | _ => .error .badOperand
  | 0x32 =>
    match operands with
    | [a] => (operandRegAddr a).map .dspRead
    | _ => .error .badOperand
  | 0x40 => if operands = [] then .ok .apuReset else .error .badOperand
  | 0x41 => (operandSnapshot operands).map .apuSetState
  | 0x42 =>
    match operands with
    | [a, b] => .ok (.apuRender (le16 a b).toNat)
    | _ => .error .badOperand
  | 0x43 =>
    match operands with
    | [a, b] => .ok (.apuReadByte (le16 a b))
    | _ => .error .badOperand
  | 0x44 =>
    match operands with
    | [a, b, c] => .ok (.apuWriteByte (le16 a b) c)
    | _ => .error .badOperand
  | 0x50 => if operands = [] then .ok .rbReset else .error .badOperand
  | 0x51 =>
    match operands with
    | [a, b, c, d] => .ok (.rbWrite (le16 a b) (le16 c d))
    | _ => .error .badOperand
  | 0x52 =>
    match operands with
    | [a, b] => .ok (.rbRead (le16 a b).toNat)
    | _ => .error .badOperand
  | 0x53 => if operands = [] then .ok .rbCount else .error .badOperand
  | _ => .error (.unknownOp code)

/-- The use of a register value in force at a tick: the counter follows it. -/
def tickUse (rest : List Byte) : Except DecodeError CfgUse :=
  match rest with
  | [a, b] => (operandCounter a b).map .tick
  | _ => .error .badOperand

/-- Decode the bytes of a line in the format of its port (R90). Total: every byte list is an
operation or is refused by name. -/
def decode (port : Port) (bytes : List Byte) : Except DecodeError Instr :=
  match port with
  | .op8 =>
    match bytes with
    | [] => .error .badOperand
    | code :: operands => decodeOp8 code operands
  | .brrblk => (operandBlock bytes).map decodeBlock
  | .dspregWrite =>
    match bytes with
    | [a, b] => (operandRegAddr a).map (decodeReg · (.write b))
    | _ => .error .badOperand
  | .dspregRead =>
    match bytes with
    | [a] => (operandRegAddr a).map (decodeReg · .read)
    | _ => .error .badOperand
  | .cfgWrite reg =>
    match bytes with
    | [b] =>
      match reg with
      | .adsr1 => .ok (decodeAdsr1 b .write)
      | .adsr2 => .ok (decodeAdsr2 b .write)
      | .gain => .ok (decodeGain b .write)
      | .flg => .ok (decodeFlg b .write)
    | _ => .error .badOperand
  | .cfgTick reg =>
    match bytes with
    | [] => .error .badOperand
    | b :: rest =>
      match reg with
      | .adsr1 => (tickUse rest).map (decodeAdsr1 b)
      | .adsr2 => (tickUse rest).map (decodeAdsr2 b)
      | .gain => (tickUse rest).map (decodeGain b)
      | .flg => if rest = [] then .ok (decodeFlg b .tick) else .error .badOperand

/-! ### The words of the opcode table -/

/-- How many operand bytes follow an operation code (R101, R104). -/
def operandLength (code : Nat) : Option Nat :=
  match code with
  | 0x00 => some 4
  | 0x01 => some 9
  | 0x02 | 0x03 | 0x11 | 0x12 | 0x22 | 0x30 | 0x40 | 0x50 | 0x53 => some 0
  | 0x10 | 0x31 | 0x42 | 0x43 | 0x52 => some 2
  | 0x20 => some 6
  | 0x21 | 0x32 => some 1
  | 0x41 => some 65664
  | 0x44 => some 3
  | 0x51 => some 4
  | _ => none

/-- The `n` lowest bytes of a number, the most significant first: the table writes a block with
byte 0 first (R91; log 7). -/
def bigEndianBytes : Nat → Nat → List Byte
  | 0, _ => []
  | n + 1, w => BitVec.ofNat 8 (w / 256 ^ n) :: bigEndianBytes n w

/-- The line that carries a word of the opcode table, operand bytes zero. A word of 72 bits is a
block, a word of 7 bits a register address. A word of 8 bits does not say its format: it is read as
the row that fixes most of its bits, that is an OP8 code if it is one, else below 128 a register
address, else a GAIN value (log 6). -/
def lineOfTableWord (nbits w : Nat) (v : VoiceIx) : Option Line :=
  if w ≥ 2 ^ nbits then none
  else if nbits = 72 then some ⟨.brrblk, v, bigEndianBytes 9 w⟩
  else if nbits = 7 then some ⟨.dspregWrite, v, [BitVec.ofNat 8 w, 0]⟩
  else if nbits = 8 then
    match operandLength w with
    | some n => some ⟨.op8, v, BitVec.ofNat 8 w :: List.replicate n 0⟩
    | none =>
      if w < 128 then some ⟨.dspregWrite, v, [BitVec.ofNat 8 w, 0]⟩
      else some ⟨.cfgWrite .gain, v, [BitVec.ofNat 8 w]⟩
  else none

/-- The operation the decoder reads from a word numbered as the opcode table numbers it. -/
def decodeTableWord (nbits w : Nat) : Option Instr :=
  match lineOfTableWord nbits w 0 with
  | some line => (decode line.port line.bytes).toOption
  | none => none

/-! ### The encoder -/

/-- The byte of two nibbles, the high one first. -/
def packNibbles (hi lo : Nibble) : Byte := hi ++ lo

/-- The header byte `ssss tt r z` (R91). -/
def packHeader (filter : BitVec 2) (f : BlockFields) : Byte :=
  f.shift ++ (filter ++ (BitVec.ofBool f.loopFlag ++ BitVec.ofBool f.endFlag))

/-- The nine bytes of a block (R91). -/
def packBlock (filter : BitVec 2) (f : BlockFields) : Block :=
  #v[packHeader filter f,
     packNibbles f.nibbles[0] f.nibbles[1], packNibbles f.nibbles[2] f.nibbles[3],
     packNibbles f.nibbles[4] f.nibbles[5], packNibbles f.nibbles[6] f.nibbles[7],
     packNibbles f.nibbles[8] f.nibbles[9], packNibbles f.nibbles[10] f.nibbles[11],
     packNibbles f.nibbles[12] f.nibbles[13], packNibbles f.nibbles[14] f.nibbles[15]]

/-- A register address as its byte (R104). -/
def regByte (a : RegAddr) : Byte := a.setWidth 8

/-- A counter as its two bytes, low byte first (R104). -/
def counterBytes (c : Counter) : List Byte := [lowByte (c.setWidth 16), highByte (c.setWidth 16)]

/-- A register access as a line's format and bytes. -/
def encodeAccess (a : RegAddr) (access : RegAccess) : Port × List Byte :=
  match access with
  | .write b => (.dspregWrite, [regByte a, b])
  | .read => (.dspregRead, [regByte a])

/-- An envelope register's value as a line's format and bytes. -/
def encodeValue (reg : CfgReg) (b : Byte) (use : CfgUse) : Port × List Byte :=
  match use with
  | .write => (.cfgWrite reg, [b])
  | .tick c => (.cfgTick reg, b :: counterBytes c)

/-- ADSR1 `1dddaaaa` (R99). -/
def packAdsr1Adsr (dr : BitVec 3) (ar : BitVec 4) : Byte := 1#1 ++ (dr ++ ar)

/-- ADSR1 `0uuuuuuu` (R99). -/
def packAdsr1Gain (ignored : BitVec 7) : Byte := 0#1 ++ ignored

/-- ADSR2 `lllrrrrr` (R99). -/
def packAdsr2 (sl : BitVec 3) (sr : BitVec 5) : Byte := sl ++ sr

/-- GAIN `0ggggggg` (R99). -/
def packGainDirect (g : BitVec 7) : Byte := 0#1 ++ g

/-- GAIN `1ssrrrrr` with the shape in bits 6:5 (R99). -/
def packGainShape (shape : BitVec 2) (rate : BitVec 5) : Byte := 1#1 ++ (shape ++ rate)

/-- FLG `rmennnnn` (R106). -/
def packFlg (softReset mute echoOff : Bool) (noiseRate : BitVec 5) : Byte :=
  BitVec.ofBool softReset ++ (BitVec.ofBool mute ++ (BitVec.ofBool echoOff ++ noiseRate))

/-- The format and the bytes of an operation (R91, R98 to R101, R104, R106). -/
def encode : Instr → Port × List Byte
  | .brrReset a b => (.op8, [0x00, lowByte a, highByte a, lowByte b, highByte b])
  | .brrRead b => (.op8, 0x01 :: b.toList)
  | .brrNext => (.op8, [0x02])
  | .brrFin => (.op8, [0x03])
  | .envTick c => (.op8, 0x10 :: counterBytes c)
  | .envKon => (.op8, [0x11])
  | .envKoff => (.op8, [0x12])
  | .voiceRender l n c =>
    (.op8, [0x20, lowByte l, highByte l, lowByte n, highByte n] ++ counterBytes c)
  | .voiceKon d => (.op8, [0x21, d])
  | .voiceKoff => (.op8, [0x22])
  | .dspTick => (.op8, [0x30])
  | .dspWrite a b => (.op8, [0x31, regByte a, b])
  | .dspRead a => (.op8, [0x32, regByte a])
  | .apuReset => (.op8, [0x40])
  | .apuSetState snap => (.op8, 0x41 :: (snap.ram ++ snap.dspregs))
  | .apuRender n => (.op8, 0x42 :: countBytes n)
  | .apuReadByte a => (.op8, [0x43, lowByte a, highByte a])
  | .apuWriteByte a b => (.op8, [0x44, lowByte a, highByte a, b])
  | .rbReset => (.op8, [0x50])
  | .rbWrite l r => (.op8, [0x51, lowByte l, highByte l, lowByte r, highByte r])
  | .rbRead n => (.op8, 0x52 :: countBytes n)
  | .rbCount => (.op8, [0x53])
  | .brrblkF0 f => (.brrblk, (packBlock 0 f).toList)
  | .brrblkF1 f => (.brrblk, (packBlock 1 f).toList)
  | .brrblkF2 f => (.brrblk, (packBlock 2 f).toList)
  | .brrblkF3 f => (.brrblk, (packBlock 3 f).toList)
  | .vxVoll v x => encodeAccess (regAddr v 0x0) x
  | .vxVolr v x => encodeAccess (regAddr v 0x1) x
  | .vxPitchl v x => encodeAccess (regAddr v 0x2) x
  | .vxPitchh v x => encodeAccess (regAddr v 0x3) x
  | .vxSrcn v x => encodeAccess (regAddr v 0x4) x
  | .vxAdsr1 v x => encodeAccess (regAddr v 0x5) x
  | .vxAdsr2 v x => encodeAccess (regAddr v 0x6) x
  | .vxGain v x => encodeAccess (regAddr v 0x7) x
  | .vxEnvx v x => encodeAccess (regAddr v 0x8) x
  | .vxOutx v x => encodeAccess (regAddr v 0x9) x
  | .vxUnusedA v x => encodeAccess (regAddr v 0xA) x
  | .vxUnusedB v x => encodeAccess (regAddr v 0xB) x
  | .vxUnusedE v x => encodeAccess (regAddr v 0xE) x
  | .mvoll x => encodeAccess 0x0C x
  | .mvolr x => encodeAccess 0x1C x
  | .evoll x => encodeAccess 0x2C x
  | .evolr x => encodeAccess 0x3C x
  | .kon x => encodeAccess 0x4C x
  | .koff x => encodeAccess 0x5C x
  | .flg x => encodeAccess 0x6C x
  | .endx x => encodeAccess 0x7C x
  | .efb x => encodeAccess 0x0D x
  | .unused1D x => encodeAccess 0x1D x
  | .pmon x => encodeAccess 0x2D x
  | .non x => encodeAccess 0x3D x
  | .eon x => encodeAccess 0x4D x
  | .dir x => encodeAccess 0x5D x
  | .esa x => encodeAccess 0x6D x
  | .edl x => encodeAccess 0x7D x
  | .cxFir t x => encodeAccess (regAddr t 0xF) x
  | .adsr1Adsr dr ar u => encodeValue .adsr1 (packAdsr1Adsr dr ar) u
  | .adsr1Gain ig u => encodeValue .adsr1 (packAdsr1Gain ig) u
  | .adsr2 sl sr u => encodeValue .adsr2 (packAdsr2 sl sr) u
  | .gainDirect g u => encodeValue .gain (packGainDirect g) u
  | .gainLindec r u => encodeValue .gain (packGainShape 0 r) u
  | .gainExpdec r u => encodeValue .gain (packGainShape 1 r) u
  | .gainLininc r u => encodeValue .gain (packGainShape 2 r) u
  | .gainBentinc r u => encodeValue .gain (packGainShape 3 r) u
  | .flgValue sr m e n u =>
    match u with
    | .write => (.cfgWrite .flg, [packFlg sr m e n])
    | .tick => (.cfgTick .flg, [packFlg sr m e n])

/-- A line that carries an operation, for the units of voice `v`. -/
def lineOf (v : VoiceIx) (i : Instr) : Line := ⟨(encode i).1, v, (encode i).2⟩

end Sys2Proof
end

