-- ==== Sys2Proof/Machine/Defaults.lean ====
section
/-! DEFINITION. The defaults of the configuration record: the tables and formulas that the spec's rules
give. -/

namespace Sys2Proof

/-- The header's fields (R91, D5): shift in bits 7:4, filter in 3:2, loop in 1, end in 0. -/
def defaultHeader : HeaderLayout := { shiftAt := 4, filterAt := 2, loopAt := 1, endAt := 0 }

/-- FLG's fields (R106, D34): soft reset in bit 7, mute in 6, echo write disable in 5, noise rate in 4:0. -/
def defaultFlg : FlgLayout := { resetAt := 7, muteAt := 6, echoOffAt := 5, noiseAt := 0 }

/-- The predictors (D9). Filter 0 predicts 0 (R135); the others are the sums of R136, R137 and R138, term by
term. -/
def defaultPredictors : Vector (List PredictTerm) 4 :=
  #v[[],
     [⟨false, 1, 1⟩, ⟨false, -1, 5⟩],
     [⟨false, 1, 0⟩, ⟨true, -1, 0⟩, ⟨true, 1, 4⟩, ⟨false, -3, 6⟩],
     [⟨false, 1, 0⟩, ⟨true, -1, 0⟩, ⟨false, -13, 7⟩, ⟨true, 3, 4⟩]]

/-- RATE, indexes 0 to 31 (R173). Index 0 never fires; its entry is not read. -/
def defaultRates : Vector Nat 32 :=
  #v[0, 2048, 1536, 1280, 1024, 768, 640, 512, 384, 320, 256, 192, 160, 128, 96, 80] ++
  #v[64, 48, 40, 32, 24, 20, 16, 12, 10, 8, 6, 5, 4, 3, 2, 1]

/-- OFFSET, indexes 0 to 31 (R173). -/
def defaultOffsets : Vector Nat 32 :=
  #v[0, 0, 1040, 536, 0, 1040, 536, 0, 1040, 536, 0, 1040, 536, 0, 1040, 536] ++
  #v[0, 1040, 536, 0, 1040, 536, 0, 1040, 536, 0, 1040, 536, 0, 1040, 0, 0]

/-- The spec's defaults (R7, `92_eei_decisions.md`). RB_CAPACITY is open there: 4 is the capacity of the
spec's own program P7 (DESIGN CHOICE, log 9). -/
def Config.default : Config :=
  { memTop := 0xFFFF
    header := defaultHeader, nibbleOrder := .highFirst
    scaling := [], predictors := defaultPredictors, predictions := [], output := []
    governs := [], gainExitMode := .attack, sustainCompare := .le, threshold := []
    rates := defaultRates, offsets := defaultOffsets, gate := []
    release := [], attack := [], decay := [], sustain := [], gain := [], levelClamp := [], commit := []
    directory := [], pitch := [], modulation := [], interpolation := [], noiseSample := []
    envScale := [], volume := []
    counterTop := 30719, counterNext := [], noiseNext := [], noiseReset := 0x4000
    flg := defaultFlg, flgReset := 0xE0
    accumulate := [], echoAddress := [], echoInput := [], echoFilter := .eightTap, fir := []
    mixOrder := .sourceOrder, feedback := [], echoNext := [], envx := [], outx := []
    rbCapacity := 4 }

end Sys2Proof
end

