-- ==== Sys2Proof/Machine/State.lean ====
section
/-! DEFINITION. The state of the DSP core as plain data, one record per unit and nested as
`10_state.md` R20 says, the reasons a step can stop, and the state right after reset
(`70_reset_and_hazards.md` R330, R331). -/

namespace Sys2Proof.Machine

/-- A BrrBlockDecoder (R21). -/
structure Decoder where
  /-- the newest decoded output -/
  h1       : Sample
  /-- the output before `h1` -/
  h2       : Sample
  /-- the 16 outputs of the last block read -/
  buf      : Vector Sample 16
  /-- how many of `buf` have been popped; 16 is finished -/
  idx      : Fin 17
  endFlag  : Bool
  loopFlag : Bool
  deriving DecidableEq, Repr

/-- An Envelope (R22). The three bytes mirror the voice's registers. -/
structure Envelope where
  mode  : EnvMode
  level : Level
  adsr1 : Byte
  adsr2 : Byte
  gain  : Byte
  deriving DecidableEq, Repr

/-- A Voice (R23) with its decoder and its envelope. -/
structure Voice where
  dec           : Decoder
  env           : Envelope
  voll          : Byte
  volr          : Byte
  pitchl        : Byte
  pitchh        : Byte
  srcn          : Byte
  pmon          : Bool
  non           : Bool
  eon           : Bool
  /-- the address of the next block to fetch -/
  sampleAddress : Addr
  startAddress  : Addr
  loopStart     : Addr
  /-- the 12-bit fractional position between `cur` and `nxt` -/
  pos           : BitVec 12
  cur           : Sample
  nxt           : Sample
  /-- the last raw output -/
  rawOut        : Sample
  deriving DecidableEq, Repr

/-- The Dsp (R24): its eight voices and the global state. -/
structure Dsp where
  voices  : Vector Voice 8
  /-- the register block as last written (R30) -/
  regs    : Vector Byte 128
  /-- the shared tick counter, 0 to 30719 in the default configuration -/
  counter : Counter
  /-- the noise shift register; bit 15 is always 0 in the default configuration -/
  noise   : BitVec 16
  /-- the byte offset of the current frame in the echo delay line -/
  echoPos : BitVec 16
  /-- the last eight echo inputs, halved, per channel -/
  histL   : Vector Sample 8
  histR   : Vector Sample 8
  /-- the index of the newest history entry -/
  hpos    : Fin 8
  deriving DecidableEq, Repr

/-- Memory: the bytes that differ from `Config.unlistedByte`, by strictly rising address. -/
abbrev Memory := List Host.Cell

/-- The Apu (R25): the memory image and the Dsp. -/
structure Apu where
  mem : Memory
  dsp : Dsp
  deriving DecidableEq, Repr

/-- A RingBuffer (R26). Both lists have as many entries as the capacity. -/
structure Ring where
  bufL  : List Sample
  bufR  : List Sample
  /-- the write cursor -/
  wr    : Nat
  /-- the read cursor -/
  rd    : Nat
  count : Nat
  deriving DecidableEq, Repr

/-- What an operation returns (R101). -/
inductive Result where
  /-- `BRR.NEXT` -/
  | sample (x : Sample)
  /-- `BRR.FIN` -/
  | finished (b : Bool)
  /-- `VOICE.RENDER` -/
  | voice (left right raw : Sample)
  /-- `DSP.TICK` -/
  | frame (left right : Sample)
  /-- `DSP.READ`, `APU.READ_BYTE` -/
  | byte (b : Byte)
  /-- `APU.RENDER`, `RB.READ` -/
  | frames (left right : List Sample)
  /-- `RB.COUNT` -/
  | count (n : Nat)
  deriving DecidableEq, Repr

/-- The machine. -/
structure State where
  apu    : Apu
  ring   : Ring
  /-- the configuration of this machine; no operation writes it (log 10) -/
  cfg    : Config
  /-- the model's own: the voice whose units the unit-level commands reach (log 4) -/
  sel    : VoiceIx
  /-- the model's own: the lines the host has issued and the core has not performed (log 1) -/
  inbox  : List Line
  /-- the model's own: what the operations have returned, oldest first (log 3) -/
  outbox : List Result
  deriving DecidableEq, Repr

/-- Faults: none. "The table of exception causes is empty" (R310): the core raises no exception, so
no step ends in a fault. Safe: nothing is claimed to fault. -/
inductive Fault
  deriving DecidableEq, Repr

/-- Refusals: the operation instances that have no defined result (R311), each safe, since the model
then takes no step and no claim can be proved through one. -/
inductive Refusal where
  /-- Raised by an arm of `exec` whose operation has no meaning in the model. Safe. -/
  | notModelled (mnemonic : String)
  /-- Raised by `RB.WRITE` when `count` = CAP (R292, R297). Safe. -/
  | ringOverflow
  /-- Raised by `RB.READ n` when n > `count` (R293, R297). Safe. -/
  | ringUnderflow
  /-- Raised by `BRR.NEXT` when `idx` = 16 (R140). Safe. -/
  | decoderExhausted
  /-- Raised by `step` for an OP8 code that R100 does not list (R102). Safe. -/
  | unknownOp (code : Byte)
  /-- Raised by `step` for a line whose operands are outside their declared widths, and by
  `APU.SET_STATE` for a snapshot that is not of 65536 + 128 bytes (R311). Safe. -/
  | badOperand
  deriving DecidableEq, Repr

/-! ### Reset (R330, R331) -/

/-- A decoder after reset: no history, nothing buffered, finished. -/
def Decoder.reset : Decoder :=
  { h1 := 0, h2 := 0, buf := Vector.replicate 16 0, idx := 16, endFlag := false, loopFlag := false }

/-- An envelope after reset: (Release, 0). -/
def Envelope.reset : Envelope :=
  { mode := .release, level := 0, adsr1 := 0, adsr2 := 0, gain := 0 }

/-- A voice after reset. -/
def Voice.reset : Voice :=
  { dec := Decoder.reset, env := Envelope.reset
    voll := 0, volr := 0, pitchl := 0, pitchh := 0, srcn := 0
    pmon := false, non := false, eon := false
    sampleAddress := 0, startAddress := 0, loopStart := 0
    pos := 0, cur := 0, nxt := 0, rawOut := 0 }

/-- The register block after reset: 0x00 everywhere but FLG, which has its configured reset value (R331, D36). -/
def resetRegs (cfg : Config) : Vector Byte 128 := (Vector.replicate 128 0).set 0x6C cfg.flgReset

/-- The Dsp after reset, the noise register at its configured NOISE_RESET (R331, D22). -/
def Dsp.reset (cfg : Config) : Dsp :=
  { voices := Vector.replicate 8 Voice.reset
    regs := resetRegs cfg
    counter := 0, noise := cfg.noiseReset, echoPos := 0
    histL := Vector.replicate 8 0, histR := Vector.replicate 8 0, hpos := 0 }

/-- A RingBuffer of capacity `cap` in its reset state (R26, R291). -/
def Ring.reset (cap : Nat) : Ring :=
  { bufL := List.replicate cap 0, bufR := List.replicate cap 0, wr := 0, rd := 0, count := 0 }

/-- The machine right after reset, with nothing listed in memory (log 8) and no line issued. -/
def State.reset : State :=
  { apu := { mem := [], dsp := Dsp.reset Config.default }
    ring := Ring.reset Config.default.rbCapacity
    cfg := Config.default
    sel := 0, inbox := [], outbox := [] }

end Sys2Proof.Machine
end

