-- ==== Sys2Proof/Machine/Params.lean ====
section
/-! DEFINITION. The numbers of `00_scope.md` R6 and R7 that stand in the spec's formulas, how a configured
function is read, and the rate gate of `41_envelope.md` R173. LEVEL_MAX and PITCH_MAX are from the spec's source;
every other number is the spec's own decision (log 12), and the formula it stands in is configured (log 10). -/

namespace Sys2Proof.Machine

/-- LEVEL_MAX (R6). -/
def levelMax : Int := 2047

/-- PITCH_MAX (R6). -/
def pitchMax : Int := 0x3FFF

/-- One whole step of the 12-bit position (R6 FRAC_BITS, R196). -/
def wholeStep : Nat := 0x1000

/-- BRR_SHIFT_MAX_LINEAR (R7): the last shift with the ordinary scaling. -/
def brrShiftMaxLinear : Nat := 12

/-- ATTACK_STEP (R7, R166). -/
def attackStep : Int := 32

/-- ATTACK_STEP_FAST (R7, R166): when the attack rate index is 31. -/
def attackStepFast : Int := 1024

/-- RELEASE_STEP (R7, R164). -/
def releaseStep : Int := 8

/-- GAIN_STEP (R7, R169). -/
def gainStepSize : Int := 32

/-- GAIN_STEP_BENT (R7, R169). -/
def gainStepBent : Int := 8

/-- BENT_THRESHOLD (R7, R169). -/
def bentThreshold : Int := 0x600

/-- ENV_SCALE_SHIFT (R7, R194). -/
def envScaleShift : Nat := 11

/-- VOLUME_SHIFT (R7, R199). -/
def volumeShift : Nat := 7

/-- ECHO_UNIT (R7, R230): bytes of delay line per step of EDL. -/
def echoUnit : Nat := 0x800

/-- A configured function at an argument: its exception there, else the value `formula` of the spec's
default formula (log 10). -/
def configured {α β : Type} [DecidableEq α] (f : Exceptions α β) (x : α) (formula : β) : β :=
  (f.lookup x).getD formula

/-- The rate gate (R173), by the configured tables (D14): never for rate index 0, else when the counter,
offset, is a multiple of the rate's period. -/
def fires (cfg : Config) (rate counter : Nat) : Bool :=
  configured cfg.gate (rate, counter)
    (if rate = 0 then false
     else (counter + cfg.offsets.toList.getD rate 0) % cfg.rates.toList.getD rate 1 = 0)

end Sys2Proof.Machine
end

