-- ==== Sys2Proof/Machine/Operands.lean ====
section
/-! DEFINITION. The arithmetic of `00_scope.md` R9 on mathematical integers, and the operand forms:
what each operation reads from a register byte, a nibble or a memory word. -/

namespace Sys2Proof.Machine

/-! ### Integers (R9) -/

/-- `v >> n`: floor(v / 2^n), for negative v as well. -/
def asr (v : Int) (n : Nat) : Int := v / ((2 ^ n : Nat) : Int)

/-- `clamp(v, lo, hi)`. -/
def clamp (v lo hi : Int) : Int := if v < lo then lo else if hi < v then hi else v

/-- `clamp16(v)`. -/
def clamp16 (v : Int) : Int := clamp v (-32768) 32767

/-- `wrap16(v)` as the 16-bit register that holds it: the low 16 bits of the two's-complement form.
Reading it with `toInt` is the signed number of R9. -/
def wrap16 (v : Int) : Sample := BitVec.ofInt 16 v

/-- `even(v)`: bit 0 cleared. -/
def even (v : Int) : Int := v - v % 2

/-- `s8(b)`: a register byte read as signed. -/
def s8 (b : Byte) : Int := b.toInt

/-! ### Operands from registers -/

/-- The 14-bit pitch `pitchh[5:0] ++ pitchl` (R32, R192). -/
def pitchOf (cfg : Config) (pitchh pitchl : Byte) : Int :=
  configured cfg.pitch (pitchh, pitchl) ((pitchh.extractLsb' 0 6).toNat * 256 + pitchl.toNat : Nat)

/-- The noise sample of a voice, `wrap16(noise * 2)` (R193, D22). -/
def noiseSample (cfg : Config) (noise : BitVec 16) : Int :=
  (configured cfg.noiseSample noise (wrap16 (noise.toNat * 2))).toInt

/-- The attack rate index, AR * 2 + 1 (R166). -/
def attackRate (ar : BitVec 4) : Nat := ar.toNat * 2 + 1

/-- The decay rate index, DR * 2 + 16 (R167). -/
def decayRate (dr : BitVec 3) : Nat := dr.toNat * 2 + 16

/-- The sustain level field SL of ADSR2, bits 7:5 (R36). -/
def sustainLevel (adsr2 : Byte) : Nat := (adsr2.extractLsb' 5 3).toNat

/-- The sustain rate field SR of ADSR2, bits 4:0, the rate index itself (R36, R168). -/
def sustainRate (adsr2 : Byte) : Nat := (adsr2.extractLsb' 0 5).toNat

/-- The length of the echo delay line in bytes, `EDL[3:0] * 0x800` (R41, R230). -/
def echoLength (edl : Byte) : Nat := (lowNibble edl).toNat * echoUnit

/-- The page address of DIR and ESA, `b << 8` (R41, R67). -/
def pageAddr (b : Byte) : Addr := b ++ 0#8

/-- The directory entry of a source (R68, D26): where its start address and its loop address stand. -/
def directoryEntry (cfg : Config) (dir srcn : Byte) : Addr × Addr :=
  configured cfg.directory (dir, srcn)
    (pageAddr dir + 4 * srcn.setWidth 16, pageAddr dir + 4 * srcn.setWidth 16 + 2)

/-- The current echo frame (R69, R226, D30): where its left and its right sample stand. -/
def echoAddr (cfg : Config) (esa : Byte) (echoPos : BitVec 16) : Addr × Addr :=
  configured cfg.echoAddress (esa, echoPos) (pageAddr esa + echoPos, pageAddr esa + echoPos + 2)

/-! ### Fields of a block (R91 to R93) -/

/-- The earlier and the later nibble of a data byte (R93, D6). -/
def nibblePair (cfg : Config) (b : Byte) : Nibble × Nibble :=
  match cfg.nibbleOrder with
  | .highFirst => (highNibble b, lowNibble b)
  | .lowFirst => (lowNibble b, highNibble b)

/-- The `filter` field of a block, where the header has it (R91, D5). -/
def filterOf (cfg : Config) (b : Block) : BitVec 2 := b[0].extractLsb' cfg.header.filterAt 2

/-- The other fields of a block (R91 to R93, D5, D6). -/
def fieldsOf (cfg : Config) (b : Block) : BlockFields :=
  { shift := b[0].extractLsb' cfg.header.shiftAt 4
    loopFlag := b[0].getLsbD cfg.header.loopAt
    endFlag := b[0].getLsbD cfg.header.endAt
    nibbles :=
      #v[(nibblePair cfg b[1]).1, (nibblePair cfg b[1]).2, (nibblePair cfg b[2]).1, (nibblePair cfg b[2]).2,
         (nibblePair cfg b[3]).1, (nibblePair cfg b[3]).2, (nibblePair cfg b[4]).1, (nibblePair cfg b[4]).2,
         (nibblePair cfg b[5]).1, (nibblePair cfg b[5]).2, (nibblePair cfg b[6]).1, (nibblePair cfg b[6]).2,
         (nibblePair cfg b[7]).1, (nibblePair cfg b[7]).2, (nibblePair cfg b[8]).1, (nibblePair cfg b[8]).2] }

end Sys2Proof.Machine
end

