-- ==== Sys2Proof/Machine/Flags.lean ====
section
/-! DEFINITION. The flags of `10_state.md` R29: where each is kept, what derives it, and the
conditions the rules test. -/

namespace Sys2Proof.Machine

/-- The derived flag finished: all 16 buffered outputs have been popped (R29, R141). -/
def Decoder.finished (d : Decoder) : Bool := d.idx = 16

/-- End without loop: the voice is silenced (R96, R195). -/
def Decoder.endsWithoutLoop (d : Decoder) : Bool := d.endFlag && !d.loopFlag

/-- End with loop: the next block is the one at the loop start (R96, R197). -/
def Decoder.endsWithLoop (d : Decoder) : Bool := d.endFlag && d.loopFlag

/-- Bit v of a bitmask register, for voice v (R40, R41). -/
def maskBit (mask : Byte) (v : VoiceIx) : Bool := mask.getLsbD v.val

/-- FLG's soft reset bit, bit 7 in the default layout (R106, R238, D34). -/
def flgSoftReset (cfg : Config) (flg : Byte) : Bool := flg.getLsbD cfg.flg.resetAt

/-- FLG's mute bit, bit 6 in the default layout (R106, R231, D34). -/
def flgMute (cfg : Config) (flg : Byte) : Bool := flg.getLsbD cfg.flg.muteAt

/-- FLG's echo write disable, bit 5 in the default layout (R106, R229, D34). -/
def flgEchoOff (cfg : Config) (flg : Byte) : Bool := flg.getLsbD cfg.flg.echoOffAt

/-- FLG's noise rate index, bits 4:0 in the default layout (R106, R223, D34). -/
def flgNoiseRate (cfg : Config) (flg : Byte) : Nat := (flg.extractLsb' cfg.flg.noiseAt 5).toNat

end Sys2Proof.Machine
end

