-- ==== Sys2Proof/Machine/Ops.lean ====
section
/-! DEFINITION. The named operations over memory, registers, voices and the host's two lists: every
access of a meaning goes through one of these. The core takes no exception and returns from none
(`60_exceptions.md` R310, R314), so there is no operation for either. -/

namespace Sys2Proof.Machine

/-! ### Memory (R60 to R64) -/

/-- The byte at an address; an address not listed reads as `Config.unlistedByte`. -/
def Memory.get : Memory → Nat → Byte
  | [], _ => Config.unlistedByte
  | (k, v) :: t, a => if a = k then v else Memory.get t a

/-- Store a byte, keeping addresses rising and listing no byte that equals `Config.unlistedByte`. -/
def Memory.set : Memory → Nat → Byte → Memory
  | [], a, b => if b = Config.unlistedByte then [] else [(a, b)]
  | (k, v) :: t, a, b =>
    if a < k then
      if b = Config.unlistedByte then (k, v) :: t else (a, b) :: (k, v) :: t
    else if a = k then
      if b = Config.unlistedByte then t else (a, b) :: t
    else (k, v) :: Memory.set t a b

/-- Every listed address is at least `lo` and below 65536, addresses rise strictly, and no listed
byte equals what an unlisted address reads as. -/
def Memory.wfFrom : Nat → Memory → Bool
  | _, [] => true
  | lo, (k, v) :: t =>
    decide (lo ≤ k) && decide (k < 65536) && decide (v ≠ Config.unlistedByte) && Memory.wfFrom (k + 1) t

/-- The canonical form. -/
def Memory.wf (m : Memory) : Bool := Memory.wfFrom 0 m

/-- The memory that holds the bytes of a list from address `base` on and nothing else (R272: "for a =
0 to 65535: mem[a] <- ram[a]"). -/
def Memory.ofBytes : Nat → List Byte → Memory
  | _, [] => []
  | base, b :: t =>
    if b = Config.unlistedByte then Memory.ofBytes (base + 1) t
    else (base, b) :: Memory.ofBytes (base + 1) t

/-- MEM_SIZE (R7, R60, D2), 65536 in the default configuration. -/
def memSize (cfg : Config) : Nat := cfg.memTop.toNat + 1

/-- The byte of memory that an address names: `a mod MEM_SIZE` (R61; for a size below 65536 log 22). -/
def cell (cfg : Config) (a : Addr) : Nat := a.toNat % memSize cfg

/-- `read_byte(a)` (R61). -/
def readByte (cfg : Config) (m : Memory) (a : Addr) : Byte := Memory.get m (cell cfg a)

/-- `write_byte(a, b)` (R61). -/
def writeByte (cfg : Config) (m : Memory) (a : Addr) (b : Byte) : Memory := Memory.set m (cell cfg a) b

/-- `MemRead(a, 2)` (R61): low byte at the lower address. -/
def memRead2 (cfg : Config) (m : Memory) (a : Addr) : BitVec 16 :=
  le16 (readByte cfg m a) (readByte cfg m (a + 1))

/-- `MemRead(a, 9)` (R61): the nine bytes of a block in address order. -/
def memReadBlock (cfg : Config) (m : Memory) (a : Addr) : Block :=
  #v[readByte cfg m a, readByte cfg m (a + 1), readByte cfg m (a + 2), readByte cfg m (a + 3),
     readByte cfg m (a + 4), readByte cfg m (a + 5), readByte cfg m (a + 6), readByte cfg m (a + 7),
     readByte cfg m (a + 8)]

/-- `MemWrite(a, 2, v)` (R61): the low byte first. -/
def memWrite2 (cfg : Config) (m : Memory) (a : Addr) (v : BitVec 16) : Memory :=
  writeByte cfg (writeByte cfg m a (lowByte v)) (a + 1) (highByte v)

/-! ### The Dsp's registers and voices (R24, R30) -/

/-- `regs[a]`. -/
def Dsp.reg (d : Dsp) (a : RegAddr) : Byte := d.regs[a.toNat]'(a.isLt)

/-- `regs[a] <- b`. -/
def Dsp.setReg (d : Dsp) (a : RegAddr) (b : Byte) : Dsp := { d with regs := d.regs.set a.toNat b a.isLt }

/-- Voice `v`. -/
def Dsp.voice (d : Dsp) (v : VoiceIx) : Voice := d.voices[v.val]'(v.isLt)

/-- Replace voice `v`. -/
def Dsp.setVoice (d : Dsp) (v : VoiceIx) (x : Voice) : Dsp := { d with voices := d.voices.set v.val x v.isLt }

/-- Change voice `v` by `f`. -/
def Dsp.mapVoice (d : Dsp) (v : VoiceIx) (f : Voice → Voice) : Dsp := d.setVoice v (f (d.voice v))

/-! ### The machine -/

/-- Replace the Dsp. -/
def State.withDsp (s : State) (d : Dsp) : State := { s with apu := { s.apu with dsp := d } }

/-- Replace the memory. -/
def State.withMem (s : State) (m : Memory) : State := { s with apu := { s.apu with mem := m } }

/-- Replace the Apu. -/
def State.withApu (s : State) (a : Apu) : State := { s with apu := a }

/-- Replace the RingBuffer. -/
def State.withRing (s : State) (r : Ring) : State := { s with ring := r }

/-- The voice whose units the unit-level commands reach (log 4). -/
def State.selVoice (s : State) : Voice := s.apu.dsp.voice s.sel

/-- Replace the selected voice. -/
def State.withSelVoice (s : State) (x : Voice) : State := s.withDsp (s.apu.dsp.setVoice s.sel x)

/-- Replace the selected voice's decoder. -/
def State.withSelDec (s : State) (d : Decoder) : State := s.withSelVoice { s.selVoice with dec := d }

/-- Replace the selected voice's envelope. -/
def State.withSelEnv (s : State) (e : Envelope) : State := s.withSelVoice { s.selVoice with env := e }

/-- Return a result to the host (R101, R339). -/
def State.emit (s : State) (r : Result) : State := { s with outbox := s.outbox ++ [r] }

/-! ### Fetching a line (R276, R339) -/

/-- Take the oldest line: the state without it, its voice select driven. -/
def State.takeLine (s : State) (line : Line) (rest : List Line) : State :=
  { s with inbox := rest, sel := line.voice }

/-- With no line issued the core waits for the next operation (R339; log 2). -/
def State.idle (s : State) : Host.Outcome State Fault Refusal := .next s

/-- The refusal of a line that is no operation (R102, R311). -/
def refusalOf : DecodeError → Refusal
  | .unknownOp code => .unknownOp code
  | .badOperand => .badOperand

/-- Put the line of an opcode-table word where the next step takes it, the voice select unchanged
(log 1, 6). A word that is no word of the table leaves the state as it is. -/
def State.placeTableWord (s : State) (nbits w : Nat) : State :=
  match lineOfTableWord nbits w s.sel with
  | some line => { s with inbox := line :: s.inbox }
  | none => s

end Sys2Proof.Machine
end

