-- ==== Sys2Proof/Machine/Brr.lean ====
section
/-! DEFINITION. The BRR block decoder (`40_brr_decoder.md`): the operations BRR.RESET, BRR.READ,
BRR.NEXT, BRR.FIN and the block rows BRRBLK.F0 to BRRBLK.F3. -/

namespace Sys2Proof.Machine

/-! ### One sample -/

/-- The scaling of a nibble (D7, D8): R133 for shift 0 to 12, R134 for 13 to 15. -/
def scale (cfg : Config) (n : Nibble) (shift : BitVec 4) : Int :=
  configured cfg.scaling (shift, n)
    (if shift.toNat ≤ brrShiftMaxLinear then asr (n.toInt * ((2 ^ shift.toNat : Nat) : Int)) 1
     else if n.toInt < 0 then -2048 else 0)

/-- One term of a predictor, `p1` the newest output and `p2` the halved one before it. -/
def predictTerm (p1 p2 : Int) (t : PredictTerm) : Int := asr ((if t.older then p2 else p1) * t.factor) t.shift

/-- The predictors (R135 to R138, D9), each the sum of its terms. -/
def predict (cfg : Config) (filter : BitVec 2) (p1 p2 : Int) : Int :=
  configured cfg.predictions (filter, p1, p2) (cfg.predictors[filter.toNat].map (predictTerm p1 p2)).sum

/-- The clamp and the doubling that wraps (R139, D10). -/
def brrOut (cfg : Config) (s : Int) : Sample := configured cfg.output s (wrap16 (clamp16 s * 2))

/-- One output of a block (R132): scaled nibble, plus prediction from the two outputs before it. -/
def brrSample (cfg : Config) (filter : BitVec 2) (shift : BitVec 4) (nibble : Nibble) (h1 h2 : Sample) : Sample :=
  brrOut cfg (scale cfg nibble shift + predict cfg filter h1.toInt (asr h2.toInt 1))

/-! ### A block -/

/-- The outputs of a list of nibbles, in order, and the two newest outputs after them (R132). -/
def brrDecode (cfg : Config) (filter : BitVec 2) (shift : BitVec 4) :
    List Nibble → Sample → Sample → List Sample × Sample × Sample
  | [], h1, h2 => ([], h1, h2)
  | n :: ns, h1, h2 =>
    let out := brrSample cfg filter shift n h1 h2
    let rest := brrDecode cfg filter shift ns out h1
    (out :: rest.1, rest.2)

/-- A block gives one output per nibble. -/
theorem brrDecode_length (cfg : Config) (filter : BitVec 2) (shift : BitVec 4) (ns : List Nibble) (h1 h2 : Sample) :
    (brrDecode cfg filter shift ns h1 h2).1.length = ns.length := by
  induction ns generalizing h1 h2 with
  | nil => rfl
  | cons n ns ih => simp [brrDecode, ih]

/-- `BRR.READ` of a block's fields under a filter (R132): the flags from the header, the sixteen
outputs, the history of the last two of them, nothing popped yet. -/
def Decoder.readFields (d : Decoder) (cfg : Config) (filter : BitVec 2) (f : BlockFields) : Decoder :=
  let r := brrDecode cfg filter f.shift f.nibbles.toList d.h1 d.h2
  { h1 := r.2.1
    h2 := r.2.2
    buf := ⟨r.1.toArray, by
      rw [List.size_toArray, brrDecode_length, Vector.length_toList]⟩
    idx := 0
    endFlag := f.endFlag
    loopFlag := f.loopFlag }

/-- `BRR.READ block` (R132). -/
def Decoder.read (d : Decoder) (cfg : Config) (block : Block) : Decoder :=
  d.readFields cfg (filterOf cfg block) (fieldsOf cfg block)

/-- `BRR.RESET sample0, sample1` (R131): seeds the history, `sample0` the newest. -/
def Decoder.seed (d : Decoder) (sample0 sample1 : Sample) : Decoder :=
  { d with h1 := sample0, h2 := sample1 }

/-- `BRR.NEXT` (R140): the next buffered output, none when all have been popped. -/
def Decoder.pop (d : Decoder) : Option (Sample × Decoder) :=
  if h : d.idx.val < 16 then
    some (d.buf[d.idx.val], { d with idx := ⟨d.idx.val + 1, by omega⟩ })
  else none

/-! ### The operations -/

/-- `BRR.RESET` (R131) on the selected voice's decoder. -/
def execBrrReset (sample0 sample1 : Sample) (s : State) : Host.Outcome State Fault Refusal :=
  .next (s.withSelDec (s.selVoice.dec.seed sample0 sample1))

/-- `BRR.READ` (R132). -/
def execBrrRead (block : Block) (s : State) : Host.Outcome State Fault Refusal :=
  .next (s.withSelDec (s.selVoice.dec.read s.cfg block))

/-- `BRR.NEXT` (R140); an exhausted decoder is refused. -/
def execBrrNext (s : State) : Host.Outcome State Fault Refusal :=
  match s.selVoice.dec.pop with
  | some (x, d) => .next ((s.withSelDec d).emit (.sample x))
  | none => .refused .decoderExhausted

/-- `BRR.FIN` (R141). -/
def execBrrFin (s : State) : Host.Outcome State Fault Refusal :=
  .next (s.emit (.finished s.selVoice.dec.finished))

/-- A block row (R94): `BRR.READ` of the block with these fields and this filter (log 5). -/
def State.readBlockRow (s : State) (filter : BitVec 2) (f : BlockFields) : State :=
  s.withSelDec (s.selVoice.dec.readFields s.cfg filter f)

/-- `BRRBLK.F0` (R135). -/
def execBrrblkF0 (f : BlockFields) (s : State) : Host.Outcome State Fault Refusal :=
  .next (s.readBlockRow 0 f)

/-- `BRRBLK.F1` (R136). -/
def execBrrblkF1 (f : BlockFields) (s : State) : Host.Outcome State Fault Refusal :=
  .next (s.readBlockRow 1 f)

/-- `BRRBLK.F2` (R137). -/
def execBrrblkF2 (f : BlockFields) (s : State) : Host.Outcome State Fault Refusal :=
  .next (s.readBlockRow 2 f)

/-- `BRRBLK.F3` (R138). -/
def execBrrblkF3 (f : BlockFields) (s : State) : Host.Outcome State Fault Refusal :=
  .next (s.readBlockRow 3 f)

end Sys2Proof.Machine
end

