-- ==== Sys2Proof/Machine/Envelope.lean ====
section
/-! DEFINITION. The envelope state machine (`41_envelope.md`): ENV.KON, ENV.KOFF, ENV.TICK. -/

namespace Sys2Proof.Machine

/-- `ENV.KON` (R161): level 0, Attack, from any mode. -/
def Envelope.keyOn (e : Envelope) : Envelope := { e with level := 0, mode := .attack }

/-- `ENV.KOFF` (R162): Release, from any mode, the level kept. -/
def Envelope.keyOff (e : Envelope) : Envelope := { e with mode := .release }

/-- (Release, 0): the auto-silence (R195) and the soft reset (R238). -/
def Envelope.silence (e : Envelope) : Envelope := { e with mode := .release, level := 0 }

/-- The exponential decrease of Decay, Sustain and GAIN.EXPDEC (R167, R168, R169). -/
def expDecrease (level : Int) : Int := level - 1 - asr (level - 1) 8

/-- Attack (R166, D15): the candidate level and the rate index, by ADSR1. -/
def attackOf (cfg : Config) (adsr1 : Byte) (level : Level) : Int × Nat :=
  let rate := attackRate (adsr1.extractLsb' 0 4)
  configured cfg.attack (adsr1, level)
    ((level.toNat : Int) + (if rate < 31 then attackStep else attackStepFast), rate)

/-- Decay (R167, D16): the candidate level and the rate index, by ADSR1. -/
def decayOf (cfg : Config) (adsr1 : Byte) (level : Level) : Int × Nat :=
  configured cfg.decay (adsr1, level) (expDecrease level.toNat, decayRate (adsr1.extractLsb' 4 3))

/-- Sustain (R168, D16): the candidate level and the rate index, by ADSR2. -/
def sustainOf (cfg : Config) (adsr2 : Byte) (level : Level) : Int × Nat :=
  configured cfg.sustain (adsr2, level) (expDecrease level.toNat, sustainRate adsr2)

/-- The shape that a GAIN byte selects (R169): the candidate level and the rate index. -/
def gainShape (g : Byte) (level : Int) : Int × Nat :=
  if g.getLsbD 7 then
    ((match (g.extractLsb' 5 2).toNat with
      | 0 => level - gainStepSize
      | 1 => expDecrease level
      | 2 => level + gainStepSize
      | _ => level + (if level < bentThreshold then gainStepSize else gainStepBent)),
     (g.extractLsb' 0 5).toNat)
  else (((g.extractLsb' 0 7).toNat : Int) * 16, 31)

/-- `gain_step(g, level)` (R169, D18). -/
def gainStep (cfg : Config) (g : Byte) (level : Level) : Int × Nat :=
  configured cfg.gain (g, level) (gainShape g level.toNat)

/-- The level after a tick in Release (R164, D17). -/
def releaseOf (cfg : Config) (level : Level) : Level :=
  configured cfg.release level (BitVec.ofInt 11 (max ((level.toNat : Int) - releaseStep) 0))

/-- The mode of a configured exit phase (R165). -/
def AdsrPhase.mode : AdsrPhase → EnvMode
  | .attack => .attack
  | .decay => .decay
  | .sustain => .sustain

/-- The test of the sustain threshold (R170, D16), by the configured comparison (U8). -/
def reachesSustain (cfg : Config) (env : Int) (adsr2 : Byte) : Bool :=
  configured cfg.threshold (env, adsr2)
    (match cfg.sustainCompare with
     | .le => asr env 8 ≤ (sustainLevel adsr2 : Int)
     | .eq => asr env 8 = (sustainLevel adsr2 : Int))

/-- What a tick has worked out before the range clamp: mode, candidate level, rate index. -/
structure Candidate where
  mode : EnvMode
  env  : Int
  rate : Nat
  deriving DecidableEq, Repr

/-- The ADSR half of the tick (R165 to R168, R170). The sustain threshold is tested on the candidate, and the
rate of that tick is still the decay rate (R170). -/
def adsrCandidate (cfg : Config) (e : Envelope) : Candidate :=
  let mode := if e.mode = .directGain then AdsrPhase.mode cfg.gainExitMode else e.mode
  match mode with
  | .attack =>
    let r := attackOf cfg e.adsr1 e.level
    { mode := .attack, env := r.1, rate := r.2 }
  | .decay =>
    let r := decayOf cfg e.adsr1 e.level
    { mode := if reachesSustain cfg r.1 e.adsr2 then .sustain else .decay
      env := r.1
      rate := r.2 }
  | m =>
    let r := sustainOf cfg e.adsr2 e.level
    { mode := m, env := r.1, rate := r.2 }

/-- The GAIN half of the tick (R165, R169). -/
def gainCandidate (cfg : Config) (e : Envelope) : Candidate :=
  { mode := .directGain
    env := (gainStep cfg e.gain e.level).1
    rate := (gainStep cfg e.gain e.level).2 }

/-- Whether the ADSR fields govern (R165, D13): bit 7 of ADSR1 (R35, R99). -/
def adsrGoverns (cfg : Config) (adsr1 : Byte) : Bool := configured cfg.governs adsr1 (adsr1.getLsbD 7)

/-- The register that governs (R165) gives the candidate. -/
def candidate (cfg : Config) (e : Envelope) : Candidate :=
  if adsrGoverns cfg e.adsr1 then adsrCandidate cfg e else gainCandidate cfg e

/-- The range clamp (R171, D15): an Attack whose candidate leaves the range goes to Decay. -/
def clampCandidate (cfg : Config) (c : Candidate) : Candidate :=
  let r := configured cfg.levelClamp (c.mode, c.env)
    (if levelMax < c.env ∨ c.env < 0 then
      (if c.mode = .attack then .decay else c.mode, if c.env < 0 then 0 else levelMax)
     else (c.mode, c.env))
  { mode := r.1, env := r.2, rate := c.rate }

/-- The commit (R172, D19): the mode follows the candidate at every tick and the level only when the rate
fires. -/
def commitCandidate (cfg : Config) (fired : Bool) (e : Envelope) (c : Candidate) : EnvMode × Level :=
  configured cfg.commit (fired, (e.mode, e.level), (c.mode, c.env))
    (c.mode, if fired then BitVec.ofInt 11 c.env else e.level)

/-- `ENV.TICK counter` (R163): in Release, R164; else the candidate, clamped and committed. -/
def Envelope.tick (cfg : Config) (counter : Counter) (e : Envelope) : Envelope :=
  if e.mode = .release then { e with level := releaseOf cfg e.level }
  else
    let c := clampCandidate cfg (candidate cfg e)
    let r := commitCandidate cfg (fires cfg c.rate counter.toNat) e c
    { e with mode := r.1, level := r.2 }

/-! ### The operations, on the selected voice's envelope -/

/-- `ENV.TICK` (R163). -/
def execEnvTick (counter : Counter) (s : State) : Host.Outcome State Fault Refusal :=
  .next (s.withSelEnv (s.selVoice.env.tick s.cfg counter))

/-- `ENV.KON` (R161). -/
def execEnvKon (s : State) : Host.Outcome State Fault Refusal :=
  .next (s.withSelEnv s.selVoice.env.keyOn)

/-- `ENV.KOFF` (R162). -/
def execEnvKoff (s : State) : Host.Outcome State Fault Refusal :=
  .next (s.withSelEnv s.selVoice.env.keyOff)

end Sys2Proof.Machine
end

