-- ==== Sys2Proof/Machine/Voice.lean ====
section
/-! DEFINITION. The voice (`42_voice.md`): VOICE.RENDER in its six steps, the procedures `advance` and
`fetch_block`, VOICE.KON and VOICE.KOFF. -/

namespace Sys2Proof.Machine

/-! ### The sequencer -/

/-- `fetch_block(mem)` (R198): decode the nine bytes at the sample address, which moves past them. -/
def Voice.fetchBlock (cfg : Config) (m : Memory) (v : Voice) : Voice :=
  { v with
    dec := v.dec.read cfg (memReadBlock cfg m v.sampleAddress)
    sampleAddress := v.sampleAddress + 9 }

/-- The refill of `advance` (R197): when the block is used up, relocate to the loop start if it ended
with the loop flag set, and fetch. -/
def Voice.refill (cfg : Config) (m : Memory) (v : Voice) : Voice :=
  if v.dec.finished then
    Voice.fetchBlock cfg m (if v.dec.endsWithLoop then { v with sampleAddress := v.loopStart } else v)
  else v

/-- `cur <- nxt; nxt <- BRR.NEXT(dec)` (R197). After a refill the decoder is never exhausted, so the
last line is not reached from `advance`. -/
def Voice.shiftSample (v : Voice) : Voice :=
  match v.dec.pop with
  | some (x, d) => { v with cur := v.nxt, nxt := x, dec := d }
  | none => v

/-- `advance(mem)` (R197). -/
def Voice.advance (cfg : Config) (m : Memory) (v : Voice) : Voice := Voice.shiftSample (Voice.refill cfg m v)

/-- `advance`, a number of times. -/
def Voice.advanceTimes (cfg : Config) (m : Memory) : Nat → Voice → Voice
  | 0, v => v
  | n + 1, v => Voice.advanceTimes cfg m n (Voice.advance cfg m v)

/-! ### The six steps of VOICE.RENDER -/

/-- The pitch modulated by the last raw output (R192, D20). -/
def modulatedPitch (cfg : Config) (last pitch : Int) : Int :=
  configured cfg.modulation (last, pitch) (pitch + asr (asr last 5 * pitch) 10)

/-- Step 1 (R192): the effective pitch. -/
def Voice.effectivePitch (cfg : Config) (v : Voice) (last : Int) : Int :=
  let pitch := pitchOf cfg v.pitchh v.pitchl
  clamp (if v.pmon then modulatedPitch cfg last pitch else pitch) 0 pitchMax

/-- The position-weighted blend of two samples, made even (R193, D21). -/
def interpolate (cfg : Config) (cur nxt : Sample) (pos : BitVec 12) : Sample :=
  configured cfg.interpolation (cur, nxt, pos)
    (wrap16 (even (asr (cur.toInt * (0x1000 - (pos.toNat : Int)) + nxt.toInt * (pos.toNat : Int)) 12)))

/-- Step 2 (R193): the noise sample, or the two samples interpolated. -/
def Voice.sourceSample (cfg : Config) (v : Voice) (noise : BitVec 16) : Int :=
  if v.non then noiseSample cfg noise else (interpolate cfg v.cur v.nxt v.pos).toInt

/-- Step 3 (R194, D23): the source scaled by the level, made even. -/
def envScale (cfg : Config) (src : Int) (level : Level) : Sample :=
  configured cfg.envScale (src, level) (wrap16 (even (asr (src * (level.toNat : Int)) envScaleShift)))

/-- Step 4 (R195): a block that ends without loop silences the voice. -/
def Voice.autoSilence (v : Voice) : Voice :=
  if v.dec.endsWithoutLoop then { v with env := v.env.silence } else v

/-- Step 5 (R196): the position moves by the pitch, one `advance` for each whole step it passes. -/
def Voice.step5 (cfg : Config) (m : Memory) (pitch : Int) (v : Voice) : Voice :=
  let p := v.pos.toNat + pitch.toNat
  { Voice.advanceTimes cfg m (p / wholeStep) v with pos := BitVec.ofNat 12 (p % wholeStep) }

/-- Step 6 (R199, D24): a raw output scaled by a signed volume register. -/
def volScale (cfg : Config) (x : Int) (vol : Byte) : Int :=
  configured cfg.volume (x, vol) (asr (x * s8 vol) volumeShift)

/-- What `VOICE.RENDER` leaves and returns. -/
structure Rendered where
  voice : Voice
  left  : Sample
  right : Sample
  raw   : Sample
  deriving DecidableEq, Repr

/-- `VOICE.RENDER last, noise, counter, mem` (R191), the six steps in the normative order. -/
def Voice.render (cfg : Config) (m : Memory) (last : Sample) (noise : BitVec 16) (counter : Counter)
    (v : Voice) : Rendered :=
  let pitch := v.effectivePitch cfg last.toInt
  let src := v.sourceSample cfg noise
  let v3 : Voice := { v with env := v.env.tick cfg counter }
  let raw := envScale cfg src v3.env.level
  let v5 := Voice.step5 cfg m pitch v3.autoSilence
  { voice := { v5 with rawOut := raw }
    left := wrap16 (volScale cfg raw.toInt v5.voll)
    right := wrap16 (volScale cfg raw.toInt v5.volr)
    raw := raw }

/-! ### Key-on and key-off -/

/-- `VOICE.KON dir, mem` (R200): directory, first block, one sample primed, envelope key-on. -/
def Voice.keyOn (cfg : Config) (m : Memory) (dir : Byte) (v : Voice) : Voice :=
  let e := directoryEntry cfg dir v.srcn
  let start := memRead2 cfg m e.1
  let seeded : Voice :=
    { v with
      startAddress := start
      loopStart := memRead2 cfg m e.2
      sampleAddress := start
      dec := v.dec.seed 0 0 }
  let primed := Voice.advance cfg m { Voice.fetchBlock cfg m seeded with pos := 0, cur := 0, nxt := 0 }
  { primed with env := primed.env.keyOn }

/-- `VOICE.KOFF` (R201). -/
def Voice.keyOff (v : Voice) : Voice := { v with env := v.env.keyOff }

/-! ### The operations, on the selected voice -/

/-- `VOICE.RENDER` (R191). -/
def execVoiceRender (last : Sample) (noise : BitVec 16) (counter : Counter) (s : State) :
    Host.Outcome State Fault Refusal :=
  let r := s.selVoice.render s.cfg s.apu.mem last noise counter
  .next ((s.withSelVoice r.voice).emit (.voice r.left r.right r.raw))

/-- `VOICE.KON` (R200). -/
def execVoiceKon (dir : Byte) (s : State) : Host.Outcome State Fault Refusal :=
  .next (s.withSelVoice (s.selVoice.keyOn s.cfg s.apu.mem dir))

/-- `VOICE.KOFF` (R201). -/
def execVoiceKoff (s : State) : Host.Outcome State Fault Refusal :=
  .next (s.withSelVoice s.selVoice.keyOff)

end Sys2Proof.Machine
end

