-- ==== Sys2Proof/Machine/Dsp.lean ====
section
/-! DEFINITION. The Dsp (`43_dsp_mixer.md`): DSP.TICK stage by stage, DSP.WRITE with the key-on and
key-off fan-out, DSP.READ. -/

namespace Sys2Proof.Machine

/-- `sv(x, a)` (R220): x scaled by the signed volume register at `a`. -/
def Dsp.scaled (cfg : Config) (d : Dsp) (x : Int) (a : RegAddr) : Int := volScale cfg x (d.reg a)

/-! ### Stages 1 and 2: counter and noise -/

/-- Stage 1 (R222): the counter after a tick's decrement, over the configured range (D14). -/
def counterStep (cfg : Config) (c : Counter) : Counter :=
  configured cfg.counterNext c (if c = 0 then cfg.counterTop else c - 1)

/-- The noise register after one shift (R223, D22). -/
def noiseShift (cfg : Config) (noise : BitVec 16) : BitVec 16 :=
  configured cfg.noiseNext noise
    ((BitVec.ofBool (noise.getLsbD 0 != noise.getLsbD 1)).setWidth 16 <<< 14 ||| noise >>> 1)

/-- Stage 2 (R223): the noise register after a tick. -/
def noiseStep (cfg : Config) (flg : Byte) (counter : Counter) (noise : BitVec 16) : BitVec 16 :=
  if fires cfg (flgNoiseRate cfg flg) counter.toNat then noiseShift cfg noise else noise

/-! ### Stage 3: the voices (R224, R225) -/

/-- The fold's state: the voices, the last raw output, the four sums. -/
structure Mix where
  dsp   : Dsp
  last  : Sample
  mainL : Int
  mainR : Int
  echoL : Int
  echoR : Int
  deriving DecidableEq, Repr

/-- Soft reset (R238): while FLG's bit is set, (Release, 0) before the render. -/
def Voice.softReset (cfg : Config) (flg : Byte) (v : Voice) : Voice :=
  if flgSoftReset cfg flg then { v with env := v.env.silence } else v

/-- An addition to a sum (R225, D29), saturating at once. -/
def mixAdd (cfg : Config) (sum x : Int) : Int := configured cfg.accumulate (sum, x) (clamp16 (sum + x))

/-- One turn of the fold (R224) and its accumulation (R225). -/
def Mix.turn (cfg : Config) (m : Memory) (x : Mix) (v : VoiceIx) : Mix :=
  let r := (Voice.softReset cfg (x.dsp.reg 0x6C) (x.dsp.voice v)).render cfg m x.last x.dsp.noise x.dsp.counter
  { dsp := x.dsp.setVoice v r.voice
    last := r.raw
    mainL := mixAdd cfg x.mainL r.left.toInt
    mainR := mixAdd cfg x.mainR r.right.toInt
    echoL := if r.voice.eon then mixAdd cfg x.echoL r.left.toInt else x.echoL
    echoR := if r.voice.eon then mixAdd cfg x.echoR r.right.toInt else x.echoR }

/-- All eight voices in strict index order 0 to 7 (R224). -/
def renderVoices (cfg : Config) (m : Memory) (d : Dsp) : Mix :=
  allVoices.foldl (Mix.turn cfg m) { dsp := d, last := 0, mainL := 0, mainR := 0, echoL := 0, echoR := 0 }

/-! ### Stage 4: echo read and filter (R226, R227) -/

/-- The coefficient C[x], register `(x << 4) | 0xF` (R42). -/
def Dsp.firCoef (d : Dsp) (x : Fin 8) : Int := s8 (d.reg (regAddr x 0xF))

/-- One term of the filter: a history entry by a coefficient (R227). -/
def firTerm (entry : Sample) (coef : Int) : Int := asr (entry.toInt * coef) 6

/-- The filter of one channel (R227). `hist[(hpos + 1 + i) mod 8]` is weighted by C[i] for i = 0
to 6, the newest entry `hist[hpos]` by C[7]; the first seven are summed and wrapped, the eighth added,
the total saturated and made even. -/
def Dsp.eightTap (d : Dsp) (hist : Vector Sample 8) : Int :=
  let seven := ([0, 1, 2, 3, 4, 5, 6] : List (Fin 8)).foldl
    (fun acc i => acc + firTerm (hist[(d.hpos + 1 + i).val]) (d.firCoef i)) 0
  even (clamp16 ((wrap16 seven).toInt + (wrap16 (firTerm hist[d.hpos.val] (d.firCoef 7))).toInt))

/-- What the filter reads (R227): the history's entries, the oldest first, and the bytes of C0 to C7. -/
def Dsp.firOperands (d : Dsp) (hist : Vector Sample 8) : Vector Sample 8 × Vector Byte 8 :=
  (Vector.ofFn fun i : Fin 8 => hist[(d.hpos + 1 + i).val], Vector.ofFn fun i : Fin 8 => d.reg (regAddr i 0xF))

/-- The filtered echo of one channel, by the configured filter (D31). With the identity it is the newest
input, read back from its halved entry and so even, as R227's result is (log 21). -/
def Dsp.fir (cfg : Config) (d : Dsp) (hist : Vector Sample 8) : Int :=
  configured cfg.fir (d.firOperands hist)
    (match cfg.echoFilter with
     | .eightTap => d.eightTap hist
     | .identity => clamp16 (hist[d.hpos.val].toInt * 2))

/-- The history entry of an echo input: half of it (R227, D31). -/
def halve (cfg : Config) (x : Sample) : Sample := configured cfg.echoInput x (wrap16 (asr x.toInt 1))

/-- Push one echo input, halved, on each channel's history (R227). -/
def Dsp.pushEcho (cfg : Config) (d : Dsp) (inL inR : Sample) : Dsp :=
  let h := d.hpos + 1
  { d with
    hpos := h
    histL := d.histL.set h.val (halve cfg inL)
    histR := d.histR.set h.val (halve cfg inR) }

/-- The echo frame of this tick (R226): where its left and its right sample stand. -/
def Dsp.echoFrame (cfg : Config) (d : Dsp) : Addr × Addr := echoAddr cfg (d.reg 0x6D) d.echoPos

/-- Stage 4a (R226): read the frame and push it on the history. -/
def Dsp.readEcho (cfg : Config) (d : Dsp) (m : Memory) : Dsp :=
  d.pushEcho cfg (memRead2 cfg m (d.echoFrame cfg).1) (memRead2 cfg m (d.echoFrame cfg).2)

/-! ### Stage 5: feedback (R229, R230) -/

/-- The combined value of one channel (R229, D33): the echo sum plus the filtered tap by EFB. -/
def Dsp.feedback (cfg : Config) (d : Dsp) (echoSum fir : Int) : Sample :=
  configured cfg.feedback (echoSum, fir, d.reg 0x0D) (wrap16 (even (clamp16 (echoSum + d.scaled cfg fir 0x0D))))

/-- Stage 5a (R229): write the frame back where it was read, unless FLG disables it. -/
def Dsp.writeEcho (cfg : Config) (d : Dsp) (m : Memory) (a : Addr × Addr) (wbL wbR : Sample) : Memory :=
  if flgEchoOff cfg (d.reg 0x6C) then m else memWrite2 cfg (memWrite2 cfg m a.1 wbL) a.2 wbR

/-- The echo position after a tick (R230, D30): one frame further, or 0 at the length EDL gives. -/
def nextEchoPos (cfg : Config) (echoPos : BitVec 16) (edl : Byte) : BitVec 16 :=
  configured cfg.echoNext (echoPos, edl)
    (if echoLength edl ≤ echoPos.toNat + 4 then 0 else BitVec.ofNat 16 (echoPos.toNat + 4))

/-- Stage 5b (R230). -/
def Dsp.stepEchoPos (cfg : Config) (d : Dsp) : Dsp :=
  { d with echoPos := nextEchoPos cfg d.echoPos (d.reg 0x7D) }

/-! ### Stage 6: output (R228, R231) -/

/-- One channel of the output (R228), by MIX_ORDER; `evol` and `mvol` are the addresses of the
channel's echo and master volume registers. -/
def Dsp.mixChannel (cfg : Config) (d : Dsp) (main fir : Int) (evol mvol : RegAddr) : Int :=
  match cfg.mixOrder with
  | .sourceOrder => clamp16 (d.scaled cfg (clamp16 (main + d.scaled cfg fir evol)) mvol)
  | .chipOrder => clamp16 (d.scaled cfg main mvol + d.scaled cfg fir evol)

/-- Mute (R231): FLG's bit set silences the output and nothing else. -/
def Dsp.muted (cfg : Config) (d : Dsp) (x : Int) : Sample := if flgMute cfg (d.reg 0x6C) then 0 else wrap16 x

/-! ### DSP.TICK (R221) -/

/-- What a tick leaves and returns (R232). -/
structure Ticked where
  dsp   : Dsp
  mem   : Memory
  left  : Sample
  right : Sample
  deriving DecidableEq, Repr

/-- Stages 1 and 2: counter first, then noise, both before any voice (R222, R223). -/
def Dsp.advanceClock (cfg : Config) (d : Dsp) : Dsp :=
  { d with
    counter := counterStep cfg d.counter
    noise := noiseStep cfg (d.reg 0x6C) (counterStep cfg d.counter) d.noise }

/-- Stages 4 to 7 (R226 to R232): echo and output, from what the voices left. -/
def Mix.finish (cfg : Config) (m : Memory) (x : Mix) : Ticked :=
  let a := x.dsp.echoFrame cfg
  let e := x.dsp.readEcho cfg m
  let firL := e.fir cfg e.histL
  let firR := e.fir cfg e.histR
  { dsp := e.stepEchoPos cfg
    mem := e.writeEcho cfg m a (e.feedback cfg x.echoL firL) (e.feedback cfg x.echoR firR)
    left := e.muted cfg (e.mixChannel cfg x.mainL firL 0x2C 0x0C)
    right := e.muted cfg (e.mixChannel cfg x.mainR firR 0x3C 0x1C) }

/-- `DSP.TICK mem` (R221), the stages in order. -/
def Dsp.tick (cfg : Config) (m : Memory) (d : Dsp) : Ticked :=
  (renderVoices cfg m (d.advanceClock cfg)).finish cfg m

/-! ### Register access (R233 to R237) -/

/-- Key-on fan-out (R235): the set bits in ascending order, DIR as it stands in the block. -/
def Dsp.keyOnFanout (cfg : Config) (m : Memory) (mask : Byte) (d : Dsp) : Dsp :=
  allVoices.foldl (fun d v => if maskBit mask v then d.mapVoice v (Voice.keyOn cfg m (d.reg 0x5D)) else d) d

/-- Key-off fan-out (R236). -/
def Dsp.keyOffFanout (mask : Byte) (d : Dsp) : Dsp :=
  allVoices.foldl (fun d v => if maskBit mask v then d.mapVoice v Voice.keyOff else d) d

/-- Copy bit v of a mask to a flag of voice v, all eight (R233, R41). -/
def Dsp.copyMask (f : Bool → Voice → Voice) (mask : Byte) (d : Dsp) : Dsp :=
  allVoices.foldl (fun d v => d.mapVoice v (f (maskBit mask v))) d

/-- The further effect of a register write (R233), the byte already stored. -/
def Dsp.writeEffect (cfg : Config) (m : Memory) (a : RegAddr) (b : Byte) (d : Dsp) : Dsp :=
  match (regColumn a).toNat with
  | 0 => d.mapVoice (regVoice a) (fun v => { v with voll := b })
  | 1 => d.mapVoice (regVoice a) (fun v => { v with volr := b })
  | 2 => d.mapVoice (regVoice a) (fun v => { v with pitchl := b })
  | 3 => d.mapVoice (regVoice a) (fun v => { v with pitchh := b })
  | 4 => d.mapVoice (regVoice a) (fun v => { v with srcn := b })
  | 5 => d.mapVoice (regVoice a) (fun v => { v with env := { v.env with adsr1 := b } })
  | 6 => d.mapVoice (regVoice a) (fun v => { v with env := { v.env with adsr2 := b } })
  | 7 => d.mapVoice (regVoice a) (fun v => { v with env := { v.env with gain := b } })
  | _ =>
    if a = 0x4C then d.keyOnFanout cfg m b
    else if a = 0x5C then d.keyOffFanout b
    else if a = 0x2D then d.copyMask (fun x v => { v with pmon := x }) b
    else if a = 0x3D then d.copyMask (fun x v => { v with non := x }) b
    else if a = 0x4D then d.copyMask (fun x v => { v with eon := x }) b
    else d

/-- `DSP.WRITE addr, data, mem` (R233). -/
def Dsp.write (cfg : Config) (m : Memory) (a : RegAddr) (b : Byte) (d : Dsp) : Dsp :=
  Dsp.writeEffect cfg m a b (d.setReg a b)

/-- ENVX (R38, R237, D35): level >> 4. -/
def envxByte (cfg : Config) (level : Level) : Byte := configured cfg.envx level (BitVec.ofNat 8 (level.toNat / 16))

/-- OUTX (R39, R237, D35): the high byte of the raw output. -/
def outxByte (cfg : Config) (rawOut : Sample) : Byte := configured cfg.outx rawOut (highByte rawOut)

/-- `DSP.READ addr` (R237). -/
def Dsp.read (cfg : Config) (d : Dsp) (a : RegAddr) : Byte :=
  match (regColumn a).toNat with
  | 8 => envxByte cfg (d.voice (regVoice a)).env.level
  | 9 => outxByte cfg (d.voice (regVoice a)).rawOut
  | _ => d.reg a

/-! ### The operations -/

/-- The state after a tick, its frame not yet returned. -/
def State.ticked (s : State) : State :=
  let t := s.apu.dsp.tick s.cfg s.apu.mem
  s.withApu { mem := t.mem, dsp := t.dsp }

/-- The frame of a tick (R232). -/
def State.tickFrame (s : State) : Result :=
  let t := s.apu.dsp.tick s.cfg s.apu.mem
  .frame t.left t.right

/-- A register write with the Apu's own memory as the handle (R104, R233). -/
def State.writeReg (s : State) (a : RegAddr) (b : Byte) : State :=
  s.withDsp (s.apu.dsp.write s.cfg s.apu.mem a b)

/-- `DSP.TICK` (R221). -/
def execDspTick (s : State) : Host.Outcome State Fault Refusal :=
  .next (s.ticked.emit s.tickFrame)

/-- `DSP.WRITE` (R233). -/
def execDspWrite (a : RegAddr) (b : Byte) (s : State) : Host.Outcome State Fault Refusal :=
  .next (s.writeReg a b)

/-- `DSP.READ` (R237). -/
def execDspRead (a : RegAddr) (s : State) : Host.Outcome State Fault Refusal :=
  .next (s.emit (.byte (s.apu.dsp.read s.cfg a)))

end Sys2Proof.Machine
end

