-- ==== Sys2Proof/Machine/Apu.lean ====
section
/-! DEFINITION. The Apu and the host interface (`44_apu_host.md`), and APU.RESET
(`70_reset_and_hazards.md` R330). -/

namespace Sys2Proof.Machine

/-- `APU.RESET` (R330): every element of the Dsp at its reset value, memory untouched. -/
def Apu.powerOn (cfg : Config) (a : Apu) : Apu := { a with dsp := Dsp.reset cfg }

/-- The register writes of `APU.SET_STATE` (R272): ascending from address `a`, KON and KOFF left
out. -/
def Dsp.loadRegs (cfg : Config) (m : Memory) : Nat → List Byte → Dsp → Dsp
  | _, [], d => d
  | a, b :: bs, d =>
    Dsp.loadRegs cfg m (a + 1) bs (if a = 0x4C ∨ a = 0x5C then d else d.write cfg m (BitVec.ofNat 7 a) b)

/-- `APU.SET_STATE snapshot` (R272): reset, the memory image, the registers, KOFF stored without an
event, KON written last. Of the image a smaller memory takes its first MEM_SIZE bytes (DESIGN CHOICE, log 22). -/
def Apu.setState (cfg : Config) (snap : Snapshot) (a : Apu) : Apu :=
  let m := Memory.ofBytes 0 (snap.ram.take (memSize cfg))
  let d := Dsp.loadRegs cfg m 0 snap.dspregs (a.powerOn cfg).dsp
  { mem := m
    dsp := (d.setReg 0x5C (snap.dspregs.getD 0x5C 0)).write cfg m 0x4C (snap.dspregs.getD 0x4C 0) }

/-- What a render leaves and returns (R273). -/
structure Batch where
  apu   : Apu
  left  : List Sample
  right : List Sample
  deriving DecidableEq, Repr

/-- `APU.RENDER n` (R273): n ticks, their frames in order. -/
def Apu.render (cfg : Config) : Nat → Apu → Batch
  | 0, a => { apu := a, left := [], right := [] }
  | n + 1, a =>
    let t := a.dsp.tick cfg a.mem
    let rest := Apu.render cfg n { mem := t.mem, dsp := t.dsp }
    { apu := rest.apu, left := t.left :: rest.left, right := t.right :: rest.right }

/-- `APU.RESET` (R330). -/
def execApuReset (s : State) : Host.Outcome State Fault Refusal := .next (s.withApu (s.apu.powerOn s.cfg))

/-- `APU.SET_STATE` (R272); a snapshot of the wrong size is refused (R311). -/
def execApuSetState (snap : Snapshot) (s : State) : Host.Outcome State Fault Refusal :=
  if snap.wellFormed then .next (s.withApu (s.apu.setState s.cfg snap)) else .refused .badOperand

/-- `APU.RENDER` (R273). -/
def execApuRender (n : Nat) (s : State) : Host.Outcome State Fault Refusal :=
  let r := s.apu.render s.cfg n
  .next ((s.withApu r.apu).emit (.frames r.left r.right))

/-- `APU.READ_BYTE` (R274). -/
def execApuReadByte (a : Addr) (s : State) : Host.Outcome State Fault Refusal :=
  .next (s.emit (.byte (readByte s.cfg s.apu.mem a)))

/-- `APU.WRITE_BYTE` (R275). -/
def execApuWriteByte (a : Addr) (b : Byte) (s : State) : Host.Outcome State Fault Refusal :=
  .next (s.withMem (writeByte s.cfg s.apu.mem a b))

end Sys2Proof.Machine
end

