-- ==== Sys2Proof/Machine/Regs.lean ====
section
/-! DEFINITION. The register rows of the opcode table (format DSPREG, `30_encoding.md` R98): an access
to one register, as the operand of DSP.WRITE or of DSP.READ (log 5). What each register's write and
read do is `DSP.WRITE` (R233) and `DSP.READ` (R237) at its address. -/

namespace Sys2Proof.Machine

/-- The access to the register at an address: a write has `DSP.WRITE`'s effect, a read returns what
`DSP.READ` returns. -/
def State.accessReg (s : State) (a : RegAddr) (access : RegAccess) : State :=
  match access with
  | .write b => s.writeReg a b
  | .read => s.emit (.byte (s.apu.dsp.read s.cfg a))

/-! ### Per-voice registers, address `(v << 4) | n` -/

/-- VxVOLL (R31): column 0x0 of voice v. -/
def execVxVoll (v : VoiceIx) (access : RegAccess) (s : State) : Host.Outcome State Fault Refusal :=
  .next (s.accessReg (regAddr v 0x0) access)

/-- VxVOLR (R31): column 0x1 of voice v. -/
def execVxVolr (v : VoiceIx) (access : RegAccess) (s : State) : Host.Outcome State Fault Refusal :=
  .next (s.accessReg (regAddr v 0x1) access)

/-- VxPITCHL (R32): column 0x2 of voice v. -/
def execVxPitchl (v : VoiceIx) (access : RegAccess) (s : State) : Host.Outcome State Fault Refusal :=
  .next (s.accessReg (regAddr v 0x2) access)

/-- VxPITCHH (R32): column 0x3 of voice v. -/
def execVxPitchh (v : VoiceIx) (access : RegAccess) (s : State) : Host.Outcome State Fault Refusal :=
  .next (s.accessReg (regAddr v 0x3) access)

/-- VxSRCN (R33): column 0x4 of voice v. -/
def execVxSrcn (v : VoiceIx) (access : RegAccess) (s : State) : Host.Outcome State Fault Refusal :=
  .next (s.accessReg (regAddr v 0x4) access)

/-- VxADSR1 (R35): column 0x5 of voice v. -/
def execVxAdsr1 (v : VoiceIx) (access : RegAccess) (s : State) : Host.Outcome State Fault Refusal :=
  .next (s.accessReg (regAddr v 0x5) access)

/-- VxADSR2 (R36): column 0x6 of voice v. -/
def execVxAdsr2 (v : VoiceIx) (access : RegAccess) (s : State) : Host.Outcome State Fault Refusal :=
  .next (s.accessReg (regAddr v 0x6) access)

/-- VxGAIN (R37): column 0x7 of voice v. -/
def execVxGain (v : VoiceIx) (access : RegAccess) (s : State) : Host.Outcome State Fault Refusal :=
  .next (s.accessReg (regAddr v 0x7) access)

/-- VxENVX (R38): column 0x8 of voice v. -/
def execVxEnvx (v : VoiceIx) (access : RegAccess) (s : State) : Host.Outcome State Fault Refusal :=
  .next (s.accessReg (regAddr v 0x8) access)

/-- VxOUTX (R39): column 0x9 of voice v. -/
def execVxOutx (v : VoiceIx) (access : RegAccess) (s : State) : Host.Outcome State Fault Refusal :=
  .next (s.accessReg (regAddr v 0x9) access)

/-- VxUNUSED_A (R43): column 0xA of voice v. -/
def execVxUnusedA (v : VoiceIx) (access : RegAccess) (s : State) : Host.Outcome State Fault Refusal :=
  .next (s.accessReg (regAddr v 0xA) access)

/-- VxUNUSED_B (R43): column 0xB of voice v. -/
def execVxUnusedB (v : VoiceIx) (access : RegAccess) (s : State) : Host.Outcome State Fault Refusal :=
  .next (s.accessReg (regAddr v 0xB) access)

/-- VxUNUSED_E (R43): column 0xE of voice v. -/
def execVxUnusedE (v : VoiceIx) (access : RegAccess) (s : State) : Host.Outcome State Fault Refusal :=
  .next (s.accessReg (regAddr v 0xE) access)

/-! ### Global registers -/

/-- MVOLL (R40). -/
def execMvoll (access : RegAccess) (s : State) : Host.Outcome State Fault Refusal :=
  .next (s.accessReg 0x0C access)

/-- MVOLR (R40). -/
def execMvolr (access : RegAccess) (s : State) : Host.Outcome State Fault Refusal :=
  .next (s.accessReg 0x1C access)

/-- EVOLL (R40). -/
def execEvoll (access : RegAccess) (s : State) : Host.Outcome State Fault Refusal :=
  .next (s.accessReg 0x2C access)

/-- EVOLR (R40). -/
def execEvolr (access : RegAccess) (s : State) : Host.Outcome State Fault Refusal :=
  .next (s.accessReg 0x3C access)

/-- KON (R40, R235). -/
def execKon (access : RegAccess) (s : State) : Host.Outcome State Fault Refusal :=
  .next (s.accessReg 0x4C access)

/-- KOFF (R40, R236). -/
def execKoff (access : RegAccess) (s : State) : Host.Outcome State Fault Refusal :=
  .next (s.accessReg 0x5C access)

/-- FLG (R40). -/
def execFlg (access : RegAccess) (s : State) : Host.Outcome State Fault Refusal :=
  .next (s.accessReg 0x6C access)

/-- ENDX (R40). -/
def execEndx (access : RegAccess) (s : State) : Host.Outcome State Fault Refusal :=
  .next (s.accessReg 0x7C access)

/-- EFB (R41). -/
def execEfb (access : RegAccess) (s : State) : Host.Outcome State Fault Refusal :=
  .next (s.accessReg 0x0D access)

/-- UNUSED_1D (R41, R43). -/
def execUnused1D (access : RegAccess) (s : State) : Host.Outcome State Fault Refusal :=
  .next (s.accessReg 0x1D access)

/-- PMON (R41). -/
def execPmon (access : RegAccess) (s : State) : Host.Outcome State Fault Refusal :=
  .next (s.accessReg 0x2D access)

/-- NON (R41). -/
def execNon (access : RegAccess) (s : State) : Host.Outcome State Fault Refusal :=
  .next (s.accessReg 0x3D access)

/-- EON (R41). -/
def execEon (access : RegAccess) (s : State) : Host.Outcome State Fault Refusal :=
  .next (s.accessReg 0x4D access)

/-- DIR (R41). -/
def execDir (access : RegAccess) (s : State) : Host.Outcome State Fault Refusal :=
  .next (s.accessReg 0x5D access)

/-- ESA (R41). -/
def execEsa (access : RegAccess) (s : State) : Host.Outcome State Fault Refusal :=
  .next (s.accessReg 0x6D access)

/-- EDL (R41). -/
def execEdl (access : RegAccess) (s : State) : Host.Outcome State Fault Refusal :=
  .next (s.accessReg 0x7D access)

/-- CxFIR (R42): column 0xF, tap x. -/
def execCxFir (tap : Fin 8) (access : RegAccess) (s : State) : Host.Outcome State Fault Refusal :=
  .next (s.accessReg (regAddr tap 0xF) access)

end Sys2Proof.Machine
end

