-- ==== Sys2Proof/Machine/Ring.lean ====
section
/-! DEFINITION. The RingBuffer (`45_ring_buffer.md`): RB.RESET, RB.WRITE, RB.READ, RB.COUNT. -/

namespace Sys2Proof.Machine

/-- `write_sample(left, right)` (R292), the precondition apart. -/
def Ring.push (cap : Nat) (r : Ring) (left right : Sample) : Ring :=
  { r with
    bufL := r.bufL.set r.wr left
    bufR := r.bufR.set r.wr right
    wr := (r.wr + 1) % cap
    count := r.count + 1 }

/-- The `n` samples of one channel from a read cursor on, wrapping at the capacity (R293). -/
def ringSlice (cap : Nat) (buf : List Sample) (rd n : Nat) : List Sample :=
  (List.range n).map (fun k => buf.getD ((rd + k) % cap) 0)

/-- `read(leftOut, rightOut, n)` (R293), the precondition apart: the cursor moves and the count falls;
the stored samples stay. -/
def Ring.drop (cap : Nat) (r : Ring) (n : Nat) : Ring :=
  { r with rd := (r.rd + n) % cap, count := r.count - n }

/-- `reset()` (R291): both buffers, both cursors and the count to zero. -/
def Ring.clear (cap : Nat) (_ : Ring) : Ring := Ring.reset cap

/-- `RB.RESET` (R291). -/
def execRbReset (s : State) : Host.Outcome State Fault Refusal :=
  .next (s.withRing (s.ring.clear s.cfg.rbCapacity))

/-- `RB.WRITE` (R292); a full buffer is refused (R297). -/
def execRbWrite (left right : Sample) (s : State) : Host.Outcome State Fault Refusal :=
  if s.ring.count = s.cfg.rbCapacity then .refused .ringOverflow
  else .next (s.withRing (s.ring.push s.cfg.rbCapacity left right))

/-- `RB.READ` (R293); more than `count` is refused (R297). -/
def execRbRead (n : Nat) (s : State) : Host.Outcome State Fault Refusal :=
  if s.ring.count < n then .refused .ringUnderflow
  else
    .next ((s.withRing (s.ring.drop s.cfg.rbCapacity n)).emit
      (.frames (ringSlice s.cfg.rbCapacity s.ring.bufL s.ring.rd n)
        (ringSlice s.cfg.rbCapacity s.ring.bufR s.ring.rd n)))

/-- `RB.COUNT` (R294). -/
def execRbCount (s : State) : Host.Outcome State Fault Refusal :=
  .next (s.emit (.count s.ring.count))

end Sys2Proof.Machine
end

