-- ==== Sys2Proof/Machine/Values.lean ====
section
/-! DEFINITION. The value rows of the opcode table (formats ADSR1, ADSR2, GAIN, FLG, `30_encoding.md`
R99, R106). A value acts in two ways (log 5): it is the data that DSP.WRITE stores in its register
(R35 to R37, R40), and it is the byte in force when ENV.TICK runs (FLG: DSP.TICK), which is when the
behaviour it selects happens (R163 to R172; R223, R229, R231, R238). The rows of an envelope
register act on the selected voice. -/

namespace Sys2Proof.Machine

/-- `ENV.TICK` on the selected voice's envelope. -/
def State.tickSelEnv (s : State) (counter : Counter) : State :=
  s.withSelEnv (s.selVoice.env.tick s.cfg counter)

/-- A value of the envelope register in column `n` of the selected voice: stored, and at a tick use
obeyed by that tick. -/
def State.useValue (s : State) (n : BitVec 4) (b : Byte) (use : CfgUse) : State :=
  match use with
  | .write => s.writeReg (regAddr s.sel n) b
  | .tick c => (s.writeReg (regAddr s.sel n) b).tickSelEnv c

/-- `ADSR1.ADSR` (R165 to R168, R170 to R172): `1dddaaaa`. -/
def execAdsr1Adsr (dr : BitVec 3) (ar : BitVec 4) (use : CfgUse) (s : State) :
    Host.Outcome State Fault Refusal :=
  .next (s.useValue 0x5 (packAdsr1Adsr dr ar) use)

/-- `ADSR1.GAIN` (R165, R169): `0uuuuuuu`. -/
def execAdsr1Gain (ignored : BitVec 7) (use : CfgUse) (s : State) :
    Host.Outcome State Fault Refusal :=
  .next (s.useValue 0x5 (packAdsr1Gain ignored) use)

/-- `ADSR2` (R36, R168, R170): `lllrrrrr`. -/
def execAdsr2 (sl : BitVec 3) (sr : BitVec 5) (use : CfgUse) (s : State) :
    Host.Outcome State Fault Refusal :=
  .next (s.useValue 0x6 (packAdsr2 sl sr) use)

/-- `GAIN.DIRECT` (R169): `0ggggggg`. -/
def execGainDirect (g : BitVec 7) (use : CfgUse) (s : State) : Host.Outcome State Fault Refusal :=
  .next (s.useValue 0x7 (packGainDirect g) use)

/-- `GAIN.LINDEC` (R169): `100rrrrr`. -/
def execGainLindec (rate : BitVec 5) (use : CfgUse) (s : State) : Host.Outcome State Fault Refusal :=
  .next (s.useValue 0x7 (packGainShape 0 rate) use)

/-- `GAIN.EXPDEC` (R169): `101rrrrr`. -/
def execGainExpdec (rate : BitVec 5) (use : CfgUse) (s : State) : Host.Outcome State Fault Refusal :=
  .next (s.useValue 0x7 (packGainShape 1 rate) use)

/-- `GAIN.LININC` (R169): `110rrrrr`. -/
def execGainLininc (rate : BitVec 5) (use : CfgUse) (s : State) : Host.Outcome State Fault Refusal :=
  .next (s.useValue 0x7 (packGainShape 2 rate) use)

/-- `GAIN.BENTINC` (R169): `111rrrrr`. -/
def execGainBentinc (rate : BitVec 5) (use : CfgUse) (s : State) : Host.Outcome State Fault Refusal :=
  .next (s.useValue 0x7 (packGainShape 3 rate) use)

/-- A FLG value (R106, R223, R229, R231, R238): `rmennnnn`. -/
def execFlgValue (softReset mute echoOff : Bool) (noiseRate : BitVec 5) (use : FlgUse) (s : State) :
    Host.Outcome State Fault Refusal :=
  let t := s.writeReg 0x6C (packFlg softReset mute echoOff noiseRate)
  match use with
  | .write => .next t
  | .tick => .next (t.ticked.emit t.tickFrame)

end Sys2Proof.Machine
end

