-- ==== Sys2Proof/Machine/Dispatch.lean ====
section
/-! DEFINITION. One arm per row of the opcode table: the operation's meaning, called directly. -/

namespace Sys2Proof.Machine

/-- Perform one operation. -/
def exec (i : Instr) (s : State) : Host.Outcome State Fault Refusal :=
  match i with
  -- OP8, the command port (R100, R101)
  | .brrReset s0 s1 => Sys2Proof.Machine.execBrrReset s0 s1 s
  | .brrRead b => Sys2Proof.Machine.execBrrRead b s
  | .brrNext => Sys2Proof.Machine.execBrrNext s
  | .brrFin => Sys2Proof.Machine.execBrrFin s
  | .envTick c => Sys2Proof.Machine.execEnvTick c s
  | .envKon => Sys2Proof.Machine.execEnvKon s
  | .envKoff => Sys2Proof.Machine.execEnvKoff s
  | .voiceRender l w c => Sys2Proof.Machine.execVoiceRender l w c s
  | .voiceKon dir => Sys2Proof.Machine.execVoiceKon dir s
  | .voiceKoff => Sys2Proof.Machine.execVoiceKoff s
  | .dspTick => Sys2Proof.Machine.execDspTick s
  | .dspWrite a b => Sys2Proof.Machine.execDspWrite a b s
  | .dspRead a => Sys2Proof.Machine.execDspRead a s
  | .apuReset => Sys2Proof.Machine.execApuReset s
  | .apuSetState snap => Sys2Proof.Machine.execApuSetState snap s
  | .apuRender n => Sys2Proof.Machine.execApuRender n s
  | .apuReadByte a => Sys2Proof.Machine.execApuReadByte a s
  | .apuWriteByte a b => Sys2Proof.Machine.execApuWriteByte a b s
  | .rbReset => Sys2Proof.Machine.execRbReset s
  | .rbWrite l r => Sys2Proof.Machine.execRbWrite l r s
  | .rbRead n => Sys2Proof.Machine.execRbRead n s
  | .rbCount => Sys2Proof.Machine.execRbCount s
  -- BRRBLK, the operand of BRR.READ, by filter (R94)
  | .brrblkF0 f => Sys2Proof.Machine.execBrrblkF0 f s
  | .brrblkF1 f => Sys2Proof.Machine.execBrrblkF1 f s
  | .brrblkF2 f => Sys2Proof.Machine.execBrrblkF2 f s
  | .brrblkF3 f => Sys2Proof.Machine.execBrrblkF3 f s
  -- DSPREG, per-voice columns (R98)
  | .vxVoll v x => Sys2Proof.Machine.execVxVoll v x s
  | .vxVolr v x => Sys2Proof.Machine.execVxVolr v x s
  | .vxPitchl v x => Sys2Proof.Machine.execVxPitchl v x s
  | .vxPitchh v x => Sys2Proof.Machine.execVxPitchh v x s
  | .vxSrcn v x => Sys2Proof.Machine.execVxSrcn v x s
  | .vxAdsr1 v x => Sys2Proof.Machine.execVxAdsr1 v x s
  | .vxAdsr2 v x => Sys2Proof.Machine.execVxAdsr2 v x s
  | .vxGain v x => Sys2Proof.Machine.execVxGain v x s
  | .vxEnvx v x => Sys2Proof.Machine.execVxEnvx v x s
  | .vxOutx v x => Sys2Proof.Machine.execVxOutx v x s
  | .vxUnusedA v x => Sys2Proof.Machine.execVxUnusedA v x s
  | .vxUnusedB v x => Sys2Proof.Machine.execVxUnusedB v x s
  | .vxUnusedE v x => Sys2Proof.Machine.execVxUnusedE v x s
  -- DSPREG, column 0xC (R40)
  | .mvoll x => Sys2Proof.Machine.execMvoll x s
  | .mvolr x => Sys2Proof.Machine.execMvolr x s
  | .evoll x => Sys2Proof.Machine.execEvoll x s
  | .evolr x => Sys2Proof.Machine.execEvolr x s
  | .kon x => Sys2Proof.Machine.execKon x s
  | .koff x => Sys2Proof.Machine.execKoff x s
  | .flg x => Sys2Proof.Machine.execFlg x s
  | .endx x => Sys2Proof.Machine.execEndx x s
  -- DSPREG, column 0xD (R41)
  | .efb x => Sys2Proof.Machine.execEfb x s
  | .unused1D x => Sys2Proof.Machine.execUnused1D x s
  | .pmon x => Sys2Proof.Machine.execPmon x s
  | .non x => Sys2Proof.Machine.execNon x s
  | .eon x => Sys2Proof.Machine.execEon x s
  | .dir x => Sys2Proof.Machine.execDir x s
  | .esa x => Sys2Proof.Machine.execEsa x s
  | .edl x => Sys2Proof.Machine.execEdl x s
  -- DSPREG, column 0xF (R42)
  | .cxFir t x => Sys2Proof.Machine.execCxFir t x s
  -- register values (R99, R106)
  | .adsr1Adsr dr ar u => Sys2Proof.Machine.execAdsr1Adsr dr ar u s
  | .adsr1Gain g u => Sys2Proof.Machine.execAdsr1Gain g u s
  | .adsr2 sl sr u => Sys2Proof.Machine.execAdsr2 sl sr u s
  | .gainDirect g u => Sys2Proof.Machine.execGainDirect g u s
  | .gainLindec r u => Sys2Proof.Machine.execGainLindec r u s
  | .gainExpdec r u => Sys2Proof.Machine.execGainExpdec r u s
  | .gainLininc r u => Sys2Proof.Machine.execGainLininc r u s
  | .gainBentinc r u => Sys2Proof.Machine.execGainBentinc r u s
  | .flgValue r m e n u => Sys2Proof.Machine.execFlgValue r m e n u s

end Sys2Proof.Machine
end

