-- ==== Sys2Proof/Machine/Step.lean ====
section
/-! DEFINITION. One step: the oldest line the host has issued is taken, decoded and performed
(`44_apu_host.md` R276, `70_reset_and_hazards.md` R339). -/

namespace Sys2Proof.Machine

/-- One step. A line that is no operation is refused by name (R102, R311); with no line issued the
core waits. -/
def step (s : State) : Host.Outcome State Fault Refusal :=
  match s.inbox with
  | [] => s.idle
  | line :: rest =>
    match decode line.port line.bytes with
    | .ok i => exec i (s.takeLine line rest)
    | .error e => .refused (refusalOf e)

/-- The state with a word of the opcode table placed where the next step takes its line. -/
def State.withFetchWord (s : State) (nbits w : Nat) : State := s.placeTableWord nbits w

end Sys2Proof.Machine
end

