-- ==== Sys2Proof/Machine/Pseudo.lean ====
section
/-! DEFINITION. The pseudo-operations of `30_encoding.md` R105, each as the list of operations it
stands for. They have no encoding of their own. -/

namespace Sys2Proof.Machine

/-- `MEM.LOAD addr, [b0 b1 ...]`: one `APU.WRITE_BYTE` per byte, ascending. R105 does not say what
happens when `addr+k` passes 0xFFFF. DESIGN CHOICE (log 20): the address is reduced mod 65536 as R64 reduces
the core's own, so the bytes go on at 0x0000. -/
def memLoad : Addr → List Byte → List Instr
  | _, [] => []
  | a, b :: bs => .apuWriteByte a b :: memLoad (a + 1) bs

/-- `DSP.KON mask`. -/
def dspKon (mask : Byte) : List Instr := [.dspWrite 0x4C mask]

/-- `DSP.KOFF mask`. -/
def dspKoff (mask : Byte) : List Instr := [.dspWrite 0x5C mask]

/-- `VOICE.SET v, n, data`. -/
def voiceSet (v : VoiceIx) (n : BitVec 4) (data : Byte) : List Instr := [.dspWrite (regAddr v n) data]

/-- `APU.RENDER n` as ticks. -/
def renderTicks (n : Nat) : List Instr := List.replicate n .dspTick

/-- `RB.DRAIN`, issued in state `s`: `RB.COUNT -> c; RB.READ c`, where `c` is the count that `RB.COUNT`
returns there (R294). -/
def rbDrain (s : State) : List Instr := [.rbCount, .rbRead s.ring.count]

end Sys2Proof.Machine
end

