-- ==== Sys2Proof/Safety.lean ====
section
/-! DEFINITION. The terms that statements about the machine are written in: runs of operations, what a
step leaves alone, and the invariant of the states a run can reach. -/

namespace Sys2Proof.Machine

/-! ### Runs -/

/-- Perform operations one after another, stopping at the first that has no next state. -/
def execAll : List Instr → State → Host.Outcome State Fault Refusal
  | [], s => .next s
  | i :: is, s =>
    match exec i s with
    | .next t => execAll is t
    | .fault f => .fault f
    | .refused r => .refused r

/-- A run is safe when no operation of it is refused (R311, R339: "A run in which an operation was
refused has no result"). -/
def SafeRun (is : List Instr) (s : State) : Prop := ∃ t, execAll is s = .next t

/-! ### What a step leaves alone -/

/-- Voice `v` of the machine. -/
def State.voice (s : State) (v : VoiceIx) : Voice := s.apu.dsp.voice v

/-- Register `a` of the machine. -/
def State.reg (s : State) (a : RegAddr) : Byte := s.apu.dsp.reg a

/-- Every byte of memory reads as before. -/
def MemoryKept (s t : State) : Prop := ∀ a, readByte s.cfg t.apu.mem a = readByte s.cfg s.apu.mem a

/-- The RingBuffer, the configuration, the unit select and the issued lines are as before. -/
def HostSideKept (s t : State) : Prop :=
  t.ring = s.ring ∧ t.cfg = s.cfg ∧ t.sel = s.sel ∧ t.inbox = s.inbox

/-- Counter, noise register, echo position and echo history are as before. -/
def ClockAndEchoKept (s t : State) : Prop :=
  t.apu.dsp.counter = s.apu.dsp.counter ∧ t.apu.dsp.noise = s.apu.dsp.noise ∧
  t.apu.dsp.echoPos = s.apu.dsp.echoPos ∧ t.apu.dsp.histL = s.apu.dsp.histL ∧
  t.apu.dsp.histR = s.apu.dsp.histR ∧ t.apu.dsp.hpos = s.apu.dsp.hpos

/-- Every register byte is as before. -/
def RegistersKept (s t : State) : Prop := ∀ a, t.reg a = s.reg a

/-- Every voice but `v` is as before. -/
def OtherVoicesKept (v : VoiceIx) (s t : State) : Prop := ∀ w, w ≠ v → t.voice w = s.voice w

/-- Nothing but voice `v` (and what is returned) may have changed. -/
def OnlyVoice (v : VoiceIx) (s t : State) : Prop :=
  MemoryKept s t ∧ HostSideKept s t ∧ ClockAndEchoKept s t ∧ RegistersKept s t ∧ OtherVoicesKept v s t

/-- Of voice `v`, everything outside its decoder is as before. -/
def OutsideDecoderKept (v : VoiceIx) (s t : State) : Prop :=
  { t.voice v with dec := (s.voice v).dec } = s.voice v

/-- Of voice `v`, everything outside its envelope is as before. -/
def OutsideEnvelopeKept (v : VoiceIx) (s t : State) : Prop :=
  { t.voice v with env := (s.voice v).env } = s.voice v

/-- Nothing was returned. -/
def ReturnsNothing (s t : State) : Prop := t.outbox = s.outbox

/-- Exactly the result `r` was returned. -/
def Returns (r : Result) (s t : State) : Prop := t.outbox = s.outbox ++ [r]

/-! ### What a block decodes to (R132) -/

/-- The nibble of sample `i`, scaled as R133 says for shift 0 to 12 and R134 for 13 to 15, or as the machine is
configured instead (D7, D8, U5). -/
def scaledNibble (cfg : Config) (f : BlockFields) (i : Fin 16) : Int :=
  let n := f.nibbles[i.val]
  configured cfg.scaling (f.shift, n)
    (if f.shift.toNat ≤ 12 then n.toInt * ((2 ^ f.shift.toNat : Nat) : Int) / 2
     else if n.toInt < 0 then -2048 else 0)

/-- What the terms of a predictor add up to (D9), for the newest output `p1` and the halved older one `p2`. -/
def predictorSum (terms : List PredictTerm) (p1 p2 : Int) : Int :=
  terms.foldr (fun t sum => t.factor * (if t.older then p2 else p1) / ((2 ^ t.shift : Nat) : Int) + sum) 0

/-- The outputs in time order, the two of the history first: `h2, h1, buf[0], buf[1], ...`. -/
def outputsInTime (before after : Decoder) : List Sample :=
  before.h2 :: before.h1 :: after.buf.toList

/-- The effect of reading a block with fields `f` under a predictor (R132): each output (R139, or as
configured, D10) from its scaled nibble and the two outputs before it, the older one halved; the history of the last
two outputs; nothing popped; the header's flags; nothing else changed. -/
def BlockDecoded (predictor : Int → Int → Int) (f : BlockFields) (s t : State) : Prop :=
  let d := (s.voice s.sel).dec
  let e := (t.voice s.sel).dec
  let x := outputsInTime d e
  (∀ i : Fin 16, x.getD (i.val + 2) 0 =
    let v := scaledNibble s.cfg f i + predictor (x.getD (i.val + 1) 0).toInt ((x.getD i.val 0).toInt / 2)
    configured s.cfg.output v (wrap16 (clamp16 v * 2))) ∧
  e.h1 = e.buf[15] ∧ e.h2 = e.buf[14] ∧ e.idx = 0 ∧
  e.endFlag = f.endFlag ∧ e.loopFlag = f.loopFlag ∧
  OutsideDecoderKept s.sel s t ∧ OnlyVoice s.sel s t ∧ ReturnsNothing s t

/-! ### Ticks of one envelope (R163) -/

/-- `ENV.TICK` left the selected envelope in `mode` with the level `level`, its three registers and
everything outside it as before. -/
def EnvTicked (mode : EnvMode) (level : Int) (s t : State) : Prop :=
  (t.voice s.sel).env.mode = mode ∧ ((t.voice s.sel).env.level.toNat : Int) = level ∧
  (t.voice s.sel).env.adsr1 = (s.voice s.sel).env.adsr1 ∧
  (t.voice s.sel).env.adsr2 = (s.voice s.sel).env.adsr2 ∧
  (t.voice s.sel).env.gain = (s.voice s.sel).env.gain ∧
  OutsideEnvelopeKept s.sel s t ∧ OnlyVoice s.sel s t ∧ ReturnsNothing s t

/-! ### The position of a voice (R192, R196, R197) -/

/-- The pitch a render moves the position by (R192, its formulas as configured, D20), `last` being its
operand. -/
def renderPitch (cfg : Config) (v : Voice) (last : Sample) : Int :=
  let p : Int := configured cfg.pitch (v.pitchh, v.pitchl) (v.pitchh.toNat % 64 * 256 + v.pitchl.toNat : Nat)
  let q : Int := if v.pmon then configured cfg.modulation (last.toInt, p) (p + last.toInt / 32 * p / 1024) else p
  if q < 0 then 0 else if 0x3FFF < q then 0x3FFF else q

/-- How many whole steps a render passes, each taking one more decoded sample (R196). -/
def wholeSteps (cfg : Config) (v : Voice) (last : Sample) : Nat :=
  (v.pos.toNat + (renderPitch cfg v last).toNat) / 4096

/-- The samples a voice plays from, in order: `cur`, `nxt`, and the outputs not yet popped (R197). -/
def samplesAhead (v : Voice) : List Sample := v.cur :: v.nxt :: v.dec.buf.toList.drop v.dec.idx.val

/-! ### Register writes (R233) -/

/-- Register `a` holds `b` and every other register, memory, the clock, the echo bookkeeping and the
host's side are as before; nothing was returned. Voices are not spoken of. -/
def RegisterWritten (a : RegAddr) (b : Byte) (s t : State) : Prop :=
  t.reg a = b ∧ (∀ c, c ≠ a → t.reg c = s.reg c) ∧
  MemoryKept s t ∧ HostSideKept s t ∧ ClockAndEchoKept s t ∧ ReturnsNothing s t

/-- Every voice is as before. -/
def VoicesKept (s t : State) : Prop := ∀ v, t.voice v = s.voice v

/-- Nothing but what is returned has changed. -/
def OnlyReturns (r : Result) (s t : State) : Prop :=
  t.apu = s.apu ∧ HostSideKept s t ∧ Returns r s t

/-! ### The voices of a tick, one VOICE.RENDER at a time (R224) -/

/-- Perform `VOICE.RENDER` on the voices of a list in order, each given the raw output the one before it
has just returned; a set soft-reset bit forces (Release, 0) before each. -/
def renderChain (noise : BitVec 16) (counter : Counter) : List VoiceIx → Sample → State → Option State
  | [], _, s => some s
  | v :: vs, last, s =>
    let u : State := { s with sel := v }
    let u := if (s.reg 0x6C).getLsbD s.cfg.flg.resetAt
      then u.withSelEnv { u.selVoice.env with mode := .release, level := 0 } else u
    match exec (.voiceRender last noise counter) u with
    | .next t =>
      match t.outbox.getLast? with
      | some (.voice _ _ raw) => renderChain noise counter vs raw t
      | _ => none
    | _ => none

/-! ### The RingBuffer as a queue (R296) -/

/-- The pairs written and not yet read, oldest first. -/
def Ring.contents (cap : Nat) (r : Ring) : List (Sample × Sample) :=
  (List.range r.count).map
    (fun k => (r.bufL.getD ((r.rd + k) % cap) 0, r.bufR.getD ((r.rd + k) % cap) 0))

/-! ### Where the formulas are the spec's (log 10) -/

/-- The formulas of a tick outside Release are those of R165 to R172 (but for the alternatives of R165 and R170). -/
def specTick (cfg : Config) : Prop :=
  (cfg.governs = [] ∧ cfg.threshold = []) ∧
  cfg.attack = [] ∧ cfg.decay = [] ∧ cfg.sustain = [] ∧ cfg.gain = [] ∧ cfg.levelClamp = [] ∧ cfg.commit = []

/-- The formulas of a voice's outputs are those of R194 and R199. -/
def specOutputs (cfg : Config) : Prop := cfg.envScale = [] ∧ cfg.volume = []

/-! ### The invariant -/

/-- A decoded value: bit 0 is 0 (R145). -/
def evenSample (x : Sample) : Bool := !x.getLsbD 0

/-- A noise register value of R223: bit 15 is 0, and the register is not. -/
def liveNoise (x : BitVec 16) : Bool := !x.getLsbD 15 && x != 0

/-- The configured output function gives even values (R145), as R139's does. -/
def evenOutputs (cfg : Config) : Bool := cfg.output.all fun e => evenSample e.2

/-- The configured noise generator stays within 15 bits and never stops, as R223's does. -/
def noiseLives (cfg : Config) : Bool :=
  liveNoise cfg.noiseReset && cfg.noiseNext.all fun e => liveNoise e.2

/-- A raw output of R194: even, and within -32752..32750. -/
def rawInRange (x : Sample) : Bool := evenSample x && decide (-32752 ≤ x.toInt ∧ x.toInt ≤ 32750)

/-- A position of R230: a multiple of 4 within the longest delay line. -/
def echoOffset (x : BitVec 16) : Bool := decide (x.toNat ≤ 0x77FC ∧ x.toNat % 4 = 0)

/-- A halved echo input: -16384 to 16383 (R24). -/
def halved (x : Sample) : Bool := decide (-16384 ≤ x.toInt ∧ x.toInt ≤ 16383)

/-- The configured raw outputs are in R194's range, as its formula's are. -/
def rawOutputsInRange (cfg : Config) : Bool := cfg.envScale.all fun e => rawInRange e.2

/-- The configured counter stays in its range, as R222's does. -/
def counterStays (cfg : Config) : Bool := cfg.counterNext.all fun e => decide (e.2.toNat ≤ cfg.counterTop.toNat)

/-- The configured echo position stays in the delay line, as R230's does. -/
def echoStays (cfg : Config) : Bool := cfg.echoNext.all fun e => echoOffset e.2

/-- The configured history entries are in R24's range, as R227's are. -/
def inputsHalved (cfg : Config) : Bool := cfg.echoInput.all fun e => halved e.2

/-- The buffered outputs, `cur` and `nxt` of a voice are decoded values (R145). -/
def Voice.evenSamples (v : Voice) : Prop :=
  (∀ i : Fin 16, evenSample (v.dec.buf[i.val]) = true) ∧ evenSample v.cur = true ∧ evenSample v.nxt = true

/-- What is true of a voice in every state a run can reach: its samples are even, wherever the outputs are
(R145); the raw output is even and within -32752..32750, wherever the configured formula keeps it there (R194). -/
def Voice.ok (cfg : Config) (v : Voice) : Prop :=
  (evenOutputs cfg = true → v.evenSamples) ∧ (rawOutputsInRange cfg = true → rawInRange v.rawOut = true)

/-- The mirrors of voice `i` equal the register bytes they mirror (R23, R331). -/
def Voice.mirrors (d : Dsp) (i : VoiceIx) (v : Voice) : Prop :=
  v.voll = d.reg (regAddr i 0x0) ∧ v.volr = d.reg (regAddr i 0x1) ∧
  v.pitchl = d.reg (regAddr i 0x2) ∧ v.pitchh = d.reg (regAddr i 0x3) ∧
  v.srcn = d.reg (regAddr i 0x4) ∧ v.env.adsr1 = d.reg (regAddr i 0x5) ∧
  v.env.adsr2 = d.reg (regAddr i 0x6) ∧ v.env.gain = d.reg (regAddr i 0x7) ∧
  v.pmon = maskBit (d.reg 0x2D) i ∧ v.non = maskBit (d.reg 0x3D) i ∧ v.eon = maskBit (d.reg 0x4D) i

/-- The ranges that R24 gives the Dsp's global state, the counter's range as configured (D14), each wherever the
configured formula keeps it. The noise register is never 0 (R223). -/
def Dsp.ok (cfg : Config) (d : Dsp) : Prop :=
  (counterStays cfg = true → d.counter.toNat ≤ cfg.counterTop.toNat) ∧
  (noiseLives cfg = true → liveNoise d.noise = true) ∧
  (echoStays cfg = true → echoOffset d.echoPos = true) ∧
  (inputsHalved cfg = true → ∀ i : Fin 8, halved (d.histL[i.val]) = true ∧ halved (d.histR[i.val]) = true) ∧
  (∀ i, (d.voice i).ok cfg) ∧ (∀ i, (d.voice i).mirrors d i)

/-- The RingBuffer's invariant (R295), and its arrays' size (R26). -/
def Ring.ok (cap : Nat) (r : Ring) : Prop :=
  r.bufL.length = cap ∧ r.bufR.length = cap ∧
  r.count ≤ cap ∧ r.wr < cap ∧ r.rd < cap ∧ r.wr = (r.rd + r.count) % cap

/-- The invariant of the machine. -/
def State.Inv (s : State) : Prop :=
  Memory.wf s.apu.mem = true ∧ s.apu.dsp.ok s.cfg ∧ s.ring.ok s.cfg.rbCapacity

end Sys2Proof.Machine
end

