-- ==== Sys2Proof/Certificates/Slice0/Obligations.lean ====
section
/-! DEFINITION. The statements for the provers, from the numbered rules of the spec. -/

open Sys2Proof Sys2Proof.Machine

/-! ## Numbers and reset -/

/-- R9: the integer primitives. `v >> n` is floor(v / 2^n); `wrap16` keeps v mod 2^16 and is in the
signed 16-bit range; `clamp16` saturates; `even` clears bit 0. -/
def Obligations.IntegerPrimitivesMeetTheirDefinitions : Prop :=
  (∀ (v : Int) (n : Nat), asr v n * 2 ^ n ≤ v ∧ v < (asr v n + 1) * 2 ^ n) ∧
  (∀ v : Int, -32768 ≤ (wrap16 v).toInt ∧ (wrap16 v).toInt ≤ 32767 ∧
    ((wrap16 v).toInt - v) % 65536 = 0) ∧
  (∀ v : Int, (v < -32768 → clamp16 v = -32768) ∧ (32767 < v → clamp16 v = 32767) ∧
    (-32768 ≤ v → v ≤ 32767 → clamp16 v = v)) ∧
  (∀ v : Int, (v % 2 = 0 → even v = v) ∧ (v % 2 = 1 → even v = v - 1))

/-- R331: the values reset leaves, item by item, in a machine configured as the spec's defaults say (the
configuration record is the model's own, log 10). What memory reads as and the RingBuffer's capacity are the
model's choices (log 8, 9) and are not spoken of. -/
def Obligations.ResetLeavesTheListedValues : Prop :=
  (∀ v, (State.reset.voice v).env.mode = .release ∧ (State.reset.voice v).env.level = 0 ∧
    (State.reset.voice v).dec.idx = 16 ∧ (State.reset.voice v).dec.h1 = 0 ∧
    (State.reset.voice v).dec.h2 = 0 ∧ (∀ i : Fin 16, (State.reset.voice v).dec.buf[i.val] = 0) ∧
    (State.reset.voice v).dec.endFlag = false ∧ (State.reset.voice v).dec.loopFlag = false ∧
    (State.reset.voice v).sampleAddress = 0 ∧ (State.reset.voice v).startAddress = 0 ∧
    (State.reset.voice v).loopStart = 0 ∧ (State.reset.voice v).pos = 0 ∧
    (State.reset.voice v).cur = 0 ∧ (State.reset.voice v).nxt = 0 ∧
    (State.reset.voice v).rawOut = 0 ∧ (State.reset.voice v).mirrors State.reset.apu.dsp v) ∧
  State.reset.reg 0x6C = 0xE0 ∧ (∀ a, a ≠ 0x6C → State.reset.reg a = 0) ∧
  State.reset.apu.dsp.counter = 0 ∧ State.reset.apu.dsp.noise = 0x4000 ∧
  State.reset.apu.dsp.echoPos = 0 ∧ State.reset.apu.dsp.hpos = 0 ∧
  (∀ i : Fin 8, State.reset.apu.dsp.histL[i.val] = 0 ∧ State.reset.apu.dsp.histR[i.val] = 0) ∧
  (∀ x ∈ State.reset.ring.bufL, x = 0) ∧ (∀ x ∈ State.reset.ring.bufR, x = 0) ∧
  State.reset.ring.wr = 0 ∧ State.reset.ring.rd = 0 ∧ State.reset.ring.count = 0 ∧
  let cfg := State.reset.cfg
  (cfg.mixOrder = .sourceOrder ∧ cfg.gainExitMode = .attack ∧ cfg.sustainCompare = .le ∧
    cfg.header = ⟨4, 2, 1, 0⟩ ∧ cfg.nibbleOrder = .highFirst ∧ cfg.echoFilter = .eightTap ∧
    cfg.counterTop = 30719 ∧ cfg.noiseReset = 0x4000) ∧
  (cfg.memTop = 0xFFFF ∧ cfg.flg = ⟨7, 6, 5, 0⟩ ∧ cfg.flgReset = 0xE0) ∧
  (cfg.scaling = [] ∧ cfg.predictions = [] ∧ cfg.output = []) ∧
  (cfg.gate = [] ∧ cfg.release = [] ∧ specTick cfg) ∧
  (cfg.directory = [] ∧ cfg.pitch = [] ∧ cfg.modulation = [] ∧ cfg.interpolation = [] ∧ cfg.noiseSample = [] ∧
    specOutputs cfg) ∧
  (cfg.counterNext = [] ∧ cfg.noiseNext = [] ∧ cfg.accumulate = [] ∧ cfg.echoAddress = [] ∧ cfg.echoInput = [] ∧
    cfg.fir = [] ∧ cfg.feedback = [] ∧ cfg.echoNext = [] ∧ cfg.envx = [] ∧ cfg.outx = [])

/-- The invariant holds right after reset. -/
def Obligations.ResetMeetsTheInvariant : Prop := State.reset.Inv

/-- Every step keeps the invariant: memory canonical; counter, noise, echo position and history in R24's ranges,
decoded samples even (R145) and raw outputs in R194's range, each wherever the configured formula keeps it there, as
the spec's does (log 10); register mirrors equal to the register bytes (R331); the RingBuffer's invariant (R295). -/
def Obligations.EveryStepKeepsTheInvariant : Prop :=
  ∀ s t : State, s.Inv → step s = .next t → t.Inv

/-! ## Encoding and stepping -/

/-- Decoding the encoding of a well-formed operation gives the operation back, every operand at every
value. -/
def Obligations.DecodeOfEncodeIsIdentity : Prop :=
  ∀ i : Instr, i.wellFormed = true → decode (encode i).1 (encode i).2 = .ok i

/-- Every line that decodes is the encoding of what it decodes to: no byte of a line is ignored. That a line with
bytes left over does not decode is the model's choice (DESIGN CHOICE, log 14): no rule speaks of such a line. -/
def Obligations.EncodeOfDecodeIsIdentity : Prop :=
  ∀ (p : Port) (bs : List Byte) (i : Instr), decode p bs = .ok i → encode i = (p, bs)

/-- R102, R100: the 22 listed codes are the whole set of OP8, and any other code is refused by name. -/
def Obligations.OnlyListedCodesAreOperations : Prop :=
  ∀ (code : Byte) (operands : List Byte),
    decode .op8 (code :: operands) = .error (.unknownOp code) ↔
      code.toNat ∉ [0x00, 0x01, 0x02, 0x03, 0x10, 0x11, 0x12, 0x20, 0x21, 0x22, 0x30, 0x31, 0x32,
        0x40, 0x41, 0x42, 0x43, 0x44, 0x50, 0x51, 0x52, 0x53]

/-- Words written out from the spec's encodings (R91, R98, R99, R100, R104, R106) decode to the
operations they stand for. -/
def Obligations.WrittenOutWordsDecode : Prop :=
  decode .op8 [0x31, 0x4C, 0x01] = .ok (.dspWrite 0x4C 0x01) ∧
  decode .op8 [0x44, 0x00, 0x03, 0xA3] = .ok (.apuWriteByte 0x0300 0xA3) ∧
  decode .op8 [0x42, 0x20, 0x00] = .ok (.apuRender 32) ∧
  decode .op8 [0x10, 0xFF, 0x77] = .ok (.envTick 30719) ∧
  decode .dspregWrite [0x6C, 0x20] = .ok (.flg (.write 0x20)) ∧
  decode .dspregRead [0x58] = .ok (.vxEnvx 5 .read) ∧
  decode .dspregWrite [0x7F, 0x7F] = .ok (.cxFir 7 (.write 0x7F)) ∧
  decode (.cfgWrite .gain) [0x9F] = .ok (.gainLindec 31 .write) ∧
  decode (.cfgWrite .adsr1) [0x8E] = .ok (.adsr1Adsr 0 14 .write) ∧
  decode (.cfgWrite .adsr2) [0xBF] = .ok (.adsr2 5 31 .write) ∧
  decode (.cfgWrite .flg) [0x3F] = .ok (.flgValue false false true 31 .write) ∧
  decode .brrblk [0x5C, 0x8F, 0x70, 0, 0, 0, 0, 0, 0x01] =
    .ok (.brrblkF3 { shift := 5, loopFlag := false, endFlag := false
                     nibbles := #v[8, 15, 7, 0, 0, 0, 0, 0, 0, 0, 0, 0, 0, 0, 0, 1] })

/-- R276: a step takes the oldest line, drives its voice select, and performs the operation it decodes
to (the list of lines and the select are the model's own, log 1, 4). R102, R311: a line that is no operation is
refused by name. With no line issued the core waits, the state as it is (R339; the model's own reading, log 2). -/
def Obligations.StepPerformsTheHeadLine : Prop :=
  (∀ (s : State) (line : Line) (rest : List Line) (i : Instr),
    s.inbox = line :: rest → decode line.port line.bytes = .ok i →
    step s = exec i { s with inbox := rest, sel := line.voice }) ∧
  ((∀ (s : State) (line : Line) (rest : List Line) (code : Byte), s.inbox = line :: rest →
    decode line.port line.bytes = .error (.unknownOp code) → step s = .refused (.unknownOp code)) ∧
  (∀ (s : State) (line : Line) (rest : List Line), s.inbox = line :: rest →
    decode line.port line.bytes = .error .badOperand → step s = .refused .badOperand) ∧
  (∀ s : State, s.inbox = [] → step s = .next s))

/-! ## Whole-machine rules -/

/-- R310, R311: a well-formed operation is refused only by the three contract violations, exactly when
their conditions hold, and in every other case it has a next state. -/
def Obligations.OnlyContractViolationsAreRefused : Prop :=
  ∀ (i : Instr) (s : State), i.wellFormed = true →
    (i = .brrNext ∧ (s.voice s.sel).dec.idx = 16 ∧ exec i s = .refused .decoderExhausted) ∨
    (∃ l r, i = .rbWrite l r ∧ s.ring.count = s.cfg.rbCapacity ∧ exec i s = .refused .ringOverflow) ∨
    (∃ n, i = .rbRead n ∧ s.ring.count < n ∧ exec i s = .refused .ringUnderflow) ∨
    (¬ (i = .brrNext ∧ (s.voice s.sel).dec.idx = 16) ∧
      ¬ (∃ l r, i = .rbWrite l r ∧ s.ring.count = s.cfg.rbCapacity) ∧
      ¬ (∃ n, i = .rbRead n ∧ s.ring.count < n) ∧ ∃ t, exec i s = .next t)

/-- R65, R229: only DSP.TICK (also inside APU.RENDER and the FLG value in force at a tick),
APU.SET_STATE and APU.WRITE_BYTE store to memory. -/
def Obligations.OnlyTheListedOperationsStore : Prop :=
  ∀ (i : Instr) (s t : State), exec i s = .next t →
    i ≠ .dspTick → (∀ n, i ≠ .apuRender n) → (∀ x, i ≠ .apuSetState x) →
    (∀ a b, i ≠ .apuWriteByte a b) → (∀ r m e n, i ≠ .flgValue r m e n .tick) → MemoryKept s t

/-- R27, R233: the register block is written only by DSP.WRITE (as the operation, or as a register row
or value row that performs it) and by APU.RESET and APU.SET_STATE. -/
def Obligations.OnlyRegisterWritesChangeRegisters : Prop :=
  ∀ (i : Instr) (s t : State), exec i s = .next t →
    (∀ a b, i ≠ .dspWrite a b) → (∀ a b, i ≠ decodeReg a (.write b)) →
    (∀ b u, i ≠ decodeAdsr1 b u) → (∀ b u, i ≠ decodeAdsr2 b u) → (∀ b u, i ≠ decodeGain b u) →
    (∀ b u, i ≠ decodeFlg b u) → i ≠ .apuReset → (∀ x, i ≠ .apuSetState x) → RegistersKept s t

/-- R290: the RingBuffer "shares no state with the Apu". An operation changes at most one of the two. The clause
that none changes the configuration, the unit select or the issued lines is the model's choice, on its own fields
(DESIGN CHOICE, log 10, 4 and 1). -/
def Obligations.RingAndApuShareNothing : Prop :=
  ∀ (i : Instr) (s t : State), exec i s = .next t →
    (t.ring = s.ring ∨ t.apu = s.apu) ∧ t.cfg = s.cfg ∧ t.sel = s.sel ∧ t.inbox = s.inbox ∧
    (i ≠ .rbReset → (∀ l r, i ≠ .rbWrite l r) → (∀ n, i ≠ .rbRead n) → t.ring = s.ring)

/-! ## BRR block decoder -/

/-- R131: BRR.RESET seeds the history, `sample0` the newest, and changes nothing else. -/
def Obligations.BrrResetSeedsTheHistory : Prop :=
  ∀ (s : State) (a b : Sample), ∃ t, exec (.brrReset a b) s = .next t ∧
    (t.voice s.sel).dec.h1 = a ∧ (t.voice s.sel).dec.h2 = b ∧
    (t.voice s.sel).dec.buf = (s.voice s.sel).dec.buf ∧
    (t.voice s.sel).dec.idx = (s.voice s.sel).dec.idx ∧
    (t.voice s.sel).dec.endFlag = (s.voice s.sel).dec.endFlag ∧
    (t.voice s.sel).dec.loopFlag = (s.voice s.sel).dec.loopFlag ∧
    OutsideDecoderKept s.sel s t ∧ OnlyVoice s.sel s t ∧ ReturnsNothing s t

/-- R132, R133 to R139: each block row decodes its sixteen nibbles by the scaling, its own predictor, the clamp
and the wrap. A predictor is the sum of its configured terms but for the exceptions listed (D9); with the spec's
terms, those of reset, and no exception it is the formula of R135 to R138. The scaling (R133, R134, U5) and the
output function (R139, U6) are the spec's formulas or what the machine is configured to instead. The terms and the
lists of exceptions are the model's form of a configured function (DESIGN CHOICE, log 10). -/
def Obligations.BlockRowsDecode : Prop :=
  ∀ (s : State) (f : BlockFields),
    let sum (k : Fin 4) (p1 p2 : Int) : Int := configured s.cfg.predictions (BitVec.ofNat 2 k.val, p1, p2)
      (predictorSum s.cfg.predictors[k.val] p1 p2)
    (∃ t, exec (.brrblkF0 f) s = .next t ∧ BlockDecoded (sum 0) f s t) ∧
    (∃ t, exec (.brrblkF1 f) s = .next t ∧ BlockDecoded (sum 1) f s t) ∧
    (∃ t, exec (.brrblkF2 f) s = .next t ∧ BlockDecoded (sum 2) f s t) ∧
    (∃ t, exec (.brrblkF3 f) s = .next t ∧ BlockDecoded (sum 3) f s t) ∧
    (s.cfg.predictors = State.reset.cfg.predictors → s.cfg.predictions = [] → ∀ p1 p2 : Int,
      sum 0 p1 p2 = 0 ∧ sum 1 p1 p2 = p1 / 2 + -p1 / 32 ∧
      sum 2 p1 p2 = p1 - p2 + p2 / 16 + p1 * -3 / 64 ∧
      sum 3 p1 p2 = p1 - p2 + p1 * -13 / 128 + p2 * 3 / 16)

/-- R92, R93, R94: BRR.READ takes shift, filter, loop and end from the header's bits and the nibbles from the data
bytes, at the places of R91 or as configured (D5, D6), and completes as the row its filter selects. -/
def Obligations.BrrReadIsTheRowItsHeaderSelects : Prop :=
  ∀ (s : State) (b : Block), ∃ (f : BlockFields) (t : State),
    let field (lo width : Nat) := b[0].toNat / 2 ^ lo % 2 ^ width
    let h := s.cfg.header
    f.shift.toNat = field h.shiftAt 4 ∧ f.loopFlag = decide (field h.loopAt 1 = 1) ∧
    f.endFlag = decide (field h.endAt 1 = 1) ∧
    (∀ i : Fin 16, (f.nibbles[i.val]).toNat =
      if (i.val % 2 = 0 ↔ s.cfg.nibbleOrder = .highFirst) then (b[1 + i.val / 2]'(by omega)).toNat / 16
      else (b[1 + i.val / 2]'(by omega)).toNat % 16) ∧
    exec (.brrRead b) s = .next t ∧
    (field h.filterAt 2 = 0 → exec (.brrblkF0 f) s = .next t) ∧
    (field h.filterAt 2 = 1 → exec (.brrblkF1 f) s = .next t) ∧
    (field h.filterAt 2 = 2 → exec (.brrblkF2 f) s = .next t) ∧
    (field h.filterAt 2 = 3 → exec (.brrblkF3 f) s = .next t)

/-- R143: the sixteen outputs, the new history and the flags depend on the block and on the history
before the read, and on nothing else of a machine with one configuration. -/
def Obligations.BlockDecodingIsPure : Prop :=
  ∀ (s s' t t' : State) (b : Block), s'.cfg = s.cfg →
    exec (.brrRead b) s = .next t → exec (.brrRead b) s' = .next t' →
    (s.voice s.sel).dec.h1 = (s'.voice s'.sel).dec.h1 →
    (s.voice s.sel).dec.h2 = (s'.voice s'.sel).dec.h2 →
    (t.voice s.sel).dec = (t'.voice s'.sel).dec

/-- R145: after any BRR.READ every buffered output and both history values are even (whenever the configured output
function gives even values, as R139's does); with filter 0, whose predictor has no term and no exception, the
outputs do not depend on the history at all. -/
def Obligations.DecodedOutputsAreEven : Prop :=
  (∀ (s t : State) (b : Block), evenOutputs s.cfg = true → exec (.brrRead b) s = .next t →
    (∀ i : Fin 16, ((t.voice s.sel).dec.buf[i.val]).toInt % 2 = 0) ∧
    (t.voice s.sel).dec.h1.toInt % 2 = 0 ∧ (t.voice s.sel).dec.h2.toInt % 2 = 0) ∧
  (∀ (s s' t t' : State) (b : Block), s'.cfg = s.cfg → s.cfg.predictors[0] = [] → s.cfg.predictions = [] →
    b[0].toNat / 2 ^ s.cfg.header.filterAt % 4 = 0 →
    exec (.brrRead b) s = .next t → exec (.brrRead b) s' = .next t' →
    (t.voice s.sel).dec.buf = (t'.voice s'.sel).dec.buf)

/-- R133, R134, R139 (the vectors V40.1, V40.2): with filter 0 a nibble n comes out as n * 2^shift for
shift 1 to 12, as n with its low bit cleared for shift 0, and as -4096 or 0 by its sign for shift 13 to 15, in a
machine whose formulas here are the spec's. -/
def Obligations.FilterZeroOutputsByShift : Prop :=
  ∀ (s : State) (f : BlockFields), s.cfg.scaling = [] → s.cfg.predictors[0] = [] → s.cfg.predictions = [] →
    s.cfg.output = [] → ∃ t, exec (.brrblkF0 f) s = .next t ∧ ∀ i : Fin 16,
    let n := (f.nibbles[i.val]).toInt
    let out := ((t.voice s.sel).dec.buf[i.val]).toInt
    (f.shift.toNat = 0 → out = n / 2 * 2) ∧
    (1 ≤ f.shift.toNat → f.shift.toNat ≤ 12 → out = n * ((2 ^ f.shift.toNat : Nat) : Int)) ∧
    (13 ≤ f.shift.toNat → out = if n < 0 then -4096 else 0)

/-- R140: BRR.NEXT returns the next buffered output and counts it; an exhausted decoder is refused. R141:
BRR.FIN returns whether all sixteen outputs have been popped, and writes nothing. -/
def Obligations.BrrNextPopsAndBrrFinReports : Prop :=
  ((∀ (s : State) (h : (s.voice s.sel).dec.idx.val < 16), ∃ t, exec .brrNext s = .next t ∧
    Returns (.sample ((s.voice s.sel).dec.buf[(s.voice s.sel).dec.idx.val])) s t ∧
    (t.voice s.sel).dec.idx.val = (s.voice s.sel).dec.idx.val + 1 ∧
    (t.voice s.sel).dec.buf = (s.voice s.sel).dec.buf ∧
    (t.voice s.sel).dec.h1 = (s.voice s.sel).dec.h1 ∧ (t.voice s.sel).dec.h2 = (s.voice s.sel).dec.h2 ∧
    (t.voice s.sel).dec.endFlag = (s.voice s.sel).dec.endFlag ∧
    (t.voice s.sel).dec.loopFlag = (s.voice s.sel).dec.loopFlag ∧
    OutsideDecoderKept s.sel s t ∧ OnlyVoice s.sel s t) ∧
  (∀ s : State, (s.voice s.sel).dec.idx = 16 → exec .brrNext s = .refused .decoderExhausted)) ∧
  (∀ s : State, ∃ t, exec .brrFin s = .next t ∧
    OnlyReturns (.finished (decide ((s.voice s.sel).dec.idx.val = 16))) s t)

/-! ## Envelope -/

/-- R161: ENV.KON enters Attack at level 0 from any mode. R162: ENV.KOFF enters Release from any mode with the
level kept, and a second one changes nothing. R201: VOICE.KOFF does that to the voice's envelope and nothing
else. -/
def Obligations.KeyEventsOfAnEnvelope : Prop :=
  (∀ s : State, ∃ t, exec .envKon s = .next t ∧ EnvTicked .attack 0 s t) ∧
  (∀ s : State, ∃ t, exec .envKoff s = .next t ∧
    EnvTicked .release (s.voice s.sel).env.level.toNat s t ∧ exec .envKoff t = .next t) ∧
  (∀ s : State, ∃ t, exec .voiceKoff s = .next t ∧
    EnvTicked .release (s.voice s.sel).env.level.toNat s t)

/-- R164: in Release every tick takes 8 off the level, to 0 and no further, whatever the counter and the
registers; from level L it is at 0 after ceil(L / 8) ticks (at most 256), and stays there. The machine's formula for
Release is taken to be the spec's. -/
def Obligations.ReleaseFallsToZero : Prop :=
  (∀ (s : State) (c : Counter), s.cfg.release = [] → (s.voice s.sel).env.mode = .release → ∃ t,
    exec (.envTick c) s = .next t ∧
    EnvTicked .release (if (s.voice s.sel).env.level.toNat ≤ 8 then 0
      else ((s.voice s.sel).env.level.toNat : Int) - 8) s t) ∧
  (∀ (s : State) (cs : List Counter), s.cfg.release = [] → (s.voice s.sel).env.mode = .release →
    ((s.voice s.sel).env.level.toNat + 7) / 8 ≤ cs.length → ∃ t,
    execAll (cs.map Instr.envTick) s = .next t ∧
    (t.voice s.sel).env.level = 0 ∧ (t.voice s.sel).env.mode = .release)

/-- R166, R167, R168, R170, R171, R172: a tick in Attack, Decay or Sustain with ADSR1 bit 7 set. The Decay
threshold is tested on the candidate level by the configured comparison (R170's is `<=`; U8's alternative is
`=`), and the rate of that tick is the decay rate. The other formulas of the machine's ticks are taken to be the
spec's. -/
def Obligations.AdsrTicks : Prop :=
  (∀ (s : State) (c : Counter), specTick s.cfg → (s.voice s.sel).env.mode = .attack →
    (s.voice s.sel).env.adsr1.toNat / 128 = 1 →
    let level : Int := (s.voice s.sel).env.level.toNat
    let rate := (s.voice s.sel).env.adsr1.toNat % 16 * 2 + 1
    let env := level + (if rate < 31 then 32 else 1024)
    ∃ t, exec (.envTick c) s = .next t ∧
      EnvTicked (if 2047 < env then .decay else .attack)
        (if fires s.cfg rate c.toNat then (if 2047 < env then 2047 else env) else level) s t) ∧
  (∀ (s : State) (c : Counter), specTick s.cfg → (s.voice s.sel).env.mode = .decay →
    (s.voice s.sel).env.adsr1.toNat / 128 = 1 →
    let level : Int := (s.voice s.sel).env.level.toNat
    let rate := (s.voice s.sel).env.adsr1.toNat / 16 % 8 * 2 + 16
    let env := level - 1 - (level - 1) / 256
    let sl : Int := ((s.voice s.sel).env.adsr2.toNat / 32 : Nat)
    ∃ t, exec (.envTick c) s = .next t ∧
      EnvTicked (if (match s.cfg.sustainCompare with
          | .le => decide (env / 256 ≤ sl) | .eq => decide (env / 256 = sl)) = true
          then .sustain else .decay)
        (if fires s.cfg rate c.toNat then env else level) s t) ∧
  (∀ (s : State) (c : Counter), specTick s.cfg → (s.voice s.sel).env.mode = .sustain →
    (s.voice s.sel).env.adsr1.toNat / 128 = 1 →
    let level : Int := (s.voice s.sel).env.level.toNat
    ∃ t, exec (.envTick c) s = .next t ∧
      EnvTicked .sustain
        (if fires s.cfg ((s.voice s.sel).env.adsr2.toNat % 32) c.toNat then level - 1 - (level - 1) / 256
          else level) s t)

/-- R165, R169, R171, R172: outside Release, with ADSR1 bit 7 clear, a tick moves to DirectGain and the GAIN
byte selects the candidate and the rate. A tick in DirectGain that finds bit 7 set is the tick of the
configured exit phase (R165's is Attack) from the present level. The formulas of the machine's ticks are taken to be
the spec's. -/
def Obligations.DirectGainIsEnteredAndLeft : Prop :=
  (∀ (s : State) (c : Counter), specTick s.cfg → (s.voice s.sel).env.mode ≠ .release →
    (s.voice s.sel).env.adsr1.toNat / 128 = 0 →
    let level : Int := (s.voice s.sel).env.level.toNat
    let g := (s.voice s.sel).env.gain.toNat
    let env : Int :=
      if g < 128 then (g : Int) * 16
      else if g / 32 % 4 = 0 then level - 32
      else if g / 32 % 4 = 1 then level - 1 - (level - 1) / 256
      else if g / 32 % 4 = 2 then level + 32
      else level + (if level < 0x600 then 32 else 8)
    let rate := if g < 128 then 31 else g % 32
    ∃ t, exec (.envTick c) s = .next t ∧
      EnvTicked .directGain
        (if fires s.cfg rate c.toNat then (if env < 0 then 0 else if 2047 < env then 2047 else env)
          else level) s t) ∧
  (∀ (s : State) (c : Counter), specTick s.cfg → (s.voice s.sel).env.mode = .directGain →
    (s.voice s.sel).env.adsr1.toNat / 128 = 1 → ∃ t, exec (.envTick c) s = .next t ∧
      exec (.envTick c) (s.withSelEnv { (s.voice s.sel).env with
        mode := (match s.cfg.gainExitMode with
          | .attack => .attack | .decay => .decay | .sustain => .sustain) }) = .next t)

/-- R175: the level never falls in Attack and never rises in Decay, Sustain or Release (ADSR governing), in a
machine whose formulas of a tick are the spec's. -/
def Obligations.LevelMovesOneWayInEachPhase : Prop :=
  ∀ (s t : State) (c : Counter), specTick s.cfg → s.cfg.release = [] → exec (.envTick c) s = .next t →
    (s.voice s.sel).env.adsr1.toNat / 128 = 1 →
    ((s.voice s.sel).env.mode = .attack →
      (s.voice s.sel).env.level.toNat ≤ (t.voice s.sel).env.level.toNat) ∧
    ((s.voice s.sel).env.mode = .decay ∨ (s.voice s.sel).env.mode = .sustain ∨
        (s.voice s.sel).env.mode = .release →
      (t.voice s.sel).env.level.toNat ≤ (s.voice s.sel).env.level.toNat)

/-- R173: the rate gate, in a machine that lists no exception to its formula. By any tables (D14) rate 0 never fires,
and every other rate exactly where the counter plus its offset is a multiple of its period. By the spec's tables,
those of reset, which are written out: rate 31 fires at every tick; every other rate fires once in each run of as many consecutive counter values as its period;
every period divides 30720, and the pattern of each rate repeats with the counter. -/
def Obligations.RateGatePeriods : Prop :=
  let period : List Nat := [0, 2048, 1536, 1280, 1024, 768, 640, 512, 384, 320, 256, 192, 160, 128, 96, 80] ++
    [64, 48, 40, 32, 24, 20, 16, 12, 10, 8, 6, 5, 4, 3, 2, 1]
  let offset : List Nat := [0, 0, 1040, 536, 0, 1040, 536, 0, 1040, 536, 0, 1040, 536, 0, 1040, 536] ++
    [0, 1040, 536, 0, 1040, 536, 0, 1040, 536, 0, 1040, 536, 0, 1040, 0, 0]
  (State.reset.cfg.rates.toList = period ∧ State.reset.cfg.offsets.toList = offset) ∧
  (∀ (cfg : Config) (c : Nat), cfg.gate = [] → fires cfg 0 c = false) ∧
  (∀ (cfg : Config) (r : Fin 32) (c : Nat), cfg.gate = [] → r ≠ 0 →
    (fires cfg r.val c = true ↔ (c + cfg.offsets[r.val]) % cfg.rates[r.val] = 0)) ∧
  (∀ cfg : Config, cfg.gate = [] → cfg.rates.toList = period → cfg.offsets.toList = offset →
    (∀ (r : Fin 32) (c : Nat), r ≠ 0 →
      (fires cfg r.val c = true ↔ (c + offset.getD r.val 0) % period.getD r.val 0 = 0)) ∧
    (∀ c : Nat, fires cfg 31 c = true) ∧
    (∀ (r : Fin 32) (c : Nat), fires cfg r.val (c + 30720) = fires cfg r.val c) ∧
    (∀ (r : Fin 32) (c : Nat), r ≠ 0 →
      ∃ k, k < period.getD r.val 0 ∧ fires cfg r.val (c + k) = true ∧
        ∀ j, j < period.getD r.val 0 → fires cfg r.val (c + j) = true → j = k)) ∧
  (∀ r : Fin 32, r ≠ 0 → 30720 % period.getD r.val 0 = 0)

/-! ## Voice -/

/-- R200: key-on, in a machine whose directory is laid out as the spec says. Addresses from the entry at
DIR * 256 + 4 * SRCN; the first block decoded from a zero history; one sample primed; the envelope in (Attack, 0); mirrors and the raw output untouched. -/
def Obligations.VoiceKonRestartsTheVoice : Prop :=
  ∀ (s : State) (dir : Byte), s.cfg.directory = [] → ∃ t, exec (.voiceKon dir) s = .next t ∧
    let v := s.voice s.sel
    let w := t.voice s.sel
    let e : Addr := BitVec.ofNat 16 (dir.toNat * 256 + 4 * v.srcn.toNat)
    let start := readByte s.cfg s.apu.mem (e + 1) ++ readByte s.cfg s.apu.mem e
    w.startAddress = start ∧
    w.loopStart = readByte s.cfg s.apu.mem (e + 3) ++ readByte s.cfg s.apu.mem (e + 2) ∧
    w.sampleAddress = start + 9 ∧
    w.dec.idx = 1 ∧ w.dec.buf = (Decoder.reset.read s.cfg (memReadBlock s.cfg s.apu.mem start)).buf ∧
    w.dec.h1 = w.dec.buf[15] ∧ w.dec.h2 = w.dec.buf[14] ∧
    w.dec.endFlag = (readByte s.cfg s.apu.mem start).getLsbD s.cfg.header.endAt ∧
    w.dec.loopFlag = (readByte s.cfg s.apu.mem start).getLsbD s.cfg.header.loopAt ∧
    w.pos = 0 ∧ w.cur = 0 ∧ w.nxt = w.dec.buf[0] ∧
    w.env.mode = .attack ∧ w.env.level = 0 ∧ w.env.adsr1 = v.env.adsr1 ∧
    w.env.adsr2 = v.env.adsr2 ∧ w.env.gain = v.env.gain ∧
    w.voll = v.voll ∧ w.volr = v.volr ∧ w.pitchl = v.pitchl ∧ w.pitchh = v.pitchh ∧
    w.srcn = v.srcn ∧ w.pmon = v.pmon ∧ w.non = v.non ∧ w.eon = v.eon ∧ w.rawOut = v.rawOut ∧
    OnlyVoice s.sel s t ∧ ReturnsNothing s t

/-- R193, R194, R199: what VOICE.RENDER returns. The source is the noise register doubled, or the blend of the
two samples at the position before this tick's advance, each by the spec's formula or by the exceptions to it that
the configuration lists (D21, D22; the list is the model's form, DESIGN CHOICE, log 10); the level is the one after
this tick's envelope update; left and right are the raw output by the signed volumes, as exact integers: they fit 16
bits. The raw output is even and within -32752..32750. The machine's formulas of R194 and R199 are taken to be the
spec's. -/
def Obligations.VoiceRenderReturnsTheScaledSource : Prop :=
  ∀ (s : State) (last : Sample) (noise : BitVec 16) (c : Counter), specOutputs s.cfg →
    let v := s.voice s.sel
    let pos : Int := v.pos.toNat
    let src : Sample := if v.non then configured s.cfg.noiseSample noise (BitVec.ofInt 16 ((noise.toNat : Int) * 2))
      else configured s.cfg.interpolation (v.cur, v.nxt, v.pos)
        (BitVec.ofInt 16 (even ((v.cur.toInt * (4096 - pos) + v.nxt.toInt * pos) / 4096)))
    ∃ t u l r raw, exec (.voiceRender last noise c) s = .next t ∧ exec (.envTick c) s = .next u ∧
      Returns (.voice l r raw) s t ∧
      raw.toInt = even (src.toInt * (((u.voice s.sel).env.level.toNat : Nat) : Int) / 2048) ∧
      l.toInt = raw.toInt * v.voll.toInt / 128 ∧ r.toInt = raw.toInt * v.volr.toInt / 128 ∧
      (t.voice s.sel).rawOut = raw ∧ raw.toInt % 2 = 0 ∧ -32752 ≤ raw.toInt ∧ raw.toInt ≤ 32750

/-- R192, R196, R197: the position moves by the effective pitch, modulated by the operand `last` if the voice's
flag is set and clamped to 0..0x3FFF, and keeps its 12-bit fraction. For the k whole steps it passes, with at
least k outputs not yet popped, k samples are taken: `cur` and `nxt` move k places along the samples ahead, the
cursor moves by k, and no block is fetched. -/
def Obligations.VoiceRenderAdvancesThePosition : Prop :=
  ∀ (s : State) (last : Sample) (noise : BitVec 16) (c : Counter),
    let v := s.voice s.sel
    let k := wholeSteps s.cfg v last
    ∃ t, exec (.voiceRender last noise c) s = .next t ∧
      let w := t.voice s.sel
      ((w.pos.toNat : Nat) : Int) = ((v.pos.toNat : Int) + renderPitch s.cfg v last) % 4096 ∧
      (v.dec.idx.val + k ≤ 16 →
        w.dec.idx.val = v.dec.idx.val + k ∧ w.dec.buf = v.dec.buf ∧ w.dec.h1 = v.dec.h1 ∧
        w.dec.h2 = v.dec.h2 ∧ w.dec.endFlag = v.dec.endFlag ∧ w.dec.loopFlag = v.dec.loopFlag ∧
        w.sampleAddress = v.sampleAddress ∧
        w.cur = (samplesAhead v).getD k 0 ∧ w.nxt = (samplesAhead v).getD (k + 1) 0)

/-- R194, R195: a current block with end and without loop leaves the voice in (Release, 0) after the tick; under
any other block the envelope is the one that ENV.TICK leaves at that counter. -/
def Obligations.EndWithoutLoopSilences : Prop :=
  ∀ (s : State) (last : Sample) (noise : BitVec 16) (c : Counter), ∃ t u,
    exec (.voiceRender last noise c) s = .next t ∧ exec (.envTick c) s = .next u ∧
    ((s.voice s.sel).dec.endFlag = true ∧ (s.voice s.sel).dec.loopFlag = false →
      (t.voice s.sel).env = { (u.voice s.sel).env with mode := .release, level := 0 }) ∧
    (¬ ((s.voice s.sel).dec.endFlag = true ∧ (s.voice s.sel).dec.loopFlag = false) →
      (t.voice s.sel).env = (u.voice s.sel).env)

/-- R196, R197, R198: a render that needs more samples than are left fetches the next block when the first of
them is needed. The block is fetched from the loop start if the exhausted block had end and loop set, else from
the sample address, its history carried over; the address moves past its nine bytes, and the samples go on from
the old block's outputs into the new one's. -/
def Obligations.ExhaustedDecoderFetchesTheNextBlock : Prop :=
  ∀ (s : State) (last : Sample) (noise : BitVec 16) (c : Counter),
    let v := s.voice s.sel
    let k := wholeSteps s.cfg v last
    let source : Addr :=
      if v.dec.endFlag = true ∧ v.dec.loopFlag = true then v.loopStart else v.sampleAddress
    let d := v.dec.read s.cfg (memReadBlock s.cfg s.apu.mem source)
    16 < v.dec.idx.val + k → ∃ t, exec (.voiceRender last noise c) s = .next t ∧
      let w := t.voice s.sel
      w.sampleAddress = source + 9 ∧ w.dec.idx.val = v.dec.idx.val + k - 16 ∧ w.dec.buf = d.buf ∧
      w.dec.h1 = d.h1 ∧ w.dec.h2 = d.h2 ∧ w.dec.endFlag = d.endFlag ∧ w.dec.loopFlag = d.loopFlag ∧
      w.cur = (samplesAhead v ++ d.buf.toList).getD k 0 ∧
      w.nxt = (samplesAhead v ++ d.buf.toList).getD (k + 1) 0

/-- R65: a voice fetches at most one block per tick. After a render the decoder holds the block it held, the
sample address where it was, or one block read on the history it had from the sample address or the loop start, the
sample address nine bytes past it; the cursor alone moves on within the block. -/
def Obligations.AtMostOneFetchPerTick : Prop :=
  ∀ (s : State) (last : Sample) (noise : BitVec 16) (c : Counter), ∃ t,
    exec (.voiceRender last noise c) s = .next t ∧
    let v := s.voice s.sel
    let w := t.voice s.sel
    (w.sampleAddress = v.sampleAddress ∧ w.dec = { v.dec with idx := w.dec.idx }) ∨
    (∃ source : Addr, (source = v.sampleAddress ∨ source = v.loopStart) ∧ w.sampleAddress = source + 9 ∧
      w.dec = { v.dec.read s.cfg (memReadBlock s.cfg s.apu.mem source) with idx := w.dec.idx })

/-- R190, R191, R332: the frame of VOICE.RENDER. Memory is only read; the register mirrors, the start and loop
addresses and every other voice stay. -/
def Obligations.VoiceRenderFrame : Prop :=
  ∀ (s : State) (last : Sample) (noise : BitVec 16) (c : Counter), ∃ t,
    exec (.voiceRender last noise c) s = .next t ∧
    let v := s.voice s.sel
    let w := t.voice s.sel
    w.startAddress = v.startAddress ∧ w.loopStart = v.loopStart ∧ w.voll = v.voll ∧ w.volr = v.volr ∧
    w.pitchl = v.pitchl ∧ w.pitchh = v.pitchh ∧ w.srcn = v.srcn ∧ w.pmon = v.pmon ∧ w.non = v.non ∧
    w.eon = v.eon ∧ w.env.adsr1 = v.env.adsr1 ∧ w.env.adsr2 = v.env.adsr2 ∧ w.env.gain = v.env.gain ∧
    OnlyVoice s.sel s t

/-! ## Dsp -/

/-- R222, R223, R230, R227: the clocks of a tick. The counter falls by one and wraps to the top of its range (30719
in the default, D14); the noise register shifts, by R223's formula or by the exceptions to it that the
configuration lists (D22), if FLG's rate fires at the new counter; the history index moves by one; the echo position
moves by 4 and returns to 0 at the length EDL gives. The counter's step and the echo position's are taken to be the
spec's. The register block (R44), the RingBuffer and the host's side stay, and one frame is returned (R232). The
configuration's fields, the list of exceptions among them, are the model's form (DESIGN CHOICE, log 10). -/
def Obligations.TickMovesTheClocks : Prop :=
  ∀ s : State, s.apu.dsp.ok s.cfg → s.cfg.counterNext = [] → s.cfg.echoNext = [] → ∃ t l r,
    exec .dspTick s = .next t ∧
    RegistersKept s t ∧ HostSideKept s t ∧ Returns (.frame l r) s t ∧
    let d := s.apu.dsp
    let e := t.apu.dsp
    e.counter.toNat = (if d.counter.toNat = 0 then s.cfg.counterTop.toNat else d.counter.toNat - 1) ∧
    e.noise = (if fires s.cfg ((s.reg 0x6C).toNat / 2 ^ s.cfg.flg.noiseAt % 32) e.counter.toNat
      then configured s.cfg.noiseNext d.noise (BitVec.ofNat 16
        ((d.noise.toNat % 2 + d.noise.toNat / 2 % 2) % 2 * 16384 ||| d.noise.toNat / 2))
      else d.noise) ∧
    e.hpos.val = (d.hpos.val + 1) % 8 ∧
    e.echoPos.toNat = (if (s.reg 0x7D).toNat % 16 * 2048 ≤ d.echoPos.toNat + 4 then 0
      else d.echoPos.toNat + 4)

/-- R226, R227: a tick pushes the frame it reads, halved, on the echo history, whatever FLG says, in a machine whose
formulas for the frame's place and for an entry are the spec's. -/
def Obligations.TickPushesTheEchoFrame : Prop :=
  ∀ s : State, s.cfg.echoAddress = [] → s.cfg.echoInput = [] → ∃ t, exec .dspTick s = .next t ∧
    let d := s.apu.dsp
    let a : Addr := BitVec.ofNat 16 ((s.reg 0x6D).toNat * 256 + d.echoPos.toNat)
    let h : Fin 8 := t.apu.dsp.hpos
    let byte := readByte s.cfg s.apu.mem
    (t.apu.dsp.histL[h.val]).toInt = (byte (a + 1) ++ byte a).toInt / 2 ∧
    (t.apu.dsp.histR[h.val]).toInt = (byte (a + 3) ++ byte (a + 2)).toInt / 2 ∧
    (∀ i : Fin 8, i ≠ h → t.apu.dsp.histL[i.val] = d.histL[i.val] ∧ t.apu.dsp.histR[i.val] = d.histR[i.val])

/-- R229: a tick stores to the four bytes of its echo frame and to no other, and to none when FLG's echo write disable
is set (bit 5 in the default layout); the stored words are even (where the frame's place and the value are by the
spec's formulas, the memory has 65536 bytes and its list is canonical, which every step keeps). Which addresses name
one byte in a smaller memory is the model's choice (DESIGN CHOICE, log 22). -/
def Obligations.TickStoresOnlyItsEchoFrame : Prop :=
  ∀ s : State, ∃ t, exec .dspTick s = .next t ∧
    let a := s.apu.dsp.echoFrame s.cfg
    (∀ x, (∀ y ∈ [a.1, a.1 + 1, a.2, a.2 + 1], cell s.cfg x ≠ cell s.cfg y) →
      readByte s.cfg t.apu.mem x = readByte s.cfg s.apu.mem x) ∧
    ((s.reg 0x6C).getLsbD s.cfg.flg.echoOffAt = true → MemoryKept s t) ∧
    ((s.reg 0x6C).getLsbD s.cfg.flg.echoOffAt = false → Memory.wf s.apu.mem = true → s.cfg.memTop = 0xFFFF →
      s.cfg.echoAddress = [] → s.cfg.feedback = [] →
      (readByte s.cfg t.apu.mem a.1).getLsbD 0 = false ∧ (readByte s.cfg t.apu.mem a.2).getLsbD 0 = false)

/-- R225, R229: the words a tick writes back. They are the echo-enabled voices' sums plus the filtered tap by
EFB, saturated and made even. The memory list is taken to be canonical, which every step keeps, the memory to have
65536 bytes, and the machine's formulas here to be the spec's. -/
def Obligations.TickWritesBackTheCombinedValue : Prop :=
  ∀ s : State, Memory.wf s.apu.mem = true → (s.reg 0x6C).getLsbD s.cfg.flg.echoOffAt = false →
    s.cfg.memTop = 0xFFFF → s.cfg.echoAddress = [] → s.cfg.feedback = [] → s.cfg.volume = [] → ∃ t,
    exec .dspTick s = .next t ∧
    let x := renderVoices s.cfg s.apu.mem (s.apu.dsp.advanceClock s.cfg)
    let firL := t.apu.dsp.fir s.cfg t.apu.dsp.histL
    let firR := t.apu.dsp.fir s.cfg t.apu.dsp.histR
    let a : Addr := BitVec.ofNat 16 ((s.reg 0x6D).toNat * 256 + s.apu.dsp.echoPos.toNat)
    let byte := readByte s.cfg t.apu.mem
    (byte (a + 1) ++ byte a).toInt = even (clamp16 (x.echoL + firL * (s.reg 0x0D).toInt / 128)) ∧
    (byte (a + 3) ++ byte (a + 2)).toInt =
      even (clamp16 (x.echoR + firR * (s.reg 0x0D).toInt / 128))

/-- R228: the frame a tick returns when it is not muted, under either MIX_ORDER, from the voices' sums and the
filtered echo, in a machine whose formula for volumes is the spec's. -/
def Obligations.TickReturnsTheMix : Prop :=
  ∀ s : State, (s.reg 0x6C).getLsbD s.cfg.flg.muteAt = false → s.cfg.volume = [] → ∃ t l r,
    exec .dspTick s = .next t ∧ Returns (.frame l r) s t ∧
    let x := renderVoices s.cfg s.apu.mem (s.apu.dsp.advanceClock s.cfg)
    let firL := t.apu.dsp.fir s.cfg t.apu.dsp.histL
    let firR := t.apu.dsp.fir s.cfg t.apu.dsp.histR
    (s.cfg.mixOrder = .sourceOrder →
      l.toInt = clamp16 (clamp16 (x.mainL + firL * (s.reg 0x2C).toInt / 128) * (s.reg 0x0C).toInt / 128) ∧
      r.toInt = clamp16 (clamp16 (x.mainR + firR * (s.reg 0x3C).toInt / 128) * (s.reg 0x1C).toInt / 128)) ∧
    (s.cfg.mixOrder = .chipOrder →
      l.toInt = clamp16 (x.mainL * (s.reg 0x0C).toInt / 128 + firL * (s.reg 0x2C).toInt / 128) ∧
      r.toInt = clamp16 (x.mainR * (s.reg 0x1C).toInt / 128 + firR * (s.reg 0x3C).toInt / 128))

/-- R227: the filter, tap by tap, where no exception to it is configured: C0 on the oldest of the eight inputs, C7 on
the newest. Where the filter is configured to be the identity (D31) it is the newest input, even as a filtered value
is, which is the model's reading (log 21). -/
def Obligations.FirWeighsOldestByC0 : Prop :=
  ∀ (cfg : Config) (d : Dsp) (hist : Vector Sample 8), cfg.fir = [] →
    let term : Fin 8 → Fin 8 → Int :=
      fun age c => (hist[(d.hpos - age).val]).toInt * (d.reg (regAddr c 0xF)).toInt / 64
    (cfg.echoFilter = .eightTap → d.fir cfg hist = even (clamp16 (
      (wrap16 (term 7 0 + term 6 1 + term 5 2 + term 4 3 + term 3 4 + term 2 5 + term 1 6)).toInt +
      (wrap16 (term 0 7)).toInt))) ∧
    (cfg.echoFilter = .identity → d.fir cfg hist = clamp16 (2 * (hist[d.hpos.val]).toInt))

/-- R231: with FLG bit 6 set, FLG laid out as the spec says, the frame is (0, 0), and the tick leaves the same Dsp and
memory as without it, but for the register byte itself. -/
def Obligations.MuteSilencesTheFrameOnly : Prop :=
  ∀ s : State, s.cfg.flg = ⟨7, 6, 5, 0⟩ → (s.reg 0x6C).getLsbD 6 = true → ∃ t u,
    exec .dspTick s = .next t ∧ Returns (.frame 0 0) s t ∧
    exec .dspTick (s.withDsp (s.apu.dsp.setReg 0x6C (s.reg 0x6C &&& 0xBF))) = .next u ∧
    u.apu = { t.apu with dsp := t.apu.dsp.setReg 0x6C (s.reg 0x6C &&& 0xBF) }

/-- R238, R224: a tick with FLG's soft reset bit set (bit 7 in the default layout) leaves every voice in (Release, 0)
with a raw output of 0, in a machine whose formulas for Release and for the raw output are the spec's. -/
def Obligations.SoftResetSilencesEveryVoice : Prop :=
  ∀ s : State, s.cfg.release = [] → s.cfg.envScale = [] → (s.reg 0x6C).getLsbD s.cfg.flg.resetAt = true → ∃ t,
    exec .dspTick s = .next t ∧
    ∀ v, (t.voice v).env.mode = .release ∧ (t.voice v).env.level = 0 ∧ (t.voice v).rawOut = 0

/-- R224, R203: a tick renders the voices in strict index order, each by VOICE.RENDER with the raw output that
the voice before it has returned in this tick, at the new counter and the new noise value. -/
def Obligations.TickIsVoiceRendersInOrder : Prop :=
  ∀ s : State, ∃ t u, exec .dspTick s = .next t ∧
    renderChain t.apu.dsp.noise t.apu.dsp.counter [0, 1, 2, 3, 4, 5, 6, 7] 0 s = some u ∧
    ∀ v, t.voice v = u.voice v

/-- R225: the sums of a tick. Each voice's outputs, as VOICE.RENDER returns them in index order, are added to the
main sums, and to the echo sums if the voice's echo flag is set; each addition saturates at once, in a machine whose
formula for it is the spec's. -/
def Obligations.SumsSaturateVoiceByVoice : Prop :=
  ∀ s : State, s.cfg.accumulate = [] → ∃ t u, exec .dspTick s = .next t ∧
    renderChain t.apu.dsp.noise t.apu.dsp.counter [0, 1, 2, 3, 4, 5, 6, 7] 0 s = some u ∧
    ∃ rs : List (VoiceIx × Sample × Sample × Sample), rs.map Prod.fst = [0, 1, 2, 3, 4, 5, 6, 7] ∧
      u.outbox = s.outbox ++ rs.map (fun r => Result.voice r.2.1 r.2.2.1 r.2.2.2) ∧
      let x := renderVoices s.cfg s.apu.mem (s.apu.dsp.advanceClock s.cfg)
      x.mainL = rs.foldl (fun sum r => clamp16 (sum + r.2.1.toInt)) 0 ∧
      x.mainR = rs.foldl (fun sum r => clamp16 (sum + r.2.2.1.toInt)) 0 ∧
      x.echoL = rs.foldl (fun sum r => if (s.voice r.1).eon then clamp16 (sum + r.2.1.toInt) else sum) 0 ∧
      x.echoR = rs.foldl (fun sum r => if (s.voice r.1).eon then clamp16 (sum + r.2.2.1.toInt) else sum) 0

/-- R233, R31 to R37: a write to a per-voice data register stores the byte, copies it to the voice's mirror and
does nothing else. -/
def Obligations.VoiceRegisterWritesReachTheMirror : Prop :=
  ∀ (s : State) (v : VoiceIx) (b : Byte),
    let x := s.voice v
    let ok (i : Instr) (n : BitVec 4) (y : Voice) : Prop := ∃ t, exec i s = .next t ∧
      RegisterWritten (regAddr v n) b s t ∧ t.voice v = y ∧ OtherVoicesKept v s t
    ok (.vxVoll v (.write b)) 0 { x with voll := b } ∧
    ok (.vxVolr v (.write b)) 1 { x with volr := b } ∧
    ok (.vxPitchl v (.write b)) 2 { x with pitchl := b } ∧
    ok (.vxPitchh v (.write b)) 3 { x with pitchh := b } ∧
    ok (.vxSrcn v (.write b)) 4 { x with srcn := b } ∧
    ok (.vxAdsr1 v (.write b)) 5 { x with env := { x.env with adsr1 := b } } ∧
    ok (.vxAdsr2 v (.write b)) 6 { x with env := { x.env with adsr2 := b } } ∧
    ok (.vxGain v (.write b)) 7 { x with env := { x.env with gain := b } }

/-- R38 to R43: a write to any other register but KON, KOFF, PMON, NON and EON stores the byte and changes
nothing else. -/
def Obligations.StorageRegisterWritesOnlyStore : Prop :=
  ∀ (s : State) (v : VoiceIx) (b : Byte),
    let ok (i : Instr) (a : RegAddr) : Prop := ∃ t, exec i s = .next t ∧
      RegisterWritten a b s t ∧ VoicesKept s t
    (ok (.vxEnvx v (.write b)) (regAddr v 0x8) ∧ ok (.vxOutx v (.write b)) (regAddr v 0x9) ∧
      ok (.vxUnusedA v (.write b)) (regAddr v 0xA) ∧ ok (.vxUnusedB v (.write b)) (regAddr v 0xB) ∧
      ok (.vxUnusedE v (.write b)) (regAddr v 0xE) ∧ ok (.cxFir v (.write b)) (regAddr v 0xF)) ∧
    (ok (.mvoll (.write b)) 0x0C ∧ ok (.mvolr (.write b)) 0x1C ∧ ok (.evoll (.write b)) 0x2C ∧
      ok (.evolr (.write b)) 0x3C ∧ ok (.flg (.write b)) 0x6C ∧ ok (.endx (.write b)) 0x7C) ∧
    (ok (.efb (.write b)) 0x0D ∧ ok (.unused1D (.write b)) 0x1D ∧ ok (.dir (.write b)) 0x5D ∧
      ok (.esa (.write b)) 0x6D ∧ ok (.edl (.write b)) 0x7D)

/-- R41, R233: a write to PMON, NON or EON copies bit v to the flag of voice v, all eight, and changes nothing
else. -/
def Obligations.FlagRegisterWritesFanOut : Prop :=
  ∀ (s : State) (b : Byte),
    (∃ t, exec (.pmon (.write b)) s = .next t ∧ RegisterWritten 0x2D b s t ∧
      ∀ v, t.voice v = { s.voice v with pmon := b.getLsbD v.val }) ∧
    (∃ t, exec (.non (.write b)) s = .next t ∧ RegisterWritten 0x3D b s t ∧
      ∀ v, t.voice v = { s.voice v with non := b.getLsbD v.val }) ∧
    (∃ t, exec (.eon (.write b)) s = .next t ∧ RegisterWritten 0x4D b s t ∧
      ∀ v, t.voice v = { s.voice v with eon := b.getLsbD v.val })

/-- R235: a write to KON keys on, by VOICE.KON with the DIR register, exactly the voices whose bits are set.
R236: a write to KOFF keys off exactly the voices whose bits are set. -/
def Obligations.KonAndKoffWritesFanOut : Prop :=
  (∀ (s : State) (b : Byte), ∃ t, exec (.kon (.write b)) s = .next t ∧ RegisterWritten 0x4C b s t ∧
    ∀ v, (b.getLsbD v.val = true → ∃ u, exec (.voiceKon (s.reg 0x5D)) { s with sel := v } = .next u ∧
        t.voice v = u.voice v) ∧
      (b.getLsbD v.val = false → t.voice v = s.voice v)) ∧
  (∀ (s : State) (b : Byte), ∃ t, exec (.koff (.write b)) s = .next t ∧ RegisterWritten 0x5C b s t ∧
    ∀ v, t.voice v = (if b.getLsbD v.val then
      { s.voice v with env := { (s.voice v).env with mode := .release } } else s.voice v))

/-- R237, R38, R39: a read returns the byte as last written, at ENVX the level's high bits and at OUTX the raw
output's high byte (in a machine whose formulas for these two are the spec's), and has no side effect; every
register row and DSP.READ agree. -/
def Obligations.RegisterReads : Prop :=
  ∀ (s : State) (a : RegAddr), s.cfg.envx = [] → s.cfg.outx = [] → ∃ t, exec (.dspRead a) s = .next t ∧
    exec (decodeReg a .read) s = .next t ∧
    OnlyReturns (.byte (
      if a.toNat % 16 = 8 then BitVec.ofNat 8 ((s.voice ⟨a.toNat / 16, by omega⟩).env.level.toNat / 16)
      else if a.toNat % 16 = 9 then
        BitVec.ofInt 8 ((s.voice ⟨a.toNat / 16, by omega⟩).rawOut.toInt / 256)
      else s.reg a)) s t

/-- R233, R98: DSP.WRITE at an address is the write of the register row the address names; it completes for every
address and every byte. -/
def Obligations.DspWriteIsTheRegisterRowsWrite : Prop :=
  ∀ (s : State) (a : RegAddr) (b : Byte), ∃ t, exec (.dspWrite a b) s = .next t ∧
    exec (decodeReg a (.write b)) s = .next t

/-! ## Register values -/

/-- R35 to R37, R40, R99, R106: a value row, as the data of a write, stores its byte in its register (of the
selected voice, log 5) and in the voice's mirror, and changes nothing else. -/
def Obligations.ValueRowsWriteTheirRegister : Prop :=
  ∀ s : State,
    let x := s.voice s.sel
    let ok (i : Instr) (n : BitVec 4) (b : Nat) (y : Byte → Envelope) : Prop :=
      ∃ t, exec i s = .next t ∧ RegisterWritten (regAddr s.sel n) (BitVec.ofNat 8 b) s t ∧
        t.voice s.sel = { x with env := y (BitVec.ofNat 8 b) } ∧ OtherVoicesKept s.sel s t
    (∀ (dr : BitVec 3) (ar : BitVec 4), ok (.adsr1Adsr dr ar .write) 5 (128 + dr.toNat * 16 + ar.toNat)
      (fun b => { x.env with adsr1 := b })) ∧
    (∀ g : BitVec 7, ok (.adsr1Gain g .write) 5 g.toNat (fun b => { x.env with adsr1 := b })) ∧
    (∀ (sl : BitVec 3) (sr : BitVec 5), ok (.adsr2 sl sr .write) 6 (sl.toNat * 32 + sr.toNat)
      (fun b => { x.env with adsr2 := b })) ∧
    (∀ g : BitVec 7, ok (.gainDirect g .write) 7 g.toNat (fun b => { x.env with gain := b })) ∧
    (∀ r : BitVec 5, ok (.gainLindec r .write) 7 (128 + r.toNat) (fun b => { x.env with gain := b }) ∧
      ok (.gainExpdec r .write) 7 (160 + r.toNat) (fun b => { x.env with gain := b }) ∧
      ok (.gainLininc r .write) 7 (192 + r.toNat) (fun b => { x.env with gain := b }) ∧
      ok (.gainBentinc r .write) 7 (224 + r.toNat) (fun b => { x.env with gain := b })) ∧
    (∀ (r m e : Bool) (n : BitVec 5), ∃ t, exec (.flgValue r m e n .write) s = .next t ∧
      RegisterWritten 0x6C (BitVec.ofNat 8 (r.toNat * 128 + m.toNat * 64 + e.toNat * 32 + n.toNat)) s t ∧
      VoicesKept s t)

/-- R99, R106 (log 5): a value row in force at a tick is its write followed by the tick. -/
def Obligations.ValueRowsAtATickAreWriteThenTick : Prop :=
  (∀ (s : State) (c : Counter) (b : Byte), ∃ t u v,
    (exec (decodeAdsr1 b (.tick c)) s = .next t ∧
      execAll [decodeAdsr1 b .write, .envTick c] s = .next t) ∧
    (exec (decodeAdsr2 b (.tick c)) s = .next u ∧
      execAll [decodeAdsr2 b .write, .envTick c] s = .next u) ∧
    (exec (decodeGain b (.tick c)) s = .next v ∧
      execAll [decodeGain b .write, .envTick c] s = .next v)) ∧
  (∀ (s : State) (b : Byte), ∃ t, exec (decodeFlg b .tick) s = .next t ∧
    execAll [decodeFlg b .write, .dspTick] s = .next t)

/-! ## Apu -/

/-- R330: APU.RESET puts the Dsp, its voices, envelopes and decoders at their reset values (the noise register and
FLG at their configured ones, D22 and D36) and leaves memory, the RingBuffer and the host's side alone; a second one
changes nothing. -/
def Obligations.ApuResetRestoresTheDsp : Prop :=
  ∀ s : State, ∃ t, exec .apuReset s = .next t ∧
    t.apu.dsp = { State.reset.apu.dsp.setReg 0x6C s.cfg.flgReset with noise := s.cfg.noiseReset } ∧
    MemoryKept s t ∧ HostSideKept s t ∧ ReturnsNothing s t ∧ exec .apuReset t = .next t

/-- R272: APU.SET_STATE loads memory and registers, restarts from key-on exactly the voices of the snapshot's KON
byte, leaves every other voice in (Release, 0), and starts the clocks from their reset values. R311: a snapshot
that is not of 65536 + 128 bytes is refused. With 65536 bytes of memory each address reads as its own byte of the
snapshot, as R272 says; what it reads as in a smaller memory, the byte at its remainder by MEM_SIZE, is the model's
choice (DESIGN CHOICE, log 22). -/
def Obligations.SetStateLoadsTheSnapshot : Prop :=
  (∀ (s : State) (x : Snapshot), x.ram.length = 65536 → x.dspregs.length = 128 → ∃ t,
    exec (.apuSetState x) s = .next t ∧
    (∀ a : Addr, readByte s.cfg t.apu.mem a = x.ram.getD (cell s.cfg a) 0) ∧
    (∀ a : RegAddr, t.reg a = x.dspregs.getD a.toNat 0) ∧
    (∀ v, (t.voice v).mirrors t.apu.dsp v) ∧
    t.apu.dsp.counter = 0 ∧ t.apu.dsp.noise = s.cfg.noiseReset ∧ t.apu.dsp.echoPos = 0 ∧ t.apu.dsp.hpos = 0 ∧
    (∀ i : Fin 8, t.apu.dsp.histL[i.val] = 0 ∧ t.apu.dsp.histR[i.val] = 0) ∧
    (∀ v : VoiceIx, (t.voice v).rawOut = 0) ∧
    (∀ v : VoiceIx, (t.reg 0x4C).getLsbD v.val = true →
      (∃ u, exec (.voiceKon (t.reg 0x5D)) { t with sel := v } = .next u ∧
        (t.voice v).sampleAddress = (u.voice v).sampleAddress ∧
        (t.voice v).startAddress = (u.voice v).startAddress ∧
        (t.voice v).loopStart = (u.voice v).loopStart ∧ (t.voice v).dec = (u.voice v).dec ∧
        (t.voice v).nxt = (u.voice v).nxt) ∧
      (t.voice v).pos = 0 ∧ (t.voice v).cur = 0 ∧
      (t.voice v).env.mode = .attack ∧ (t.voice v).env.level = 0) ∧
    (∀ v : VoiceIx, (t.reg 0x4C).getLsbD v.val = false →
      (t.voice v).env.mode = .release ∧ (t.voice v).env.level = 0 ∧ (t.voice v).dec = Decoder.reset ∧
      (t.voice v).sampleAddress = 0 ∧ (t.voice v).startAddress = 0 ∧ (t.voice v).loopStart = 0 ∧
      (t.voice v).pos = 0 ∧ (t.voice v).cur = 0 ∧ (t.voice v).nxt = 0) ∧
    HostSideKept s t ∧ ReturnsNothing s t) ∧
  (∀ (s : State) (x : Snapshot), x.ram.length ≠ 65536 ∨ x.dspregs.length ≠ 128 →
    exec (.apuSetState x) s = .refused .badOperand)

/-- R273: rendering m + n frames in one call and in two calls gives the same frames and the same end state; each
call returns exactly as many frames as asked. -/
def Obligations.RenderSplits : Prop :=
  ∀ (s : State) (m n : Nat), ∃ t u w fl fr gl gr,
    exec (.apuRender m) s = .next t ∧ Returns (.frames fl fr) s t ∧ fl.length = m ∧ fr.length = m ∧
    exec (.apuRender n) t = .next u ∧ Returns (.frames gl gr) t u ∧ gl.length = n ∧ gr.length = n ∧
    exec (.apuRender (m + n)) s = .next w ∧ Returns (.frames (fl ++ gl) (fr ++ gr)) s w ∧
    w.apu = u.apu ∧ HostSideKept s w

/-- R273, R105: APU.RENDER n is n DSP.TICKs, the k-th frame stored at place k. -/
def Obligations.RenderIsTicks : Prop :=
  ∀ (s : State) (n : Nat), ∃ t u fl fr, exec (.apuRender n) s = .next t ∧
    Returns (.frames fl fr) s t ∧ execAll (renderTicks n) s = .next u ∧ u.apu = t.apu ∧
    u.outbox = s.outbox ++ List.zipWith Result.frame fl fr

/-- R274, R275: APU.READ_BYTE returns the byte and changes nothing; APU.WRITE_BYTE changes that byte and no other
state, and the byte written is the byte read back (where the memory list is canonical, which every step keeps). That
two addresses of one remainder by MEM_SIZE name one byte, which no two do with 65536 bytes of memory, is the model's
choice for a smaller memory (DESIGN CHOICE, log 22). -/
def Obligations.HostBytesReadAndWrite : Prop :=
  ∀ (s : State) (a : Addr) (b : Byte),
    (∃ t, exec (.apuReadByte a) s = .next t ∧ OnlyReturns (.byte (readByte s.cfg s.apu.mem a)) s t) ∧
    (∃ t u, exec (.apuWriteByte a b) s = .next t ∧
      (∀ x, cell s.cfg x ≠ cell s.cfg a → readByte s.cfg t.apu.mem x = readByte s.cfg s.apu.mem x) ∧
      t.apu.dsp = s.apu.dsp ∧ HostSideKept s t ∧ ReturnsNothing s t ∧
      exec (.apuReadByte a) t = .next u ∧ OnlyReturns (.byte (readByte s.cfg t.apu.mem a)) t u ∧
      (Memory.wf s.apu.mem = true → readByte s.cfg t.apu.mem a = b))

/-! ## RingBuffer -/

/-- R291, R299: RB.RESET zeroes every sample, both cursors and the count, whatever was there. R294: RB.COUNT
returns the count and writes nothing. -/
def Obligations.RbResetClearsAndRbCountReports : Prop :=
  (∀ s : State, ∃ t, exec .rbReset s = .next t ∧ t.ring.count = 0 ∧ t.ring.wr = 0 ∧ t.ring.rd = 0 ∧
    t.ring.bufL.length = s.cfg.rbCapacity ∧ t.ring.bufR.length = s.cfg.rbCapacity ∧
    (∀ x ∈ t.ring.bufL, x = 0) ∧ (∀ x ∈ t.ring.bufR, x = 0) ∧
    t.apu = s.apu ∧ t.cfg = s.cfg ∧ t.sel = s.sel ∧ t.inbox = s.inbox ∧ ReturnsNothing s t) ∧
  (∀ s : State, ∃ t, exec .rbCount s = .next t ∧ OnlyReturns (.count s.ring.count) s t)

/-- R292, R297: RB.WRITE stores the pair at the write cursor, moves the cursor and counts it; with the buffer full
it is refused. -/
def Obligations.RbWriteAppendsOrIsRefused : Prop :=
  (∀ (s : State) (l r : Sample), s.ring.ok s.cfg.rbCapacity → s.ring.count ≠ s.cfg.rbCapacity → ∃ t,
    exec (.rbWrite l r) s = .next t ∧
    t.ring.bufL.getD s.ring.wr 0 = l ∧ t.ring.bufR.getD s.ring.wr 0 = r ∧
    (∀ k, k ≠ s.ring.wr → t.ring.bufL.getD k 0 = s.ring.bufL.getD k 0 ∧
      t.ring.bufR.getD k 0 = s.ring.bufR.getD k 0) ∧
    t.ring.wr = (s.ring.wr + 1) % s.cfg.rbCapacity ∧ t.ring.count = s.ring.count + 1 ∧
    t.ring.rd = s.ring.rd ∧ t.apu = s.apu ∧ t.cfg = s.cfg ∧ t.sel = s.sel ∧ t.inbox = s.inbox ∧
    ReturnsNothing s t) ∧
  (∀ (s : State) (l r : Sample), s.ring.count = s.cfg.rbCapacity →
    exec (.rbWrite l r) s = .refused .ringOverflow)

/-- R293, R297: RB.READ n returns n pairs from the read cursor on, moves the cursor and takes n off the count, the
stored samples kept; more than the count is refused. -/
def Obligations.RbReadTakesOrIsRefused : Prop :=
  (∀ (s : State) (n : Nat), n ≤ s.ring.count → ∃ t fl fr, exec (.rbRead n) s = .next t ∧
    Returns (.frames fl fr) s t ∧ fl.length = n ∧ fr.length = n ∧
    (∀ k, k < n → fl.getD k 0 = s.ring.bufL.getD ((s.ring.rd + k) % s.cfg.rbCapacity) 0 ∧
      fr.getD k 0 = s.ring.bufR.getD ((s.ring.rd + k) % s.cfg.rbCapacity) 0) ∧
    t.ring.rd = (s.ring.rd + n) % s.cfg.rbCapacity ∧ t.ring.count = s.ring.count - n ∧
    t.ring.wr = s.ring.wr ∧ t.ring.bufL = s.ring.bufL ∧ t.ring.bufR = s.ring.bufR ∧
    t.apu = s.apu ∧ t.cfg = s.cfg ∧ t.sel = s.sel ∧ t.inbox = s.inbox) ∧
  (∀ (s : State) (n : Nat), s.ring.count < n → exec (.rbRead n) s = .refused .ringUnderflow)

/-- R296: the RingBuffer is a queue. A write appends to the pairs not yet read, a read returns and removes the
oldest ones, a count is their number, a reset empties it; the invariant of R295 is kept. -/
def Obligations.RingIsAQueue : Prop :=
  ∀ s : State, s.ring.ok s.cfg.rbCapacity →
    let q := s.ring.contents s.cfg.rbCapacity
    q.length = s.ring.count ∧
    (∀ l r, q.length < s.cfg.rbCapacity → ∃ t, exec (.rbWrite l r) s = .next t ∧
      t.ring.contents s.cfg.rbCapacity = q ++ [(l, r)] ∧ t.ring.ok s.cfg.rbCapacity) ∧
    (∀ n, n ≤ q.length → ∃ t, exec (.rbRead n) s = .next t ∧
      Returns (.frames ((q.take n).map Prod.fst) ((q.take n).map Prod.snd)) s t ∧
      t.ring.contents s.cfg.rbCapacity = q.drop n ∧ t.ring.ok s.cfg.rbCapacity) ∧
    (∃ t, exec .rbReset s = .next t ∧ t.ring.contents s.cfg.rbCapacity = [] ∧
      t.ring.ok s.cfg.rbCapacity)
end

