-- ==== Sys2Proof/Laws/Codec.lean ====
section
/-! SUPPORT. Fields: what is packed into a byte or a word comes apart again, and the other way round. -/

namespace Sys2Proof

section Fields
variable (b hi lo : Byte) (x : BitVec 16) (c : Counter) (a : RegAddr)

theorem highNibble_packNibbles (m n : Nibble) : highNibble (packNibbles m n) = m := by
  revert m n; decide

theorem lowNibble_packNibbles (m n : Nibble) : lowNibble (packNibbles m n) = n := by
  revert m n; decide

theorem packNibbles_nibbles : packNibbles (highNibble b) (lowNibble b) = b := by
  revert b; decide +kernel

theorem le16_bytes : le16 (lowByte x) (highByte x) = x := by
  apply BitVec.eq_of_getLsbD_eq
  intro i hi
  simp only [le16, lowByte, highByte, BitVec.getLsbD_append, BitVec.getLsbD_extractLsb']
  by_cases h : i < 8
  · simp [h]
  · have : 8 + (i - 8) = i := by omega
    have h8 : i - 8 < 8 := by omega
    simp [h, this, h8]

theorem lowByte_le16 : lowByte (le16 lo hi) = lo := by
  apply BitVec.eq_of_getLsbD_eq
  intro i h
  simp only [le16, lowByte, BitVec.getLsbD_extractLsb', BitVec.getLsbD_append]
  simp [h]

theorem highByte_le16 : highByte (le16 lo hi) = hi := by
  apply BitVec.eq_of_getLsbD_eq
  intro i h
  simp only [le16, highByte, BitVec.getLsbD_extractLsb', BitVec.getLsbD_append]
  simp [h]

theorem le16_toNat : (le16 lo hi).toNat = lo.toNat + 256 * hi.toNat := by
  rw [le16, BitVec.toNat_append, Nat.shiftLeft_eq, Nat.mul_comm, ← Nat.two_pow_add_eq_or_of_lt lo.isLt]
  ring

theorem countBytes_le16 : countBytes (le16 lo hi).toNat = [lo, hi] := by
  have hl := lo.isLt
  have hh := hi.isLt
  rw [le16_toNat, countBytes]
  congr 1
  · apply BitVec.eq_of_toNat_eq; simp; omega
  · congr 1
    apply BitVec.eq_of_toNat_eq; simp; omega

theorem le16_countBytes (n : Nat) (h : n < 65536) :
    (le16 (BitVec.ofNat 8 n) (BitVec.ofNat 8 (n / 256))).toNat = n := by
  rw [le16_toNat]; simp; omega

theorem operandRegAddr_regByte : operandRegAddr (regByte a) = .ok a := by
  revert a; decide

theorem operandRegAddr_ok (h : operandRegAddr b = .ok a) : regByte a = b := by
  revert a b; decide +kernel

theorem operandCounter_bytes :
    operandCounter (lowByte (c.setWidth 16)) (highByte (c.setWidth 16)) = .ok c := by
  have h : (highByte (c.setWidth 16)).getLsbD 7 = false := by simp [highByte]
  simp only [operandCounter, h, le16_bytes, Bool.false_eq_true, if_false]
  congr 1
  apply BitVec.eq_of_getLsbD_eq
  intro i hi
  have : i < 16 := by omega
  simp [hi, this]

theorem operandCounter_ok (h : operandCounter lo hi = .ok c) : counterBytes c = [lo, hi] := by
  unfold operandCounter at h
  split at h
  · cases h
  · rename_i hh
    injection h with h
    have e : c.setWidth 16 = le16 lo hi := by
      subst h
      apply BitVec.eq_of_getLsbD_eq
      intro i hi'
      by_cases h15 : i < 15
      · simp [h15, hi']
      · have : i = 15 := by omega
        subst this
        simp only [le16, BitVec.getLsbD_setWidth, BitVec.getLsbD_extractLsb', BitVec.getLsbD_append]
        simpa using hh
    rw [counterBytes, e, lowByte_le16, highByte_le16]

end Fields

/-! ### Register addresses -/

theorem regVoice_regAddr (v : VoiceIx) (n : BitVec 4) : regVoice (regAddr v n) = v := by
  revert v n; decide

theorem regColumn_regAddr (v : VoiceIx) (n : BitVec 4) : regColumn (regAddr v n) = n := by
  revert v n; decide

theorem regAddr_eta (a : RegAddr) : regAddr (regVoice a) (regColumn a) = a := by
  revert a; decide

/-! ### Blocks -/

theorem blockFilter_packBlock (filter : BitVec 2) (f : BlockFields) :
    blockFilter (packBlock filter f) = filter := by
  have : ∀ (s : BitVec 4) (t : BitVec 2) (l e : Bool),
      (s ++ (t ++ (BitVec.ofBool l ++ BitVec.ofBool e)) : Byte).extractLsb' 2 2 = t := by decide
  exact this _ _ _ _

theorem blockFields_packBlock (filter : BitVec 2) (f : BlockFields) :
    blockFields (packBlock filter f) = f := by
  have hs : ∀ (s : BitVec 4) (t : BitVec 2) (l e : Bool),
      highNibble (s ++ (t ++ (BitVec.ofBool l ++ BitVec.ofBool e)) : Byte) = s := by decide
  have hl : ∀ (s : BitVec 4) (t : BitVec 2) (l e : Bool),
      (s ++ (t ++ (BitVec.ofBool l ++ BitVec.ofBool e)) : Byte).getLsbD 1 = l := by decide
  have he : ∀ (s : BitVec 4) (t : BitVec 2) (l e : Bool),
      (s ++ (t ++ (BitVec.ofBool l ++ BitVec.ofBool e)) : Byte).getLsbD 0 = e := by decide
  obtain ⟨sh, lf, ef, nib⟩ := f
  simp only [blockFields, packBlock, packHeader, BlockFields.mk.injEq]
  refine ⟨hs _ _ _ _, hl _ _ _ _, he _ _ _ _, ?_⟩
  apply Vector.ext
  intro i hi
  simp only [Vector.getElem_mk, List.getElem_toArray]
  interval_cases i <;> simp [highNibble_packNibbles, lowNibble_packNibbles]

theorem packBlock_blockFields (b : Block) : packBlock (blockFilter b) (blockFields b) = b := by
  have hh : ∀ h : Byte, (highNibble h ++ (h.extractLsb' 2 2 ++
      (BitVec.ofBool (h.getLsbD 1) ++ BitVec.ofBool (h.getLsbD 0))) : Byte) = h := by decide +kernel
  apply Vector.ext
  intro i hi
  interval_cases i
  · exact hh b[0]
  all_goals simp [packBlock, blockFields, packNibbles_nibbles]

theorem hasLength_iff (l : List Byte) (n : Nat) : hasLength l n = true ↔ l.length = n := by
  induction l generalizing n with
  | nil => cases n <;> simp [hasLength]
  | cons b t ih => cases n <;> simp [hasLength, ih]

/-! ### Register rows -/

section Rows
variable (v : VoiceIx) (x : RegAccess)

theorem decodeReg_vxVoll : decodeReg (regAddr v 0x0) x = .vxVoll v x := by
  simp [decodeReg, regColumn_regAddr, regVoice_regAddr]
theorem decodeReg_vxVolr : decodeReg (regAddr v 0x1) x = .vxVolr v x := by
  simp [decodeReg, regColumn_regAddr, regVoice_regAddr]
theorem decodeReg_vxPitchl : decodeReg (regAddr v 0x2) x = .vxPitchl v x := by
  simp [decodeReg, regColumn_regAddr, regVoice_regAddr]
theorem decodeReg_vxPitchh : decodeReg (regAddr v 0x3) x = .vxPitchh v x := by
  simp [decodeReg, regColumn_regAddr, regVoice_regAddr]
theorem decodeReg_vxSrcn : decodeReg (regAddr v 0x4) x = .vxSrcn v x := by
  simp [decodeReg, regColumn_regAddr, regVoice_regAddr]
theorem decodeReg_vxAdsr1 : decodeReg (regAddr v 0x5) x = .vxAdsr1 v x := by
  simp [decodeReg, regColumn_regAddr, regVoice_regAddr]
theorem decodeReg_vxAdsr2 : decodeReg (regAddr v 0x6) x = .vxAdsr2 v x := by
  simp [decodeReg, regColumn_regAddr, regVoice_regAddr]
theorem decodeReg_vxGain : decodeReg (regAddr v 0x7) x = .vxGain v x := by
  simp [decodeReg, regColumn_regAddr, regVoice_regAddr]
theorem decodeReg_vxEnvx : decodeReg (regAddr v 0x8) x = .vxEnvx v x := by
  simp [decodeReg, regColumn_regAddr, regVoice_regAddr]
theorem decodeReg_vxOutx : decodeReg (regAddr v 0x9) x = .vxOutx v x := by
  simp [decodeReg, regColumn_regAddr, regVoice_regAddr]
theorem decodeReg_vxUnusedA : decodeReg (regAddr v 0xA) x = .vxUnusedA v x := by
  simp [decodeReg, regColumn_regAddr, regVoice_regAddr]
theorem decodeReg_vxUnusedB : decodeReg (regAddr v 0xB) x = .vxUnusedB v x := by
  simp [decodeReg, regColumn_regAddr, regVoice_regAddr]
theorem decodeReg_vxUnusedE : decodeReg (regAddr v 0xE) x = .vxUnusedE v x := by
  simp [decodeReg, regColumn_regAddr, regVoice_regAddr]
theorem decodeReg_cxFir : decodeReg (regAddr v 0xF) x = .cxFir v x := by
  simp [decodeReg, regColumn_regAddr, regVoice_regAddr]

/-- The operation at an address is encoded as that address. -/
theorem encode_decodeReg (a : RegAddr) : encode (decodeReg a x) = encodeAccess a x := by
  have h := regAddr_eta a
  generalize hc : regColumn a = n at h
  generalize hv : regVoice a = w at h
  clear hc
  subst h
  rw [decodeReg, regColumn_regAddr, regVoice_regAddr]
  have hn := n.isLt
  obtain ⟨⟨n⟩⟩ := n
  interval_cases n <;> try rfl
  · have e : ∀ w : VoiceIx, regAddr w 0xC = ([0x0C, 0x1C, 0x2C, 0x3C, 0x4C, 0x5C, 0x6C, 0x7C] :
        List RegAddr).getD w.val 0 := by decide
    refine Eq.trans ?_ (congrArg (encodeAccess · x) (e w)).symm
    clear hv
    fin_cases w <;> rfl
  · have e : ∀ w : VoiceIx, regAddr w 0xD = ([0x0D, 0x1D, 0x2D, 0x3D, 0x4D, 0x5D, 0x6D, 0x7D] :
        List RegAddr).getD w.val 0 := by decide
    refine Eq.trans ?_ (congrArg (encodeAccess · x) (e w)).symm
    clear hv
    fin_cases w <;> rfl

end Rows

/-! ### Value rows -/

section Values
variable (u : CfgUse)

theorem decodeAdsr1_adsr (dr : BitVec 3) (ar : BitVec 4) :
    decodeAdsr1 (packAdsr1Adsr dr ar) u = .adsr1Adsr dr ar u := by
  have : ∀ (dr : BitVec 3) (ar : BitVec 4), (packAdsr1Adsr dr ar).getLsbD 7 = true ∧
      (packAdsr1Adsr dr ar).extractLsb' 4 3 = dr ∧ (packAdsr1Adsr dr ar).extractLsb' 0 4 = ar := by decide
  simp only [decodeAdsr1, (this dr ar).1, (this dr ar).2.1, (this dr ar).2.2, if_true]

theorem decodeAdsr1_gain (g : BitVec 7) : decodeAdsr1 (packAdsr1Gain g) u = .adsr1Gain g u := by
  have : ∀ g : BitVec 7, (packAdsr1Gain g).getLsbD 7 = false ∧ (packAdsr1Gain g).extractLsb' 0 7 = g := by
    decide
  simp only [decodeAdsr1, (this g).1, (this g).2, Bool.false_eq_true, if_false]

theorem decodeAdsr2_pack (sl : BitVec 3) (sr : BitVec 5) :
    decodeAdsr2 (packAdsr2 sl sr) u = .adsr2 sl sr u := by
  have : ∀ (sl : BitVec 3) (sr : BitVec 5), (packAdsr2 sl sr).extractLsb' 5 3 = sl ∧
      (packAdsr2 sl sr).extractLsb' 0 5 = sr := by decide +kernel
  simp only [decodeAdsr2, (this sl sr).1, (this sl sr).2]

theorem decodeGain_direct (g : BitVec 7) : decodeGain (packGainDirect g) u = .gainDirect g u := by
  have : ∀ g : BitVec 7, (packGainDirect g).getLsbD 7 = false ∧ (packGainDirect g).extractLsb' 0 7 = g := by
    decide
  simp only [decodeGain, (this g).1, (this g).2, Bool.false_eq_true, if_false]

/-- A GAIN shape byte: bit 7, the shape, the rate (R99). -/
theorem packGainShape_fields : ∀ (shape : BitVec 2) (r : BitVec 5),
    (packGainShape shape r).getLsbD 7 = true ∧ (packGainShape shape r).extractLsb' 5 2 = shape ∧
      (packGainShape shape r).extractLsb' 0 5 = r := by decide

theorem decodeGain_lindec (r : BitVec 5) : decodeGain (packGainShape 0 r) u = .gainLindec r u := by
  obtain ⟨h, hs, hr⟩ := packGainShape_fields 0 r
  simp only [decodeGain, h, hs, hr, if_true]; rfl
theorem decodeGain_expdec (r : BitVec 5) : decodeGain (packGainShape 1 r) u = .gainExpdec r u := by
  obtain ⟨h, hs, hr⟩ := packGainShape_fields 1 r
  simp only [decodeGain, h, hs, hr, if_true]; rfl
theorem decodeGain_lininc (r : BitVec 5) : decodeGain (packGainShape 2 r) u = .gainLininc r u := by
  obtain ⟨h, hs, hr⟩ := packGainShape_fields 2 r
  simp only [decodeGain, h, hs, hr, if_true]; rfl
theorem decodeGain_bentinc (r : BitVec 5) : decodeGain (packGainShape 3 r) u = .gainBentinc r u := by
  obtain ⟨h, hs, hr⟩ := packGainShape_fields 3 r
  simp only [decodeGain, h, hs, hr, if_true]; rfl

theorem decodeFlg_pack (r m e : Bool) (n : BitVec 5) (w : FlgUse) :
    decodeFlg (packFlg r m e n) w = .flgValue r m e n w := by
  have : ∀ (r m e : Bool) (n : BitVec 5), (packFlg r m e n).getLsbD 7 = r ∧
      (packFlg r m e n).getLsbD 6 = m ∧ (packFlg r m e n).getLsbD 5 = e ∧
      (packFlg r m e n).extractLsb' 0 5 = n := by decide +kernel
  obtain ⟨h7, h6, h5, hn⟩ := this r m e n
  simp only [decodeFlg, h7, h6, h5, hn]

theorem encode_decodeAdsr1 (b : Byte) : encode (decodeAdsr1 b u) = encodeValue .adsr1 b u := by
  have h1 : ∀ b : Byte, b.getLsbD 7 = true → packAdsr1Adsr (b.extractLsb' 4 3) (b.extractLsb' 0 4) = b := by
    decide +kernel
  have h2 : ∀ b : Byte, ¬ b.getLsbD 7 = true → packAdsr1Gain (b.extractLsb' 0 7) = b := by decide +kernel
  unfold decodeAdsr1
  split
  · simp only [encode]; rw [h1 b ‹_›]
  · simp only [encode]; rw [h2 b ‹_›]

theorem encode_decodeAdsr2 (b : Byte) : encode (decodeAdsr2 b u) = encodeValue .adsr2 b u := by
  have h : ∀ b : Byte, packAdsr2 (b.extractLsb' 5 3) (b.extractLsb' 0 5) = b := by decide +kernel
  simp only [decodeAdsr2, encode]; rw [h]

theorem encode_decodeGain (b : Byte) : encode (decodeGain b u) = encodeValue .gain b u := by
  have h1 : ∀ b : Byte, b.getLsbD 7 = true →
      packGainShape (b.extractLsb' 5 2) (b.extractLsb' 0 5) = b := by decide +kernel
  have h2 : ∀ b : Byte, ¬ b.getLsbD 7 = true → packGainDirect (b.extractLsb' 0 7) = b := by decide +kernel
  unfold decodeGain
  split
  · rename_i h
    have h1 := h1 b h
    generalize hs : b.extractLsb' 5 2 = shape at h1
    have hlt := shape.isLt
    obtain ⟨⟨n⟩⟩ := shape
    interval_cases n <;> simp only [encode] <;> exact congrArg (encodeValue .gain · u) h1
  · simp only [encode]; rw [h2 b ‹_›]

theorem encode_decodeFlg (b : Byte) (w : FlgUse) : encode (decodeFlg b w) =
    (match w with | .write => Port.cfgWrite .flg | .tick => Port.cfgTick .flg, [b]) := by
  have h : ∀ b : Byte, packFlg (b.getLsbD 7) (b.getLsbD 6) (b.getLsbD 5) (b.extractLsb' 0 5) = b := by
    decide +kernel
  cases w <;> simp only [decodeFlg, encode] <;> rw [h]

end Values

/-- The block row of a block is encoded as the block. -/
theorem encode_decodeBlock (b : Block) : encode (decodeBlock b) = (.brrblk, b.toList) := by
  have h := packBlock_blockFields b
  unfold decodeBlock
  generalize hs : blockFilter b = t at h
  have hlt := t.isLt
  obtain ⟨⟨n⟩⟩ := t
  interval_cases n <;> simp only [encode] <;> exact congrArg (fun x : Block => (Port.brrblk, x.toList)) h

end Sys2Proof
end

