-- ==== Sys2Proof/Laws/State.lean ====
section
/-! SUPPORT. The update operations of the state, field by field, so that no later proof unfolds a
record update. -/

namespace Sys2Proof.Machine

section State
variable (s : State) (d : Dsp) (m : Memory) (a : Apu) (r : Ring) (x : Voice) (e : Envelope) (c : Decoder)
variable (z : Result) (l : Line) (ls : List Line)

@[simp] theorem State.withDsp_apu : (s.withDsp d).apu = { s.apu with dsp := d } := rfl
@[simp] theorem State.withDsp_ring : (s.withDsp d).ring = s.ring := rfl
@[simp] theorem State.withDsp_cfg : (s.withDsp d).cfg = s.cfg := rfl
@[simp] theorem State.withDsp_sel : (s.withDsp d).sel = s.sel := rfl
@[simp] theorem State.withDsp_inbox : (s.withDsp d).inbox = s.inbox := rfl
@[simp] theorem State.withDsp_outbox : (s.withDsp d).outbox = s.outbox := rfl

@[simp] theorem State.withMem_apu : (s.withMem m).apu = { s.apu with mem := m } := rfl
@[simp] theorem State.withMem_ring : (s.withMem m).ring = s.ring := rfl
@[simp] theorem State.withMem_cfg : (s.withMem m).cfg = s.cfg := rfl
@[simp] theorem State.withMem_sel : (s.withMem m).sel = s.sel := rfl
@[simp] theorem State.withMem_inbox : (s.withMem m).inbox = s.inbox := rfl
@[simp] theorem State.withMem_outbox : (s.withMem m).outbox = s.outbox := rfl

@[simp] theorem State.withApu_apu : (s.withApu a).apu = a := rfl
@[simp] theorem State.withApu_ring : (s.withApu a).ring = s.ring := rfl
@[simp] theorem State.withApu_cfg : (s.withApu a).cfg = s.cfg := rfl
@[simp] theorem State.withApu_sel : (s.withApu a).sel = s.sel := rfl
@[simp] theorem State.withApu_inbox : (s.withApu a).inbox = s.inbox := rfl
@[simp] theorem State.withApu_outbox : (s.withApu a).outbox = s.outbox := rfl

@[simp] theorem State.withRing_apu : (s.withRing r).apu = s.apu := rfl
@[simp] theorem State.withRing_ring : (s.withRing r).ring = r := rfl
@[simp] theorem State.withRing_cfg : (s.withRing r).cfg = s.cfg := rfl
@[simp] theorem State.withRing_sel : (s.withRing r).sel = s.sel := rfl
@[simp] theorem State.withRing_inbox : (s.withRing r).inbox = s.inbox := rfl
@[simp] theorem State.withRing_outbox : (s.withRing r).outbox = s.outbox := rfl

@[simp] theorem State.emit_apu : (s.emit z).apu = s.apu := rfl
@[simp] theorem State.emit_ring : (s.emit z).ring = s.ring := rfl
@[simp] theorem State.emit_cfg : (s.emit z).cfg = s.cfg := rfl
@[simp] theorem State.emit_sel : (s.emit z).sel = s.sel := rfl
@[simp] theorem State.emit_inbox : (s.emit z).inbox = s.inbox := rfl
@[simp] theorem State.emit_outbox : (s.emit z).outbox = s.outbox ++ [z] := rfl

@[simp] theorem State.takeLine_apu : (s.takeLine l ls).apu = s.apu := rfl
@[simp] theorem State.takeLine_ring : (s.takeLine l ls).ring = s.ring := rfl
@[simp] theorem State.takeLine_cfg : (s.takeLine l ls).cfg = s.cfg := rfl
@[simp] theorem State.takeLine_sel : (s.takeLine l ls).sel = l.voice := rfl
@[simp] theorem State.takeLine_inbox : (s.takeLine l ls).inbox = ls := rfl
@[simp] theorem State.takeLine_outbox : (s.takeLine l ls).outbox = s.outbox := rfl

@[simp] theorem State.withSelVoice_mem : (s.withSelVoice x).apu.mem = s.apu.mem := rfl
@[simp] theorem State.withSelVoice_dsp : (s.withSelVoice x).apu.dsp = s.apu.dsp.setVoice s.sel x := rfl
@[simp] theorem State.withSelVoice_ring : (s.withSelVoice x).ring = s.ring := rfl
@[simp] theorem State.withSelVoice_cfg : (s.withSelVoice x).cfg = s.cfg := rfl
@[simp] theorem State.withSelVoice_sel : (s.withSelVoice x).sel = s.sel := rfl
@[simp] theorem State.withSelVoice_inbox : (s.withSelVoice x).inbox = s.inbox := rfl
@[simp] theorem State.withSelVoice_outbox : (s.withSelVoice x).outbox = s.outbox := rfl

theorem State.withSelDec_eq : s.withSelDec c = s.withSelVoice { s.selVoice with dec := c } := rfl
theorem State.withSelEnv_eq : s.withSelEnv e = s.withSelVoice { s.selVoice with env := e } := rfl
theorem State.selVoice_eq : s.selVoice = s.voice s.sel := rfl

end State

section Dsp
variable (d : Dsp) (a b : RegAddr) (y : Byte) (v w : VoiceIx) (x x' : Voice)

@[simp] theorem Dsp.setReg_voices : (d.setReg a y).voices = d.voices := rfl
@[simp] theorem Dsp.setReg_counter : (d.setReg a y).counter = d.counter := rfl
@[simp] theorem Dsp.setReg_noise : (d.setReg a y).noise = d.noise := rfl
@[simp] theorem Dsp.setReg_echoPos : (d.setReg a y).echoPos = d.echoPos := rfl
@[simp] theorem Dsp.setReg_histL : (d.setReg a y).histL = d.histL := rfl
@[simp] theorem Dsp.setReg_histR : (d.setReg a y).histR = d.histR := rfl
@[simp] theorem Dsp.setReg_hpos : (d.setReg a y).hpos = d.hpos := rfl
@[simp] theorem Dsp.setReg_voice : (d.setReg a y).voice v = d.voice v := rfl

@[simp] theorem Dsp.setVoice_regs : (d.setVoice v x).regs = d.regs := rfl
@[simp] theorem Dsp.setVoice_counter : (d.setVoice v x).counter = d.counter := rfl
@[simp] theorem Dsp.setVoice_noise : (d.setVoice v x).noise = d.noise := rfl
@[simp] theorem Dsp.setVoice_echoPos : (d.setVoice v x).echoPos = d.echoPos := rfl
@[simp] theorem Dsp.setVoice_histL : (d.setVoice v x).histL = d.histL := rfl
@[simp] theorem Dsp.setVoice_histR : (d.setVoice v x).histR = d.histR := rfl
@[simp] theorem Dsp.setVoice_hpos : (d.setVoice v x).hpos = d.hpos := rfl
@[simp] theorem Dsp.setVoice_reg : (d.setVoice v x).reg a = d.reg a := rfl

@[simp] theorem Dsp.reg_setReg_same : (d.setReg a y).reg a = y := by
  simp [Dsp.reg, Dsp.setReg]

theorem Dsp.reg_setReg_ne (h : b ≠ a) : (d.setReg a y).reg b = d.reg b := by
  have : a.toNat ≠ b.toNat := fun e => h (BitVec.eq_of_toNat_eq e.symm)
  simp [Dsp.reg, Dsp.setReg, Vector.getElem_set_ne _ _ this]

@[simp] theorem Dsp.voice_setVoice_same : (d.setVoice v x).voice v = x := by
  simp [Dsp.voice, Dsp.setVoice]

theorem Dsp.voice_setVoice_ne (h : w ≠ v) : (d.setVoice v x).voice w = d.voice w := by
  have : v.val ≠ w.val := fun e => h (Fin.ext e.symm)
  simp [Dsp.voice, Dsp.setVoice, Vector.getElem_set_ne _ _ this]

theorem Dsp.voice_setVoice : (d.setVoice v x).voice w = if w = v then x else d.voice w := by
  by_cases h : w = v
  · subst h; simp
  · simp [h, Dsp.voice_setVoice_ne d v w x h]

theorem Dsp.setVoice_setReg_comm :
    (d.setReg a y).setVoice v x = (d.setVoice v x).setReg a y := rfl

theorem Dsp.setVoice_setVoice_same : (d.setVoice v x).setVoice v x' = d.setVoice v x' := by
  simp [Dsp.setVoice, Vector.set_set]

theorem Dsp.setVoice_voice : d.setVoice v (d.voice v) = d := by
  simp [Dsp.setVoice, Dsp.voice]

/-- Two Dsps with the same voices are the same in every voice, and conversely. -/
theorem Dsp.voices_ext (d e : Dsp) (h : ∀ v, d.voice v = e.voice v) : d.voices = e.voices := by
  apply Vector.ext
  intro i hi
  exact h ⟨i, hi⟩

end Dsp

/-! ### The frame of replacing the selected voice -/

theorem State.voice_withSelVoice (s : State) (x : Voice) : (s.withSelVoice x).voice s.sel = x := by
  simp [State.voice]

theorem State.voice_withSelVoice_ne (s : State) (x : Voice) (w : VoiceIx) (h : w ≠ s.sel) :
    (s.withSelVoice x).voice w = s.voice w := by
  simp [State.voice, Dsp.voice_setVoice_ne _ _ _ _ h]

/-- Replacing the selected voice changes nothing else. -/
theorem onlyVoice_withSelVoice (s : State) (x : Voice) : OnlyVoice s.sel s (s.withSelVoice x) := by
  refine ⟨fun _ => rfl, ⟨rfl, rfl, rfl, rfl⟩, ⟨rfl, rfl, rfl, rfl, rfl, rfl⟩, fun _ => rfl, ?_⟩
  intro w h
  exact s.voice_withSelVoice_ne x w h

/-- Returning a result changes no unit. -/
theorem onlyVoice_emit (s t : State) (v : VoiceIx) (r : Result) (h : OnlyVoice v s t) :
    OnlyVoice v s (t.emit r) := h

end Sys2Proof.Machine
end

