-- ==== Sys2Proof/Laws/Memory.lean ====
section
/-! SUPPORT. Memory: reads after writes, and the canonical form under every memory operation. -/

namespace Sys2Proof.Machine

theorem Memory.get_of_wfFrom_lt (m : Memory) (lo a : Nat) (h : Memory.wfFrom lo m = true) (ha : a < lo) :
    Memory.get m a = Config.unlistedByte := by
  induction m generalizing lo with
  | nil => rfl
  | cons c t ih =>
    obtain ⟨k, v⟩ := c
    simp only [Memory.wfFrom, Bool.and_eq_true, decide_eq_true_eq] at h
    have : a ≠ k := by omega
    simp only [Memory.get, this, if_false]
    exact ih (k + 1) h.2 (by omega)

theorem Memory.get_set_same (m : Memory) (a : Nat) (b : Byte) (lo : Nat)
    (h : Memory.wfFrom lo m = true) : Memory.get (Memory.set m a b) a = b := by
  induction m generalizing lo with
  | nil => by_cases hb : b = Config.unlistedByte <;> simp [Memory.set, Memory.get, hb]
  | cons c t ih =>
    obtain ⟨k, v⟩ := c
    simp only [Memory.wfFrom, Bool.and_eq_true, decide_eq_true_eq] at h
    by_cases h1 : a < k
    · by_cases hb : b = Config.unlistedByte
      · have hne : a ≠ k := by omega
        simp only [Memory.set, h1, hb, if_true, Memory.get, hne, if_false]
        exact Memory.get_of_wfFrom_lt t (k + 1) a h.2 (by omega)
      · simp [Memory.set, h1, hb, Memory.get]
    · by_cases h2 : a = k
      · subst h2
        by_cases hb : b = Config.unlistedByte
        · simp only [Memory.set, lt_irrefl, if_false, if_true, hb]
          exact Memory.get_of_wfFrom_lt t (a + 1) a h.2 (by omega)
        · simp [Memory.set, hb, Memory.get]
      · simp only [Memory.set, h1, h2, if_false, Memory.get]
        exact ih (k + 1) h.2

theorem Memory.get_set_ne (m : Memory) (a a' : Nat) (b : Byte) (ha : a' ≠ a) :
    Memory.get (Memory.set m a b) a' = Memory.get m a' := by
  induction m with
  | nil => by_cases hb : b = Config.unlistedByte <;> simp [Memory.set, Memory.get, hb, ha]
  | cons c t ih =>
    obtain ⟨k, v⟩ := c
    by_cases h1 : a < k
    · by_cases hb : b = Config.unlistedByte <;> simp [Memory.set, h1, hb, Memory.get, ha]
    · by_cases h2 : a = k
      · subst h2
        by_cases hb : b = Config.unlistedByte <;> simp [Memory.set, hb, Memory.get, ha]
      · simp only [Memory.set, h1, h2, if_false, Memory.get, ih]

theorem Memory.wfFrom_mono (m : Memory) (lo lo' : Nat) (h : Memory.wfFrom lo m = true) (hl : lo' ≤ lo) :
    Memory.wfFrom lo' m = true := by
  cases m with
  | nil => rfl
  | cons c t =>
    simp only [Memory.wfFrom, Bool.and_eq_true, decide_eq_true_eq] at h ⊢
    exact ⟨⟨⟨by omega, h.1.1.2⟩, h.1.2⟩, h.2⟩

theorem Memory.wfFrom_set (m : Memory) (lo a : Nat) (b : Byte) (h : Memory.wfFrom lo m = true)
    (hlo : lo ≤ a) (ha : a < 65536) : Memory.wfFrom lo (Memory.set m a b) = true := by
  induction m generalizing lo with
  | nil =>
    by_cases hb : b = Config.unlistedByte <;> simp [Memory.set, Memory.wfFrom, hb, hlo, ha]
  | cons c t ih =>
    obtain ⟨k, v⟩ := c
    have h' := h
    simp only [Memory.wfFrom, Bool.and_eq_true, decide_eq_true_eq] at h
    obtain ⟨⟨⟨hk, hk2⟩, hv⟩, ht⟩ := h
    by_cases h1 : a < k
    · by_cases hb : b = Config.unlistedByte
      · simp only [Memory.set, h1, hb, if_true]; exact h'
      · have hak : a + 1 ≤ k := h1
        simp [Memory.set, h1, hb, Memory.wfFrom, hlo, ha, hak, hk2, hv, ht]
    · by_cases h2 : a = k
      · subst h2
        by_cases hb : b = Config.unlistedByte
        · simp only [Memory.set, lt_irrefl, if_false, if_true, hb]
          exact Memory.wfFrom_mono t (a + 1) lo ht (by omega)
        · simp [Memory.set, hb, Memory.wfFrom, hlo, ha, ht]
      · simp only [Memory.set, h1, h2, if_false, Memory.wfFrom, Bool.and_eq_true, decide_eq_true_eq]
        exact ⟨⟨⟨hk, hk2⟩, hv⟩, ih (k + 1) ht (by omega)⟩

theorem Memory.wfFrom_ofBytes (base : Nat) (bs : List Byte) (h : base + bs.length ≤ 65536) :
    Memory.wfFrom base (Memory.ofBytes base bs) = true := by
  induction bs generalizing base with
  | nil => rfl
  | cons b t ih =>
    have hl : base + 1 + t.length ≤ 65536 := by simp at h; omega
    by_cases hb : b = Config.unlistedByte
    · simp only [Memory.ofBytes, hb, if_true]
      exact Memory.wfFrom_mono _ (base + 1) base (ih (base + 1) hl) (by omega)
    · have : base < 65536 := by simp at h; omega
      simp [Memory.ofBytes, hb, Memory.wfFrom, ih (base + 1) hl, this]

theorem Memory.get_ofBytes_lt (base : Nat) (bs : List Byte) (a : Nat) (h : a < base) :
    Memory.get (Memory.ofBytes base bs) a = Config.unlistedByte := by
  induction bs generalizing base with
  | nil => rfl
  | cons b t ih =>
    have hne : a ≠ base := by omega
    by_cases hb : b = Config.unlistedByte
    · simp only [Memory.ofBytes, hb, if_true]; exact ih (base + 1) (by omega)
    · simp only [Memory.ofBytes, hb, if_false, Memory.get, hne]; exact ih (base + 1) (by omega)

/-- The memory made of a list reads as the list, and as an unlisted address beyond it. -/
theorem Memory.get_ofBytes (base : Nat) (bs : List Byte) (k : Nat) :
    Memory.get (Memory.ofBytes base bs) (base + k) = bs.getD k Config.unlistedByte := by
  induction bs generalizing base k with
  | nil => rfl
  | cons b t ih =>
    cases k with
    | zero =>
      by_cases hb : b = Config.unlistedByte
      · simp only [Memory.ofBytes, hb, if_true]
        simpa using Memory.get_ofBytes_lt (base + 1) t base (by omega)
      · simp [Memory.ofBytes, hb, Memory.get]
    | succ k =>
      have hne : base + (k + 1) ≠ base := by omega
      have e : base + (k + 1) = base + 1 + k := by omega
      by_cases hb : b = Config.unlistedByte
      · simp only [Memory.ofBytes, hb, if_true]; rw [e, ih]; simp
      · simp only [Memory.ofBytes, hb, if_false, Memory.get, hne]; rw [e, ih]; simp

/-! ### Bytes and words -/

theorem memSize_pos (cfg : Config) : 0 < memSize cfg := by simp [memSize]

theorem cell_lt_memSize (cfg : Config) (a : Addr) : cell cfg a < memSize cfg := Nat.mod_lt _ (memSize_pos cfg)

theorem memSize_le (cfg : Config) : memSize cfg ≤ 65536 := by have := cfg.memTop.isLt; simp only [memSize]; omega

theorem cell_lt (cfg : Config) (a : Addr) : cell cfg a < 65536 :=
  lt_of_lt_of_le (cell_lt_memSize cfg a) (memSize_le cfg)

/-- With 65536 bytes every address names a byte of its own (R60). -/
theorem cell_of_full (cfg : Config) (h : cfg.memTop = 0xFFFF) (a : Addr) : cell cfg a = a.toNat := by
  have e : memSize cfg = 65536 := by simp [memSize, h]
  rw [cell, e]; exact Nat.mod_eq_of_lt a.isLt

theorem cell_ne_of_full (cfg : Config) (h : cfg.memTop = 0xFFFF) (a b : Addr) (hab : a ≠ b) :
    cell cfg a ≠ cell cfg b := by
  rw [cell_of_full cfg h, cell_of_full cfg h]; exact fun e => hab (BitVec.eq_of_toNat_eq e)

section Access
variable (cfg : Config) (m : Memory)

theorem readByte_writeByte_same (a : Addr) (b : Byte) (h : Memory.wf m = true) :
    readByte cfg (writeByte cfg m a b) a = b := Memory.get_set_same m (cell cfg a) b 0 h

theorem readByte_writeByte_ne (a a' : Addr) (b : Byte) (h : cell cfg a' ≠ cell cfg a) :
    readByte cfg (writeByte cfg m a b) a' = readByte cfg m a' :=
  Memory.get_set_ne m (cell cfg a) (cell cfg a') b h

theorem Memory.wf_writeByte (a : Addr) (b : Byte) (h : Memory.wf m = true) :
    Memory.wf (writeByte cfg m a b) = true :=
  Memory.wfFrom_set m 0 (cell cfg a) b h (by omega) (cell_lt cfg a)

theorem Memory.wf_memWrite2 (a : Addr) (v : BitVec 16) (h : Memory.wf m = true) :
    Memory.wf (memWrite2 cfg m a v) = true :=
  Memory.wf_writeByte _ _ _ _ (Memory.wf_writeByte _ _ _ _ h)

theorem Memory.wf_ofBytes (bs : List Byte) (h : bs.length ≤ 65536) :
    Memory.wf (Memory.ofBytes 0 bs) = true := Memory.wfFrom_ofBytes 0 bs (by omega)

/-- An image of the memory's size or longer reads as its bytes (R272). -/
theorem readByte_ofBytes (bs : List Byte) (a : Addr) :
    readByte cfg (Memory.ofBytes 0 (bs.take (memSize cfg))) a = bs.getD (cell cfg a) Config.unlistedByte := by
  have h := Memory.get_ofBytes 0 (bs.take (memSize cfg)) (cell cfg a)
  have hc := cell_lt_memSize cfg a
  simpa [readByte, List.getD, List.getElem?_take, hc] using h

theorem readByte_memWrite2_ne (a x : Addr) (v : BitVec 16) (h : cell cfg x ≠ cell cfg a)
    (h1 : cell cfg x ≠ cell cfg (a + 1)) : readByte cfg (memWrite2 cfg m a v) x = readByte cfg m x := by
  rw [memWrite2, readByte_writeByte_ne _ _ _ _ _ h1, readByte_writeByte_ne _ _ _ _ _ h]

theorem readByte_memWrite2_low (hf : cfg.memTop = 0xFFFF) (a : Addr) (v : BitVec 16) (h : Memory.wf m = true) :
    readByte cfg (memWrite2 cfg m a v) a = lowByte v := by
  have : a ≠ a + 1 := by
    intro e
    have := congrArg BitVec.toNat e
    simp only [BitVec.toNat_add] at this
    simp at this
    omega
  rw [memWrite2, readByte_writeByte_ne _ _ _ _ _ (cell_ne_of_full cfg hf _ _ this),
    readByte_writeByte_same _ _ _ _ h]

theorem readByte_memWrite2_high (a : Addr) (v : BitVec 16) (h : Memory.wf m = true) :
    readByte cfg (memWrite2 cfg m a v) (a + 1) = highByte v := by
  rw [memWrite2, readByte_writeByte_same _ _ _ _ (Memory.wf_writeByte _ _ _ _ h)]

/-- A 16-bit value reads back as written, low byte at the lower address (R61, R62). -/
theorem memRead2_memWrite2 (hf : cfg.memTop = 0xFFFF) (a : Addr) (v : BitVec 16) (h : Memory.wf m = true) :
    memRead2 cfg (memWrite2 cfg m a v) a = v := by
  rw [memRead2, readByte_memWrite2_low _ _ hf _ _ h, readByte_memWrite2_high _ _ _ _ h, le16_bytes]

end Access

end Sys2Proof.Machine
end

