-- ==== Sys2Proof/Laws/Arith.lean ====
section
/-! SUPPORT. Configured functions, and the integer primitives of R9: their ranges, and when a 16-bit register
holds a number exactly. -/

namespace Sys2Proof.Machine

/-! ### Configured functions -/

section Configured
variable {α β : Type} [DecidableEq α]

/-- Without exceptions a configured function is the spec's formula. -/
@[simp] theorem configured_nil (x : α) (formula : β) : configured [] x formula = formula := rfl

/-- A configured function gives the formula's value or that of one of its exceptions. -/
theorem configured_cases (f : Exceptions α β) (x : α) (formula : β) :
    configured f x formula = formula ∨ ∃ e ∈ f, configured f x formula = e.2 := by
  unfold configured
  cases h : f.lookup x with
  | none => exact .inl rfl
  | some y =>
    obtain ⟨l, r, e, -⟩ := List.lookup_eq_some_iff.1 h
    exact .inr ⟨(x, y), by simp [e], rfl⟩

/-- What the formula and every exception satisfy, a configured function satisfies. -/
theorem configured_all (p : β → Bool) (f : Exceptions α β) (hf : (f.all fun e => p e.2) = true) (x : α)
    (formula : β) (h : p formula = true) : p (configured f x formula) = true := by
  rcases configured_cases f x formula with e | ⟨y, hy, e⟩ <;> rw [e]
  · exact h
  · exact List.all_eq_true.1 hf y hy

end Configured

/-! ### The integer primitives -/

theorem asr_def (v : Int) (n : Nat) : asr v n = v / 2 ^ n := by simp [asr]

theorem asr_bounds (v : Int) (n : Nat) : asr v n * 2 ^ n ≤ v ∧ v < (asr v n + 1) * 2 ^ n := by
  have h : (0 : Int) < 2 ^ n := by positivity
  rw [asr_def]
  exact ⟨Int.ediv_mul_le v (ne_of_gt h), Int.lt_ediv_add_one_mul_self v h⟩

theorem clamp16_range (v : Int) : -32768 ≤ clamp16 v ∧ clamp16 v ≤ 32767 := by
  unfold clamp16 clamp; split
  · omega
  · split <;> omega

theorem clamp16_of_range (v : Int) (h : -32768 ≤ v) (h' : v ≤ 32767) : clamp16 v = v := by
  unfold clamp16 clamp; split
  · omega
  · split <;> omega

theorem even_range (v : Int) : v - 1 ≤ even v ∧ even v ≤ v := by unfold even; omega

theorem even_even (v : Int) : even v % 2 = 0 := by unfold even; omega

/-- An even bound from below survives `even`. -/
theorem le_even (v lo : Int) (h : lo ≤ v) (hlo : lo % 2 = 0) : lo ≤ even v := by unfold even; omega

theorem wrap16_toInt (v : Int) : (wrap16 v).toInt = v.bmod 65536 := by
  simp [wrap16, BitVec.toInt_ofInt]

theorem wrap16_toInt_of_range (v : Int) (h : -32768 ≤ v) (h' : v ≤ 32767) : (wrap16 v).toInt = v := by
  rw [wrap16_toInt]; exact Int.bmod_eq_of_le (by omega) (by omega)

theorem wrap16_toInt_self (x : Sample) : wrap16 x.toInt = x := by simp [wrap16]

/-- A 16-bit register holds an even number exactly when its bit 0 is 0. -/
theorem evenSample_iff (x : Sample) : evenSample x = true ↔ x.toInt % 2 = 0 := by
  have h : x.getLsbD 0 = decide (x.toNat % 2 = 1) := by
    rw [BitVec.getLsbD, Nat.testBit_zero]
  have ht : x.toInt = if 2 * x.toNat < 2 ^ 16 then (x.toNat : Int) else (x.toNat : Int) - 2 ^ 16 :=
    BitVec.toInt_eq_toNat_cond x
  rw [evenSample, h]
  simp only [Bool.not_eq_true', decide_eq_false_iff_not]
  split at ht <;> omega

theorem evenSample_wrap16 (v : Int) (h : v % 2 = 0) : evenSample (wrap16 v) = true := by
  rw [evenSample_iff, wrap16_toInt]; unfold Int.bmod; simp only; split <;> omega

theorem toInt16_range (x : Sample) : -32768 ≤ x.toInt ∧ x.toInt ≤ 32767 := by
  have := BitVec.toInt_lt (x := x); have := BitVec.le_toInt (x := x); norm_num at *; omega

theorem toInt8_range (b : Byte) : -128 ≤ b.toInt ∧ b.toInt ≤ 127 := by
  have := BitVec.toInt_lt (x := b); have := BitVec.le_toInt (x := b); norm_num at *; omega

theorem level_range (l : Level) : 0 ≤ (l.toNat : Int) ∧ (l.toNat : Int) ≤ 2047 := by
  have := l.isLt; omega

/-- A raw output by a signed volume, by the spec's formula, fits 16 bits (R199). -/
theorem volScale_range (cfg : Config) (hv : cfg.volume = []) (raw : Int) (vol : Byte) (h : -32768 ≤ raw)
    (h' : raw ≤ 32767) (hx : -32768 < raw ∨ vol.toInt ≠ -128) :
    -32768 ≤ volScale cfg raw vol ∧ volScale cfg raw vol ≤ 32767 := by
  have hb := toInt8_range vol
  have e : volScale cfg raw vol = raw * vol.toInt / 128 := by
    simp [volScale, hv, asr_def, s8, volumeShift]
  rw [e]
  have h1 : -(32768 * 128) ≤ raw * vol.toInt ∧ raw * vol.toInt < 32768 * 128 := by
    rcases hx with hx | hx
    · constructor <;> nlinarith
    · have : -127 ≤ vol.toInt := by omega
      constructor <;> nlinarith
  omega

/-- A source sample by a level, by the spec's formula (R194): even, and within -32752..32750. -/
theorem envFormula_range (src : Int) (l : Level) (h : -32768 ≤ src) (h' : src ≤ 32767) :
    -32752 ≤ even (src * (l.toNat : Int) / 2048) ∧ even (src * (l.toNat : Int) / 2048) ≤ 32750 ∧
      even (src * (l.toNat : Int) / 2048) % 2 = 0 := by
  have hl := level_range l
  have h1 : -(32768 * 2047) ≤ src * (l.toNat : Int) ∧ src * (l.toNat : Int) ≤ 32767 * 2047 := by
    constructor <;> nlinarith
  have h2 : -32752 ≤ src * (l.toNat : Int) / 2048 ∧ src * (l.toNat : Int) / 2048 ≤ 32751 := by omega
  have := even_range (src * (l.toNat : Int) / 2048)
  have h3 := even_even (src * (l.toNat : Int) / 2048)
  exact ⟨le_even _ _ h2.1 (by norm_num), by omega, h3⟩

/-- The raw output of a source sample and a level, but for the exceptions configured (R194). -/
theorem envScale_eq (cfg : Config) (src : Int) (l : Level) :
    envScale cfg src l = configured cfg.envScale (src, l) (wrap16 (even (src * (l.toNat : Int) / 2048))) := by
  simp [envScale, asr_def, envScaleShift]

/-- The spec's formula of a raw output, as a number (R194). -/
theorem envScale_toInt (cfg : Config) (he : cfg.envScale = []) (src : Int) (l : Level) (h : -32768 ≤ src)
    (h' : src ≤ 32767) : (envScale cfg src l).toInt = even (src * (l.toNat : Int) / 2048) := by
  have r := envFormula_range src l h h'
  rw [envScale_eq, he, configured_nil]
  exact wrap16_toInt_of_range _ (by omega) (by omega)

/-- Raw outputs stay in R194's range, wherever the exceptions do. -/
theorem envScale_range (cfg : Config) (hr : rawOutputsInRange cfg = true) (src : Int) (l : Level)
    (h : -32768 ≤ src) (h' : src ≤ 32767) : rawInRange (envScale cfg src l) = true := by
  have r := envFormula_range src l h h'
  rw [envScale_eq]
  apply configured_all rawInRange _ hr
  rw [rawInRange, evenSample_wrap16 _ r.2.2, wrap16_toInt_of_range _ (by omega) (by omega)]
  simpa using ⟨r.1, r.2.1⟩

end Sys2Proof.Machine
end

