-- ==== Sys2Proof/Laws/Brr.lean ====
section
/-! SUPPORT. The decoder: what a block's outputs are, what is even, what a pop does. -/

namespace Sys2Proof.Machine

/-- In the default layout BRR.READ takes the fields that the opcode table gives a block (R91). -/
theorem fieldsOf_default (b : Block) :
    filterOf Config.default b = blockFilter b ∧ fieldsOf Config.default b = blockFields b := ⟨rfl, rfl⟩

/-! ### One block -/

theorem evenSample_brrOut (cfg : Config) (h : evenOutputs cfg = true) (v : Int) : evenSample (brrOut cfg v) = true :=
  configured_all evenSample _ h _ _ (evenSample_wrap16 _ (by omega))

theorem evenSample_brrSample (cfg : Config) (h : evenOutputs cfg = true) (filter : BitVec 2) (shift : BitVec 4) (n : Nibble) (h1 h2 : Sample) :
    evenSample (brrSample cfg filter shift n h1 h2) = true := evenSample_brrOut _ h _

/-- Each output is made from its nibble and the two outputs before it, those of the history coming
first (R132). -/
theorem brrDecode_getD (cfg : Config) (filter : BitVec 2) (shift : BitVec 4) (ns : List Nibble) (h1 h2 : Sample) (i : Nat)
    (hi : i < ns.length) :
    (h2 :: h1 :: (brrDecode cfg filter shift ns h1 h2).1).getD (i + 2) 0 =
      brrSample cfg filter shift ns[i]
        ((h2 :: h1 :: (brrDecode cfg filter shift ns h1 h2).1).getD (i + 1) 0)
        ((h2 :: h1 :: (brrDecode cfg filter shift ns h1 h2).1).getD i 0) := by
  induction ns generalizing h1 h2 i with
  | nil => simp at hi
  | cons n ns ih =>
    cases i with
    | zero => simp [brrDecode]
    | succ i =>
      have := ih (brrSample cfg filter shift n h1 h2) h1 i (by simpa using hi)
      simpa [brrDecode] using this

/-- The history after a block: its last two outputs (R132). -/
theorem brrDecode_history (cfg : Config) (filter : BitVec 2) (shift : BitVec 4) (ns : List Nibble) (h1 h2 : Sample) :
    (brrDecode cfg filter shift ns h1 h2).2.1 =
        (h2 :: h1 :: (brrDecode cfg filter shift ns h1 h2).1).getD (ns.length + 1) 0 ∧
      (brrDecode cfg filter shift ns h1 h2).2.2 =
        (h2 :: h1 :: (brrDecode cfg filter shift ns h1 h2).1).getD ns.length 0 := by
  induction ns generalizing h1 h2 with
  | nil => simp [brrDecode]
  | cons n ns ih =>
    have := ih (brrSample cfg filter shift n h1 h2) h1
    simpa [brrDecode] using this

theorem brrDecode_even (cfg : Config) (h : evenOutputs cfg = true) (filter : BitVec 2) (shift : BitVec 4) (ns : List Nibble) (h1 h2 : Sample) :
    ∀ x ∈ (brrDecode cfg filter shift ns h1 h2).1, evenSample x = true := by
  induction ns generalizing h1 h2 with
  | nil => simp [brrDecode]
  | cons n ns ih =>
    intro x hx
    simp only [brrDecode, List.mem_cons] at hx
    rcases hx with rfl | hx
    · exact evenSample_brrSample _ h _ _ _ _ _
    · exact ih _ _ x hx

section Read
variable (d : Decoder) (cfg : Config) (filter : BitVec 2) (f : BlockFields)

@[simp] theorem Decoder.readFields_idx : (d.readFields cfg filter f).idx = 0 := rfl
@[simp] theorem Decoder.readFields_endFlag : (d.readFields cfg filter f).endFlag = f.endFlag := rfl
@[simp] theorem Decoder.readFields_loopFlag : (d.readFields cfg filter f).loopFlag = f.loopFlag := rfl

theorem Decoder.readFields_toList :
    (d.readFields cfg filter f).buf.toList = (brrDecode cfg filter f.shift f.nibbles.toList d.h1 d.h2).1 := by
  simp [Decoder.readFields, Vector.toList]

/-- The recurrence of R132 on the outputs in time order. -/
theorem Decoder.readFields_getD (i : Fin 16) :
    (outputsInTime d (d.readFields cfg filter f)).getD (i.val + 2) 0 =
      brrSample cfg filter f.shift f.nibbles[i.val]
        ((outputsInTime d (d.readFields cfg filter f)).getD (i.val + 1) 0)
        ((outputsInTime d (d.readFields cfg filter f)).getD i.val 0) := by
  rw [outputsInTime, Decoder.readFields_toList]
  have := brrDecode_getD cfg filter f.shift f.nibbles.toList d.h1 d.h2 i.val (by simp)
  simpa using this

theorem Decoder.readFields_h1 : (d.readFields cfg filter f).h1 = (d.readFields cfg filter f).buf[15] := by
  have h := (brrDecode_history cfg filter f.shift f.nibbles.toList d.h1 d.h2).1
  rw [← Decoder.readFields_toList] at h
  have e : (d.readFields cfg filter f).h1 = (brrDecode cfg filter f.shift f.nibbles.toList d.h1 d.h2).2.1 := rfl
  rw [e, h]; simp

theorem Decoder.readFields_h2 : (d.readFields cfg filter f).h2 = (d.readFields cfg filter f).buf[14] := by
  have h := (brrDecode_history cfg filter f.shift f.nibbles.toList d.h1 d.h2).2
  rw [← Decoder.readFields_toList] at h
  have e : (d.readFields cfg filter f).h2 = (brrDecode cfg filter f.shift f.nibbles.toList d.h1 d.h2).2.2 := rfl
  rw [e, h]; simp

/-- Every buffered output is even (R145). -/
theorem Decoder.readFields_even (h : evenOutputs cfg = true) (i : Fin 16) : evenSample (d.readFields cfg filter f).buf[i.val] = true := by
  apply brrDecode_even cfg h filter f.shift f.nibbles.toList d.h1 d.h2
  rw [← Decoder.readFields_toList]
  simp

/-- What a block decodes to depends on the decoder through its history only (R143). -/
theorem Decoder.readFields_history (d' : Decoder) (h1 : d.h1 = d'.h1) (h2 : d.h2 = d'.h2) :
    d.readFields cfg filter f = d'.readFields cfg filter f := by
  simp [Decoder.readFields, h1, h2]

end Read

/-- A pop returns the next output and moves the cursor (R140). -/
theorem Decoder.pop_of_lt (d : Decoder) (h : d.idx.val < 16) :
    d.pop = some (d.buf[d.idx.val], { d with idx := ⟨d.idx.val + 1, by omega⟩ }) := by
  simp [Decoder.pop, h]

theorem Decoder.pop_exhausted (d : Decoder) (h : d.idx = 16) : d.pop = none := by
  simp [Decoder.pop, h]

theorem Decoder.finished_iff (d : Decoder) : d.finished = true ↔ ¬ d.idx.val < 16 := by
  have := d.idx.isLt
  simp only [Decoder.finished, decide_eq_true_eq, Fin.ext_iff]
  norm_num
  omega

end Sys2Proof.Machine
end

