-- ==== Sys2Proof/Laws/Voice.lean ====
section
/-! SUPPORT. The envelope's tick and the voice's sequencer: what they leave alone, and what a voice
keeps. -/

namespace Sys2Proof.Machine

/-! ### The envelope -/

section Env
variable (cfg : Config) (c : Counter) (e : Envelope)

@[simp] theorem Envelope.tick_adsr1 : (e.tick cfg c).adsr1 = e.adsr1 := by unfold Envelope.tick; split <;> rfl
@[simp] theorem Envelope.tick_adsr2 : (e.tick cfg c).adsr2 = e.adsr2 := by unfold Envelope.tick; split <;> rfl
@[simp] theorem Envelope.tick_gain : (e.tick cfg c).gain = e.gain := by unfold Envelope.tick; split <;> rfl

/-- The range clamp by the spec's formula (R171). -/
theorem clampCandidate_eq (h : cfg.levelClamp = []) (x : Candidate) : clampCandidate cfg x =
    if levelMax < x.env ∨ x.env < 0 then
      { mode := if x.mode = .attack then .decay else x.mode, env := if x.env < 0 then 0 else levelMax, rate := x.rate }
    else x := by
  rw [clampCandidate, h, configured_nil]; split <;> rfl

/-- The commit by the spec's formula (R172). -/
theorem commitCandidate_eq (h : cfg.commit = []) (fired : Bool) (x : Candidate) : commitCandidate cfg fired e x =
    (x.mode, if fired then BitVec.ofInt 11 x.env else e.level) := by
  rw [commitCandidate, h, configured_nil]

/-- Outside Release a tick commits the clamped candidate; by the spec's formula the mode always, the level when the
rate fires (R172). -/
theorem Envelope.tick_eq (h : cfg.commit = []) (hm : e.mode ≠ .release) : e.tick cfg c =
    { e with
      mode := (clampCandidate cfg (candidate cfg e)).mode
      level := if fires cfg (clampCandidate cfg (candidate cfg e)).rate c.toNat
        then BitVec.ofInt 11 (clampCandidate cfg (candidate cfg e)).env else e.level } := by
  simp only [Envelope.tick, if_neg hm, commitCandidate_eq cfg e h]

/-- In Release a tick lowers the level by the step, to 0 (R164). -/
theorem Envelope.tick_release (h : cfg.release = []) (hm : e.mode = .release) : e.tick cfg c =
    { e with level := BitVec.ofInt 11 (max ((e.level.toNat : Int) - releaseStep) 0) } := by
  simp only [Envelope.tick, if_pos hm, releaseOf, h, configured_nil]

/-- The clamped candidate is a level (R171). -/
theorem clampCandidate_range (h : cfg.levelClamp = []) (x : Candidate) :
    0 ≤ (clampCandidate cfg x).env ∧ (clampCandidate cfg x).env ≤ 2047 := by
  rw [clampCandidate_eq cfg h]
  split
  · dsimp only [levelMax]; split <;> omega
  · rename_i hx; simp only [levelMax] at hx; omega

theorem level_ofInt (v : Int) (h : 0 ≤ v) (h' : v ≤ 2047) : ((BitVec.ofInt 11 v).toNat : Int) = v := by
  rw [BitVec.toNat_ofInt]; norm_num; omega

end Env

/-! ### The sequencer -/

/-- The decoder after a pop from `idx < 16`. -/
def Decoder.popped (d : Decoder) (h : d.idx.val < 16) : Decoder := { d with idx := ⟨d.idx.val + 1, by omega⟩ }

theorem Voice.advance_of_lt (cfg : Config) (m : Memory) (v : Voice) (h : v.dec.idx.val < 16) :
    Voice.advance cfg m v = { v with cur := v.nxt, nxt := v.dec.buf[v.dec.idx.val], dec := v.dec.popped h } := by
  have hf : v.dec.finished = false := by
    rw [Bool.eq_false_iff]; intro hc; exact (v.dec.finished_iff.1 hc) h
  simp [Voice.advance, Voice.refill, hf, Voice.shiftSample, Decoder.pop_of_lt _ h, Decoder.popped]

/-- Where the block that follows an exhausted one is fetched (R197). -/
def Voice.nextBlock (v : Voice) : Addr := if v.dec.endsWithLoop then v.loopStart else v.sampleAddress

theorem Voice.advance_of_finished (cfg : Config) (m : Memory) (v : Voice) (h : v.dec.idx = 16) :
    Voice.advance cfg m v =
      { v with
        cur := v.nxt
        nxt := (v.dec.read cfg (memReadBlock cfg m v.nextBlock)).buf[0]
        dec := { v.dec.read cfg (memReadBlock cfg m v.nextBlock) with idx := 1 }
        sampleAddress := v.nextBlock + 9 } := by
  have hf : v.dec.finished = true := by simp [Decoder.finished, h]
  cases hl : v.dec.endsWithLoop <;>
    simp [Voice.advance, Voice.refill, hf, hl, Voice.shiftSample, Voice.fetchBlock, Voice.nextBlock,
      Decoder.read, Decoder.pop]

theorem Voice.idx_cases (v : Voice) : v.dec.idx.val < 16 ∨ v.dec.idx = 16 := by
  have := v.dec.idx.isLt
  by_cases h : v.dec.idx.val < 16
  · exact .inl h
  · exact .inr (Fin.ext (by simpa using (show v.dec.idx.val = 16 by omega)))

/-- What `advance` leaves alone: everything but the decoder, the sample address and the two samples. -/
structure Voice.SeqFrame (v w : Voice) : Prop where
  env : w.env = v.env
  voll : w.voll = v.voll
  volr : w.volr = v.volr
  pitchl : w.pitchl = v.pitchl
  pitchh : w.pitchh = v.pitchh
  srcn : w.srcn = v.srcn
  pmon : w.pmon = v.pmon
  non : w.non = v.non
  eon : w.eon = v.eon
  startAddress : w.startAddress = v.startAddress
  loopStart : w.loopStart = v.loopStart
  pos : w.pos = v.pos
  rawOut : w.rawOut = v.rawOut

theorem Voice.SeqFrame.trans {u v w : Voice} (h : Voice.SeqFrame u v) (k : Voice.SeqFrame v w) :
    Voice.SeqFrame u w := by
  cases h; cases k
  constructor <;> simp_all only

theorem Voice.advance_frame (cfg : Config) (m : Memory) (v : Voice) : Voice.SeqFrame v (Voice.advance cfg m v) := by
  rcases v.idx_cases with h | h
  · rw [Voice.advance_of_lt cfg m v h]; constructor <;> rfl
  · rw [Voice.advance_of_finished cfg m v h]; constructor <;> rfl

theorem Voice.advanceTimes_frame (cfg : Config) (m : Memory) (n : Nat) (v : Voice) :
    Voice.SeqFrame v (Voice.advanceTimes cfg m n v) := by
  induction n generalizing v with
  | zero => constructor <;> rfl
  | succ n ih => exact (Voice.advance_frame cfg m v).trans (ih _)

/-- With enough outputs buffered, no block is fetched. -/
theorem Voice.advanceTimes_no_fetch (cfg : Config) (m : Memory) (n : Nat) (v : Voice) (h : v.dec.idx.val + n ≤ 16) :
    (Voice.advanceTimes cfg m n v).sampleAddress = v.sampleAddress := by
  induction n generalizing v with
  | zero => rfl
  | succ n ih =>
    have hi : v.dec.idx.val < 16 := by omega
    rw [Voice.advanceTimes, Voice.advance_of_lt cfg m v hi, ih]
    simp only [Decoder.popped]; omega

/-- At most one block is fetched by up to sixteen advances (R65, C7). -/
theorem Voice.advanceTimes_fetch (cfg : Config) (m : Memory) (n : Nat) (v : Voice) (h : n ≤ 16) :
    (Voice.advanceTimes cfg m n v).sampleAddress = v.sampleAddress ∨
    (Voice.advanceTimes cfg m n v).sampleAddress = v.sampleAddress + 9 ∨
    (Voice.advanceTimes cfg m n v).sampleAddress = v.loopStart + 9 := by
  induction n generalizing v with
  | zero => exact .inl rfl
  | succ n ih =>
    rcases v.idx_cases with hi | hi
    · rw [Voice.advanceTimes, Voice.advance_of_lt cfg m v hi]
      exact ih _ (by omega)
    · rw [Voice.advanceTimes, Voice.advance_of_finished cfg m v hi,
        Voice.advanceTimes_no_fetch cfg m n _ (by show 1 + n ≤ 16; omega)]
      simp only [Voice.nextBlock]
      split
      · exact .inr (.inr rfl)
      · exact .inr (.inl rfl)

/-- What `n` advances give while enough outputs are buffered: each takes one output, in order (R197). -/
theorem Voice.advanceTimes_pops (cfg : Config) (m : Memory) (n : Nat) (v : Voice) (h : v.dec.idx.val + n ≤ 16) :
    (Voice.advanceTimes cfg m n v).dec.idx.val = v.dec.idx.val + n ∧
      (Voice.advanceTimes cfg m n v).dec.buf = v.dec.buf ∧
      (Voice.advanceTimes cfg m n v).dec.h1 = v.dec.h1 ∧ (Voice.advanceTimes cfg m n v).dec.h2 = v.dec.h2 ∧
      (Voice.advanceTimes cfg m n v).dec.endFlag = v.dec.endFlag ∧
      (Voice.advanceTimes cfg m n v).dec.loopFlag = v.dec.loopFlag ∧
      (Voice.advanceTimes cfg m n v).sampleAddress = v.sampleAddress ∧
      samplesAhead (Voice.advanceTimes cfg m n v) = (samplesAhead v).drop n := by
  induction n generalizing v with
  | zero => simp [Voice.advanceTimes]
  | succ n ih =>
    have hi : v.dec.idx.val < 16 := by omega
    have := ih { v with cur := v.nxt, nxt := v.dec.buf[v.dec.idx.val], dec := v.dec.popped hi }
      (by simp only [Decoder.popped]; omega)
    rw [Voice.advanceTimes, Voice.advance_of_lt cfg m v hi]
    refine ⟨by rw [this.1]; simp only [Decoder.popped]; omega, this.2.1, this.2.2.1, this.2.2.2.1, this.2.2.2.2.1,
      this.2.2.2.2.2.1, this.2.2.2.2.2.2.1, ?_⟩
    rw [this.2.2.2.2.2.2.2, samplesAhead, samplesAhead, List.drop_succ_cons, Decoder.popped]
    congr 2
    rw [List.drop_eq_getElem_cons (i := v.dec.idx.val) (by simp [hi])]
    simp

/-! ### What a voice keeps -/

theorem Voice.advance_even (cfg : Config) (m : Memory) (v : Voice) (he : evenOutputs cfg = true)
    (h : v.evenSamples) : (Voice.advance cfg m v).evenSamples := by
  obtain ⟨hb, hc, hn⟩ := h
  rcases v.idx_cases with hi | hi
  · rw [Voice.advance_of_lt cfg m v hi]; exact ⟨hb, hn, hb ⟨_, hi⟩⟩
  · rw [Voice.advance_of_finished cfg m v hi]
    exact ⟨Decoder.readFields_even _ _ _ _ he, hn, Decoder.readFields_even _ _ _ _ he 0⟩

theorem Voice.advanceTimes_even (cfg : Config) (m : Memory) (n : Nat) (v : Voice) (he : evenOutputs cfg = true) (h : v.evenSamples) :
    (Voice.advanceTimes cfg m n v).evenSamples := by
  induction n generalizing v with
  | zero => exact h
  | succ n ih => exact ih _ (Voice.advance_even cfg m v he h)

/-- The source sample fits 16 bits (R193). -/
theorem Voice.sourceSample_range (cfg : Config) (v : Voice) (noise : BitVec 16) :
    -32768 ≤ v.sourceSample cfg noise ∧ v.sourceSample cfg noise ≤ 32767 := by
  unfold Voice.sourceSample
  split <;> exact toInt16_range _

/-- The voice after a render, part by part: the envelope ticked and perhaps silenced, the sequencer
advanced, the position and the raw output set. -/
theorem Voice.render_voice (cfg : Config) (m : Memory) (last : Sample) (noise : BitVec 16) (c : Counter)
    (v : Voice) :
    (v.render cfg m last noise c).voice =
      { Voice.advanceTimes cfg m ((v.pos.toNat + (v.effectivePitch cfg last.toInt).toNat) / wholeStep)
          ({ v with env := v.env.tick cfg c } : Voice).autoSilence with
        pos := BitVec.ofNat 12 ((v.pos.toNat + (v.effectivePitch cfg last.toInt).toNat) % wholeStep)
        rawOut := envScale cfg (v.sourceSample cfg noise) (v.env.tick cfg c).level } := by
  have h : (({ v with env := v.env.tick cfg c } : Voice).autoSilence).pos = v.pos := by
    unfold Voice.autoSilence; split <;> rfl
  simp only [Voice.render, Voice.step5, h]

@[simp] theorem Voice.render_raw (cfg : Config) (m : Memory) (last : Sample) (noise : BitVec 16) (c : Counter)
    (v : Voice) : (v.render cfg m last noise c).raw =
      envScale cfg (v.sourceSample cfg noise) (v.env.tick cfg c).level := rfl

/-- The mirrors and the addresses that a render leaves alone (R190, R191). -/
structure Voice.RenderFrame (v w : Voice) : Prop where
  adsr1 : w.env.adsr1 = v.env.adsr1
  adsr2 : w.env.adsr2 = v.env.adsr2
  gain : w.env.gain = v.env.gain
  voll : w.voll = v.voll
  volr : w.volr = v.volr
  pitchl : w.pitchl = v.pitchl
  pitchh : w.pitchh = v.pitchh
  srcn : w.srcn = v.srcn
  pmon : w.pmon = v.pmon
  non : w.non = v.non
  eon : w.eon = v.eon
  startAddress : w.startAddress = v.startAddress
  loopStart : w.loopStart = v.loopStart

theorem Voice.autoSilence_eq (v : Voice) :
    v.autoSilence = { v with env := if v.dec.endsWithoutLoop then v.env.silence else v.env } := by
  unfold Voice.autoSilence; split <;> rfl

theorem Voice.render_frame (cfg : Config) (m : Memory) (last : Sample) (noise : BitVec 16) (c : Counter)
    (v : Voice) : Voice.RenderFrame v (v.render cfg m last noise c).voice := by
  rw [Voice.render_voice]
  have f := Voice.advanceTimes_frame cfg m ((v.pos.toNat + (v.effectivePitch cfg last.toInt).toNat) / wholeStep)
    ({ v with env := v.env.tick cfg c } : Voice).autoSilence
  rw [Voice.autoSilence_eq] at f ⊢
  constructor
  · rw [f.env]; dsimp only; split <;> simp [Envelope.silence]
  · rw [f.env]; dsimp only; split <;> simp [Envelope.silence]
  · rw [f.env]; dsimp only; split <;> simp [Envelope.silence]
  · exact f.voll
  · exact f.volr
  · exact f.pitchl
  · exact f.pitchh
  · exact f.srcn
  · exact f.pmon
  · exact f.non
  · exact f.eon
  · exact f.startAddress
  · exact f.loopStart

/-- A render keeps what is true of a voice, from any raw output (R145, R194). -/
theorem Voice.render_ok (cfg : Config) (m : Memory) (last : Sample) (noise : BitVec 16) (c : Counter)
    (v : Voice) (h : evenOutputs cfg = true → v.evenSamples) : (v.render cfg m last noise c).voice.ok cfg := by
  have hs := Voice.sourceSample_range cfg v noise
  rw [Voice.render_voice]
  refine ⟨fun he => ?_, fun hr => envScale_range cfg hr _ _ hs.1 hs.2⟩
  have ha : (({ v with env := v.env.tick cfg c } : Voice).autoSilence).evenSamples := by
    rw [Voice.autoSilence_eq]; exact h he
  exact Voice.advanceTimes_even cfg m ((v.pos.toNat + (v.effectivePitch cfg last.toInt).toNat) / wholeStep) _ he ha

/-! ### Key-on -/

/-- A voice after key-on, field by field (R200). -/
theorem Voice.keyOn_eq (cfg : Config) (m : Memory) (dir : Byte) (v : Voice) :
    v.keyOn cfg m dir =
      { v with
        dec := { (v.dec.seed 0 0).read cfg (memReadBlock cfg m (memRead2 cfg m (directoryEntry cfg dir v.srcn).1)) with idx := 1 }
        env := v.env.keyOn
        startAddress := memRead2 cfg m (directoryEntry cfg dir v.srcn).1
        loopStart := memRead2 cfg m (directoryEntry cfg dir v.srcn).2
        sampleAddress := memRead2 cfg m (directoryEntry cfg dir v.srcn).1 + 9
        pos := 0
        cur := 0
        nxt := ((v.dec.seed 0 0).read cfg (memReadBlock cfg m (memRead2 cfg m (directoryEntry cfg dir v.srcn).1))).buf[0] } := by
  simp only [Voice.keyOn, Voice.fetchBlock]
  rw [Voice.advance_of_lt cfg m _ (show (0 : Nat) < 16 by norm_num)]
  rfl

theorem evenSample_zero : evenSample 0 = true := by decide

theorem Voice.keyOn_ok (cfg : Config) (m : Memory) (dir : Byte) (v : Voice) (h : v.ok cfg) :
    (v.keyOn cfg m dir).ok cfg := by
  rw [Voice.keyOn_eq]
  exact ⟨fun he => ⟨Decoder.readFields_even _ _ _ _ he, evenSample_zero, Decoder.readFields_even _ _ _ _ he 0⟩, h.2⟩

end Sys2Proof.Machine
end

