-- ==== Sys2Proof/Laws/Dsp.lean ====
section
/-! SUPPORT. The Dsp: what the walks over the eight voices do, voice by voice, and what they leave
alone. -/

namespace Sys2Proof.Machine

/-- Same as `d` in everything but the voices. -/
def Dsp.SameGlobals (d e : Dsp) : Prop := e = { d with voices := e.voices }

theorem Dsp.SameGlobals.refl (d : Dsp) : d.SameGlobals d := rfl

theorem Dsp.SameGlobals.setVoice {d e : Dsp} (h : d.SameGlobals e) (v : VoiceIx) (x : Voice) :
    d.SameGlobals (e.setVoice v x) := by
  rw [Dsp.SameGlobals] at h ⊢; rw [h]; rfl

section Same
variable {d e : Dsp} (h : d.SameGlobals e)
include h
theorem Dsp.SameGlobals.regs : e.regs = d.regs := by rw [h]
theorem Dsp.SameGlobals.reg (a : RegAddr) : e.reg a = d.reg a := by rw [h]; rfl
theorem Dsp.SameGlobals.counter : e.counter = d.counter := by rw [h]
theorem Dsp.SameGlobals.noise : e.noise = d.noise := by rw [h]
theorem Dsp.SameGlobals.echoPos : e.echoPos = d.echoPos := by rw [h]
theorem Dsp.SameGlobals.histL : e.histL = d.histL := by rw [h]
theorem Dsp.SameGlobals.histR : e.histR = d.histR := by rw [h]
theorem Dsp.SameGlobals.hpos : e.hpos = d.hpos := by rw [h]
end Same

/-! ### Changing voices one by one -/

theorem Dsp.foldl_mapVoice_globals (f : VoiceIx → Voice → Voice) (l : List VoiceIx) (d e : Dsp)
    (h : d.SameGlobals e) : d.SameGlobals (l.foldl (fun x v => x.mapVoice v (f v)) e) := by
  induction l generalizing e with
  | nil => exact h
  | cons v l ih => exact ih _ (h.setVoice v _)

theorem Dsp.foldl_mapVoice_voice (f : VoiceIx → Voice → Voice) (l : List VoiceIx) (hl : l.Nodup) (d : Dsp)
    (w : VoiceIx) : (l.foldl (fun x v => x.mapVoice v (f v)) d).voice w =
      if w ∈ l then f w (d.voice w) else d.voice w := by
  induction l generalizing d with
  | nil => simp
  | cons v l ih =>
    rw [List.nodup_cons] at hl
    rw [List.foldl_cons, ih hl.2, Dsp.mapVoice, Dsp.voice_setVoice]
    by_cases h : w = v
    · subst h; simp [hl.1]
    · simp [h]

theorem allVoices_nodup : allVoices.Nodup := by decide
theorem mem_allVoices (v : VoiceIx) : v ∈ allVoices := by revert v; decide

theorem Dsp.copyMask_voice (f : Bool → Voice → Voice) (mask : Byte) (d : Dsp) (w : VoiceIx) :
    (d.copyMask f mask).voice w = f (maskBit mask w) (d.voice w) := by
  rw [Dsp.copyMask, Dsp.foldl_mapVoice_voice (fun v => f (maskBit mask v)) _ allVoices_nodup,
    if_pos (mem_allVoices w)]

theorem Dsp.copyMask_globals (f : Bool → Voice → Voice) (mask : Byte) (d : Dsp) :
    d.SameGlobals (d.copyMask f mask) :=
  Dsp.foldl_mapVoice_globals (fun v => f (maskBit mask v)) _ d d (.refl d)

/-- What key-on does to voice `v` (R235). -/
def fanVoice (mask : Byte) (f : Voice → Voice) (v : VoiceIx) (x : Voice) : Voice :=
  if maskBit mask v then f x else x

theorem mapVoice_fanVoice (mask : Byte) (f : Voice → Voice) (v : VoiceIx) (d : Dsp) :
    d.mapVoice v (fanVoice mask f v) = if maskBit mask v then d.mapVoice v f else d := by
  unfold fanVoice Dsp.mapVoice
  split
  · rfl
  · exact Dsp.setVoice_voice d v

theorem Dsp.keyOffFanout_eq (mask : Byte) (d : Dsp) :
    d.keyOffFanout mask =
      allVoices.foldl (fun x v => x.mapVoice v (fanVoice mask Voice.keyOff v)) d := by
  simp only [Dsp.keyOffFanout, mapVoice_fanVoice]

theorem Dsp.keyOnFanout_foldl (cfg : Config) (m : Memory) (mask : Byte) (d : Dsp) (l : List VoiceIx)
    (e : Dsp) (h : d.SameGlobals e) :
    l.foldl (fun d v => if maskBit mask v then d.mapVoice v (Voice.keyOn cfg m (d.reg 0x5D)) else d) e =
      l.foldl (fun x v => x.mapVoice v (fanVoice mask (Voice.keyOn cfg m (d.reg 0x5D)) v)) e := by
  induction l generalizing e with
  | nil => rfl
  | cons v l ih =>
    rw [List.foldl_cons, List.foldl_cons, mapVoice_fanVoice, h.reg 0x5D]
    apply ih
    split
    · exact h.setVoice v _
    · exact h

theorem Dsp.keyOnFanout_eq (cfg : Config) (m : Memory) (mask : Byte) (d : Dsp) :
    d.keyOnFanout cfg m mask =
      allVoices.foldl (fun x v => x.mapVoice v (fanVoice mask (Voice.keyOn cfg m (d.reg 0x5D)) v)) d :=
  Dsp.keyOnFanout_foldl cfg m mask d allVoices d (.refl d)

theorem Dsp.keyOnFanout_voice (cfg : Config) (m : Memory) (mask : Byte) (d : Dsp) (w : VoiceIx) :
    (d.keyOnFanout cfg m mask).voice w = fanVoice mask (Voice.keyOn cfg m (d.reg 0x5D)) w (d.voice w) := by
  rw [Dsp.keyOnFanout_eq, Dsp.foldl_mapVoice_voice _ _ allVoices_nodup, if_pos (mem_allVoices w)]

theorem Dsp.keyOnFanout_globals (cfg : Config) (m : Memory) (mask : Byte) (d : Dsp) :
    d.SameGlobals (d.keyOnFanout cfg m mask) := by
  rw [Dsp.keyOnFanout_eq]; exact Dsp.foldl_mapVoice_globals _ _ d d (.refl d)

theorem Dsp.keyOffFanout_voice (mask : Byte) (d : Dsp) (w : VoiceIx) :
    (d.keyOffFanout mask).voice w = fanVoice mask Voice.keyOff w (d.voice w) := by
  rw [Dsp.keyOffFanout_eq, Dsp.foldl_mapVoice_voice _ _ allVoices_nodup, if_pos (mem_allVoices w)]

theorem Dsp.keyOffFanout_globals (mask : Byte) (d : Dsp) : d.SameGlobals (d.keyOffFanout mask) := by
  rw [Dsp.keyOffFanout_eq]; exact Dsp.foldl_mapVoice_globals _ _ d d (.refl d)

/-! ### The further effect of a register write (R233), by column -/

/-- The voice `w` of `d` after the further effect of writing `b` at `a`, for the eight mirrored columns. -/
def mirrorWrite (n : Nat) (b : Byte) (x : Voice) : Voice :=
  match n with
  | 0 => { x with voll := b }
  | 1 => { x with volr := b }
  | 2 => { x with pitchl := b }
  | 3 => { x with pitchh := b }
  | 4 => { x with srcn := b }
  | 5 => { x with env := { x.env with adsr1 := b } }
  | 6 => { x with env := { x.env with adsr2 := b } }
  | 7 => { x with env := { x.env with gain := b } }
  | _ => x

theorem Dsp.writeEffect_mirror (cfg : Config) (m : Memory) (a : RegAddr) (b : Byte) (d : Dsp)
    (h : (regColumn a).toNat < 8) :
    d.writeEffect cfg m a b = d.mapVoice (regVoice a) (mirrorWrite (regColumn a).toNat b) := by
  unfold Dsp.writeEffect
  generalize (regColumn a).toNat = n at h
  interval_cases n <;> rfl

theorem Dsp.writeEffect_global (cfg : Config) (m : Memory) (a : RegAddr) (b : Byte) (d : Dsp)
    (h : ¬ (regColumn a).toNat < 8) :
    d.writeEffect cfg m a b =
      if a = 0x4C then d.keyOnFanout cfg m b
      else if a = 0x5C then d.keyOffFanout b
      else if a = 0x2D then d.copyMask (fun x v => { v with pmon := x }) b
      else if a = 0x3D then d.copyMask (fun x v => { v with non := x }) b
      else if a = 0x4D then d.copyMask (fun x v => { v with eon := x }) b
      else d := by
  have hlt := (regColumn a).isLt
  unfold Dsp.writeEffect
  generalize (regColumn a).toNat = n at h hlt
  interval_cases n <;> rfl

/-- A register write changes no global state but the register (R233). -/
theorem Dsp.write_globals (cfg : Config) (m : Memory) (a : RegAddr) (b : Byte) (d : Dsp) :
    (d.setReg a b).SameGlobals (d.write cfg m a b) := by
  unfold Dsp.write
  by_cases h : (regColumn a).toNat < 8
  · rw [Dsp.writeEffect_mirror _ _ _ _ _ h]; exact (Dsp.SameGlobals.refl _).setVoice _ _
  · rw [Dsp.writeEffect_global _ _ _ _ _ h]
    split
    · exact Dsp.keyOnFanout_globals _ _ _ _
    split
    · exact Dsp.keyOffFanout_globals _ _
    split
    · exact Dsp.copyMask_globals _ _ _
    split
    · exact Dsp.copyMask_globals _ _ _
    split
    · exact Dsp.copyMask_globals _ _ _
    · exact .refl _

/-! ### The voices of a tick (R224, R225) -/

theorem Mix.foldl_globals (cfg : Config) (m : Memory) (l : List VoiceIx) (d : Dsp) (x : Mix)
    (h : d.SameGlobals x.dsp) : d.SameGlobals (l.foldl (Mix.turn cfg m) x).dsp := by
  induction l generalizing x with
  | nil => exact h
  | cons v l ih => exact ih _ (h.setVoice v _)

theorem renderVoices_globals (cfg : Config) (m : Memory) (d : Dsp) :
    d.SameGlobals (renderVoices cfg m d).dsp := Mix.foldl_globals cfg m allVoices d _ (.refl d)

/-- A turn for another voice leaves a voice alone. -/
theorem Mix.foldl_voice_of_not_mem (cfg : Config) (m : Memory) (l : List VoiceIx) (x : Mix) (w : VoiceIx)
    (h : w ∉ l) : (l.foldl (Mix.turn cfg m) x).dsp.voice w = x.dsp.voice w := by
  induction l generalizing x with
  | nil => rfl
  | cons v l ih =>
    rw [List.mem_cons, not_or] at h
    rw [List.foldl_cons, ih _ h.2, Mix.turn, Dsp.voice_setVoice_ne _ _ _ _ h.1]

/-- Every voice after a tick's walk is a render of that voice, at the tick's noise and counter. -/
theorem Mix.foldl_voice (cfg : Config) (m : Memory) (l : List VoiceIx) (hl : l.Nodup) (d : Dsp) (x : Mix)
    (hx : d.SameGlobals x.dsp) (w : VoiceIx) (h : w ∈ l) :
    ∃ last, (l.foldl (Mix.turn cfg m) x).dsp.voice w =
      ((Voice.softReset cfg (d.reg 0x6C) (x.dsp.voice w)).render cfg m last d.noise d.counter).voice := by
  induction l generalizing x with
  | nil => simp at h
  | cons v l ih =>
    rw [List.nodup_cons] at hl
    rw [List.foldl_cons]
    by_cases hw : w = v
    · subst hw
      refine ⟨x.last, ?_⟩
      rw [Mix.foldl_voice_of_not_mem _ _ _ _ _ hl.1, Mix.turn, Dsp.voice_setVoice_same, hx.reg, hx.noise,
        hx.counter]
    · have hm : w ∈ l := by simpa [hw] using h
      obtain ⟨last, e⟩ := ih hl.2 (Mix.turn cfg m x v) (hx.setVoice v _) hm
      refine ⟨last, ?_⟩
      rw [e, Mix.turn, Dsp.voice_setVoice_ne _ _ _ _ hw]

theorem renderVoices_voice (cfg : Config) (m : Memory) (d : Dsp) (w : VoiceIx) :
    ∃ last, (renderVoices cfg m d).dsp.voice w =
      ((Voice.softReset cfg (d.reg 0x6C) (d.voice w)).render cfg m last d.noise d.counter).voice :=
  Mix.foldl_voice cfg m allVoices allVoices_nodup d _ (.refl d) w (mem_allVoices w)

/-! ### The parts of a tick: from what the voices left -/

section Finish
variable (cfg : Config) (m : Memory) (x : Mix)

theorem Mix.finish_voices : (x.finish cfg m).dsp.voices = x.dsp.voices := rfl
theorem Mix.finish_regs : (x.finish cfg m).dsp.regs = x.dsp.regs := rfl
theorem Mix.finish_counter : (x.finish cfg m).dsp.counter = x.dsp.counter := rfl
theorem Mix.finish_noise : (x.finish cfg m).dsp.noise = x.dsp.noise := rfl
theorem Mix.finish_hpos : (x.finish cfg m).dsp.hpos = x.dsp.hpos + 1 := rfl
theorem Mix.finish_histL : (x.finish cfg m).dsp.histL =
    x.dsp.histL.set (x.dsp.hpos + 1).val (halve cfg (memRead2 cfg m (x.dsp.echoFrame cfg).1)) := rfl
theorem Mix.finish_histR : (x.finish cfg m).dsp.histR =
    x.dsp.histR.set (x.dsp.hpos + 1).val (halve cfg (memRead2 cfg m (x.dsp.echoFrame cfg).2)) := rfl
theorem Mix.finish_echoPos : (x.finish cfg m).dsp.echoPos =
    nextEchoPos cfg x.dsp.echoPos (x.dsp.reg 0x7D) := rfl
theorem Mix.finish_mem : (x.finish cfg m).mem =
    (x.finish cfg m).dsp.writeEcho cfg m (x.dsp.echoFrame cfg)
      ((x.finish cfg m).dsp.feedback cfg x.echoL ((x.finish cfg m).dsp.fir cfg (x.finish cfg m).dsp.histL))
      ((x.finish cfg m).dsp.feedback cfg x.echoR ((x.finish cfg m).dsp.fir cfg (x.finish cfg m).dsp.histR)) := rfl
theorem Mix.finish_left : (x.finish cfg m).left =
    (x.finish cfg m).dsp.muted cfg ((x.finish cfg m).dsp.mixChannel cfg x.mainL
      ((x.finish cfg m).dsp.fir cfg (x.finish cfg m).dsp.histL) 0x2C 0x0C) := rfl
theorem Mix.finish_right : (x.finish cfg m).right =
    (x.finish cfg m).dsp.muted cfg ((x.finish cfg m).dsp.mixChannel cfg x.mainR
      ((x.finish cfg m).dsp.fir cfg (x.finish cfg m).dsp.histR) 0x3C 0x1C) := rfl

end Finish

theorem Dsp.voice_congr (d e : Dsp) (h : d.voices = e.voices) (w : VoiceIx) : d.voice w = e.voice w := by
  simp only [Dsp.voice, h]

/-! ### The whole tick -/

section Tick
variable (cfg : Config) (m : Memory) (d : Dsp)

theorem Dsp.tick_voice (w : VoiceIx) :
    (d.tick cfg m).dsp.voice w = (renderVoices cfg m (d.advanceClock cfg)).dsp.voice w := by
  apply Dsp.voice_congr
  unfold Dsp.tick
  exact Mix.finish_voices cfg m _

theorem Dsp.tick_regs : (d.tick cfg m).dsp.regs = d.regs := by
  rw [Dsp.tick, Mix.finish_regs, (renderVoices_globals cfg m (d.advanceClock cfg)).regs]; rfl

theorem Dsp.tick_reg (a : RegAddr) : (d.tick cfg m).dsp.reg a = d.reg a := by
  simp only [Dsp.reg, Dsp.tick_regs]

theorem Dsp.tick_counter : (d.tick cfg m).dsp.counter = counterStep cfg d.counter := by
  rw [Dsp.tick, Mix.finish_counter, (renderVoices_globals cfg m (d.advanceClock cfg)).counter]; rfl

theorem Dsp.tick_noise :
    (d.tick cfg m).dsp.noise = noiseStep cfg (d.reg 0x6C) (counterStep cfg d.counter) d.noise := by
  rw [Dsp.tick, Mix.finish_noise, (renderVoices_globals cfg m (d.advanceClock cfg)).noise]; rfl

theorem Dsp.tick_hpos : (d.tick cfg m).dsp.hpos = d.hpos + 1 := by
  rw [Dsp.tick, Mix.finish_hpos, (renderVoices_globals cfg m (d.advanceClock cfg)).hpos]; rfl

theorem renderVoices_echoFrame : (renderVoices cfg m (d.advanceClock cfg)).dsp.echoFrame cfg = d.echoFrame cfg := by
  have h := renderVoices_globals cfg m (d.advanceClock cfg)
  rw [Dsp.echoFrame, h.reg, h.echoPos]; rfl

theorem Dsp.tick_histL : (d.tick cfg m).dsp.histL =
    d.histL.set (d.hpos + 1).val (halve cfg (memRead2 cfg m (d.echoFrame cfg).1)) := by
  have h := renderVoices_globals cfg m (d.advanceClock cfg)
  simp only [Dsp.tick, Mix.finish_histL, renderVoices_echoFrame, h.histL, h.hpos]
  rfl

theorem Dsp.tick_histR : (d.tick cfg m).dsp.histR =
    d.histR.set (d.hpos + 1).val (halve cfg (memRead2 cfg m (d.echoFrame cfg).2)) := by
  have h := renderVoices_globals cfg m (d.advanceClock cfg)
  simp only [Dsp.tick, Mix.finish_histR, renderVoices_echoFrame, h.histR, h.hpos]
  rfl

theorem Dsp.tick_echoPos : (d.tick cfg m).dsp.echoPos =
    nextEchoPos cfg d.echoPos (d.reg 0x7D) := by
  have h := renderVoices_globals cfg m (d.advanceClock cfg)
  rw [Dsp.tick, Mix.finish_echoPos, h.reg, h.echoPos]; rfl

/-- What a tick stores: the two combined values at the echo frame (R229). -/
theorem Dsp.tick_mem : (d.tick cfg m).mem =
    (d.tick cfg m).dsp.writeEcho cfg m (d.echoFrame cfg)
      ((d.tick cfg m).dsp.feedback cfg (renderVoices cfg m (d.advanceClock cfg)).echoL
        ((d.tick cfg m).dsp.fir cfg (d.tick cfg m).dsp.histL))
      ((d.tick cfg m).dsp.feedback cfg (renderVoices cfg m (d.advanceClock cfg)).echoR
        ((d.tick cfg m).dsp.fir cfg (d.tick cfg m).dsp.histR)) := by
  have h := renderVoices_echoFrame cfg m d
  unfold Dsp.tick
  rw [Mix.finish_mem, h]

theorem Dsp.tick_left : (d.tick cfg m).left =
    (d.tick cfg m).dsp.muted cfg ((d.tick cfg m).dsp.mixChannel cfg (renderVoices cfg m (d.advanceClock cfg)).mainL
      ((d.tick cfg m).dsp.fir cfg (d.tick cfg m).dsp.histL) 0x2C 0x0C) := by
  unfold Dsp.tick
  exact Mix.finish_left cfg m _

theorem Dsp.tick_right : (d.tick cfg m).right =
    (d.tick cfg m).dsp.muted cfg ((d.tick cfg m).dsp.mixChannel cfg (renderVoices cfg m (d.advanceClock cfg)).mainR
      ((d.tick cfg m).dsp.fir cfg (d.tick cfg m).dsp.histR) 0x3C 0x1C) := by
  unfold Dsp.tick
  exact Mix.finish_right cfg m _

/-- The words a tick combines and the frame it returns depend on the registers, which a tick leaves. -/
theorem Dsp.feedback_congr (e f : Dsp) (h : e.regs = f.regs) (s x : Int) : e.feedback cfg s x = f.feedback cfg s x := by
  simp only [Dsp.feedback, Dsp.scaled, Dsp.reg, h]

end Tick

/-- A tick keeps the canonical form of memory. -/
theorem Memory.wf_writeEcho (cfg : Config) (d : Dsp) (m : Memory) (a : Addr × Addr) (l r : Sample)
    (h : Memory.wf m = true) :
    Memory.wf (d.writeEcho cfg m a l r) = true := by
  unfold Dsp.writeEcho
  split
  · exact h
  · exact Memory.wf_memWrite2 _ _ _ _ (Memory.wf_memWrite2 _ _ _ _ h)

end Sys2Proof.Machine
end

