-- ==== Sys2Proof/Laws/Mirrors.lean ====
section
/-! SUPPORT. The register mirrors (R23, R331): what keeps them equal to the register bytes, and what a
load of the registers leaves. -/

namespace Sys2Proof.Machine

theorem Dsp.reg_setReg (d : Dsp) (a c : RegAddr) (b : Byte) :
    (d.setReg a b).reg c = if c = a then b else d.reg c := by
  by_cases h : c = a
  · subst h; simp
  · rw [if_neg h, Dsp.reg_setReg_ne d a c b h]

theorem regAddr_inj (v w : VoiceIx) (m n : BitVec 4) : regAddr v m = regAddr w n ↔ v = w ∧ m = n := by
  constructor
  · intro h
    exact ⟨by rw [← regVoice_regAddr v m, h, regVoice_regAddr], by rw [← regColumn_regAddr v m, h, regColumn_regAddr]⟩
  · rintro ⟨rfl, rfl⟩; rfl

/-- Every voice mirrors its registers. -/
def Dsp.mirrored (d : Dsp) : Prop := ∀ i, (d.voice i).mirrors d i

/-- A change of voices that keeps the mirrored fields keeps the mirrors. -/
theorem Voice.mirrors_congr (d e : Dsp) (i : VoiceIx) (v w : Voice) (h : v.mirrors d i)
    (hr : ∀ n : BitVec 4, n.toNat < 8 → e.reg (regAddr i n) = d.reg (regAddr i n))
    (hp : e.reg 0x2D = d.reg 0x2D) (hn : e.reg 0x3D = d.reg 0x3D) (he : e.reg 0x4D = d.reg 0x4D)
    (f : w.voll = v.voll ∧ w.volr = v.volr ∧ w.pitchl = v.pitchl ∧ w.pitchh = v.pitchh ∧ w.srcn = v.srcn ∧
      w.env.adsr1 = v.env.adsr1 ∧ w.env.adsr2 = v.env.adsr2 ∧ w.env.gain = v.env.gain ∧
      w.pmon = v.pmon ∧ w.non = v.non ∧ w.eon = v.eon) : w.mirrors e i := by
  obtain ⟨f0, f1, f2, f3, f4, f5, f6, f7, f8, f9, f10⟩ := f
  obtain ⟨h0, h1, h2, h3, h4, h5, h6, h7, h8, h9, h10⟩ := h
  refine ⟨?_, ?_, ?_, ?_, ?_, ?_, ?_, ?_, ?_, ?_, ?_⟩
  · rw [f0, h0, hr 0 (by decide)]
  · rw [f1, h1, hr 1 (by decide)]
  · rw [f2, h2, hr 2 (by decide)]
  · rw [f3, h3, hr 3 (by decide)]
  · rw [f4, h4, hr 4 (by decide)]
  · rw [f5, h5, hr 5 (by decide)]
  · rw [f6, h6, hr 6 (by decide)]
  · rw [f7, h7, hr 7 (by decide)]
  · rw [f8, h8, hp]
  · rw [f9, h9, hn]
  · rw [f10, h10, he]

theorem regAddr_mirror_ne (i : VoiceIx) (n : BitVec 4) (h : n.toNat < 8) (a : RegAddr)
    (ha : ¬ (regColumn a).toNat < 8) : regAddr i n ≠ a := by
  intro e; subst e; rw [regColumn_regAddr] at ha; exact ha h

/-- Storing a byte outside the mirrored registers keeps a mirror. -/
theorem Voice.mirrors_setReg (d : Dsp) (a : RegAddr) (b : Byte) (i : VoiceIx) (v : Voice)
    (ha : ¬ (regColumn a).toNat < 8) (h2D : a ≠ 0x2D) (h3D : a ≠ 0x3D) (h4D : a ≠ 0x4D)
    (h : v.mirrors d i) : v.mirrors (d.setReg a b) i :=
  Voice.mirrors_congr d _ i v v h
    (fun n hn => Dsp.reg_setReg_ne _ _ _ _ (regAddr_mirror_ne i n hn a ha))
    (Dsp.reg_setReg_ne _ _ _ _ (Ne.symm h2D)) (Dsp.reg_setReg_ne _ _ _ _ (Ne.symm h3D))
    (Dsp.reg_setReg_ne _ _ _ _ (Ne.symm h4D)) ⟨rfl, rfl, rfl, rfl, rfl, rfl, rfl, rfl, rfl, rfl, rfl⟩

theorem Voice.mirrors_same {d e : Dsp} (h : d.SameGlobals e) (i : VoiceIx) (v : Voice)
    (hv : v.mirrors d i) : v.mirrors e i :=
  Voice.mirrors_congr d e i v v hv (fun _ _ => h.reg _) (h.reg _) (h.reg _) (h.reg _)
    ⟨rfl, rfl, rfl, rfl, rfl, rfl, rfl, rfl, rfl, rfl, rfl⟩

theorem Voice.mirrors_keyOn (cfg : Config) (m : Memory) (dir : Byte) (d : Dsp) (i : VoiceIx) (v : Voice)
    (h : v.mirrors d i) : (v.keyOn cfg m dir).mirrors d i := by
  rw [Voice.keyOn_eq]
  exact Voice.mirrors_congr d d i v _ h (fun _ _ => rfl) rfl rfl rfl
    ⟨rfl, rfl, rfl, rfl, rfl, rfl, rfl, rfl, rfl, rfl, rfl⟩

theorem Voice.mirrors_render (cfg : Config) (m : Memory) (last : Sample) (noise : BitVec 16) (c : Counter)
    (d : Dsp) (i : VoiceIx) (v : Voice) (h : v.mirrors d i) :
    (v.render cfg m last noise c).voice.mirrors d i := by
  have f := Voice.render_frame cfg m last noise c v
  exact Voice.mirrors_congr d d i v _ h (fun _ _ => rfl) rfl rfl rfl
    ⟨f.voll, f.volr, f.pitchl, f.pitchh, f.srcn, f.adsr1, f.adsr2, f.gain, f.pmon, f.non, f.eon⟩

/-- A register write keeps the mirrors (R233). -/
theorem Dsp.mirrored_write (cfg : Config) (m : Memory) (a : RegAddr) (b : Byte) (d : Dsp) (h : d.mirrored) :
    (d.write cfg m a b).mirrored := by
  intro i
  have hi := h i
  have g := Dsp.write_globals cfg m a b d
  apply Voice.mirrors_same g
  unfold Dsp.write
  by_cases hc : (regColumn a).toNat < 8
  · rw [Dsp.writeEffect_mirror _ _ _ _ _ hc, Dsp.mapVoice, Dsp.voice_setVoice]
    have ha := regAddr_eta a
    generalize regColumn a = n at hc ha
    generalize regVoice a = w at ha
    subst ha
    have hD : ∀ a : RegAddr, ¬ (regColumn a).toNat < 8 → a ≠ regAddr w n := fun a ha e => by
      subst e; rw [regColumn_regAddr] at ha; exact ha hc
    have h2D := hD 0x2D (by decide)
    have h3D := hD 0x3D (by decide)
    have h4D := hD 0x4D (by decide)
    obtain ⟨h0, h1, h2, h3, h4, h5, h6, h7, h8, h9, h10⟩ := hi
    by_cases hw : i = w
    · subst hw
      obtain ⟨⟨k, hk⟩⟩ := n
      simp only [BitVec.toNat_ofFin] at hc
      interval_cases k <;>
        refine ⟨?_, ?_, ?_, ?_, ?_, ?_, ?_, ?_, ?_, ?_, ?_⟩ <;>
        simp only [Dsp.reg_setReg, regAddr_inj, if_true, if_false, mirrorWrite,
          BitVec.toNat_ofFin, Dsp.setReg_voice, *] <;> rfl
    · rw [if_neg hw]
      refine ⟨?_, ?_, ?_, ?_, ?_, ?_, ?_, ?_, ?_, ?_, ?_⟩ <;>
        simp only [Dsp.reg_setReg, regAddr_inj, false_and, if_false, Dsp.setReg_voice, *]
  · have hk : ∀ k : BitVec 4, k.toNat < 8 → (d.setReg a b).reg (regAddr i k) = d.reg (regAddr i k) :=
      fun k hk => Dsp.reg_setReg_ne _ _ _ _ (regAddr_mirror_ne i k hk a hc)
    rw [Dsp.writeEffect_global _ _ _ _ _ hc]
    by_cases e : a = 0x4C
    · subst e
      rw [if_pos rfl, Dsp.keyOnFanout_voice, fanVoice]
      split
      · exact Voice.mirrors_keyOn _ _ _ _ _ _ (Voice.mirrors_setReg _ _ _ _ _ hc (by decide) (by decide) (by decide) hi)
      · exact Voice.mirrors_setReg _ _ _ _ _ hc (by decide) (by decide) (by decide) hi
    rw [if_neg e]
    by_cases e : a = 0x5C
    · subst e
      rw [if_pos rfl, Dsp.keyOffFanout_voice, fanVoice]
      have := Voice.mirrors_setReg d 0x5C b i (d.voice i) hc (by decide) (by decide) (by decide) hi
      split
      · exact this
      · exact this
    rw [if_neg e]
    obtain ⟨h0, h1, h2, h3, h4, h5, h6, h7, h8, h9, h10⟩ := hi
    by_cases e : a = 0x2D
    · subst e
      rw [if_pos rfl, Dsp.copyMask_voice]
      refine ⟨?_, ?_, ?_, ?_, ?_, ?_, ?_, ?_, ?_, ?_, ?_⟩
      · rw [hk 0 (by decide)]; exact h0
      · rw [hk 1 (by decide)]; exact h1
      · rw [hk 2 (by decide)]; exact h2
      · rw [hk 3 (by decide)]; exact h3
      · rw [hk 4 (by decide)]; exact h4
      · rw [hk 5 (by decide)]; exact h5
      · rw [hk 6 (by decide)]; exact h6
      · rw [hk 7 (by decide)]; exact h7
      · rw [Dsp.reg_setReg_same]
      · rw [Dsp.reg_setReg_ne _ _ _ _ (by decide)]; exact h9
      · rw [Dsp.reg_setReg_ne _ _ _ _ (by decide)]; exact h10
    rw [if_neg e]
    by_cases e : a = 0x3D
    · subst e
      rw [if_pos rfl, Dsp.copyMask_voice]
      refine ⟨?_, ?_, ?_, ?_, ?_, ?_, ?_, ?_, ?_, ?_, ?_⟩
      · rw [hk 0 (by decide)]; exact h0
      · rw [hk 1 (by decide)]; exact h1
      · rw [hk 2 (by decide)]; exact h2
      · rw [hk 3 (by decide)]; exact h3
      · rw [hk 4 (by decide)]; exact h4
      · rw [hk 5 (by decide)]; exact h5
      · rw [hk 6 (by decide)]; exact h6
      · rw [hk 7 (by decide)]; exact h7
      · rw [Dsp.reg_setReg_ne _ _ _ _ (by decide)]; exact h8
      · rw [Dsp.reg_setReg_same]
      · rw [Dsp.reg_setReg_ne _ _ _ _ (by decide)]; exact h10
    rw [if_neg e]
    by_cases e : a = 0x4D
    · subst e
      rw [if_pos rfl, Dsp.copyMask_voice]
      refine ⟨?_, ?_, ?_, ?_, ?_, ?_, ?_, ?_, ?_, ?_, ?_⟩
      · rw [hk 0 (by decide)]; exact h0
      · rw [hk 1 (by decide)]; exact h1
      · rw [hk 2 (by decide)]; exact h2
      · rw [hk 3 (by decide)]; exact h3
      · rw [hk 4 (by decide)]; exact h4
      · rw [hk 5 (by decide)]; exact h5
      · rw [hk 6 (by decide)]; exact h6
      · rw [hk 7 (by decide)]; exact h7
      · rw [Dsp.reg_setReg_ne _ _ _ _ (by decide)]; exact h8
      · rw [Dsp.reg_setReg_ne _ _ _ _ (by decide)]; exact h9
      · rw [Dsp.reg_setReg_same]
    rw [if_neg e]
    exact Voice.mirrors_setReg _ _ _ _ _ hc (by assumption) (by assumption) (by assumption) (h i)

end Sys2Proof.Machine
end

