-- ==== Sys2Proof/Laws/PerInstr.lean ====
section
/-! SUPPORT. One lemma per constructor of `Instr`: how many bytes its line has (R90, R101, R104). -/

namespace Sys2Proof.Laws.EncodedLength

/-- The bytes of a register access: the address, and the data of a write. -/
def accessLength : RegAccess → Nat
  | .write _ => 2
  | .read => 1

/-- The bytes of an envelope register's value: the value, and the counter of a tick. -/
def useLength : CfgUse → Nat
  | .write => 1
  | .tick _ => 3

/-- The bytes of an operation's line: the code and each operand in the fewest whole bytes (R104), a block
nine bytes, a register address one, a value one. -/
def lineLength : Instr → Nat
  | .brrReset _ _ => 5
  | .brrRead _ => 10
  | .brrNext => 1
  | .brrFin => 1
  | .envTick _ => 3
  | .envKon => 1
  | .envKoff => 1
  | .voiceRender _ _ _ => 7
  | .voiceKon _ => 2
  | .voiceKoff => 1
  | .dspTick => 1
  | .dspWrite _ _ => 3
  | .dspRead _ => 2
  | .apuReset => 1
  | .apuSetState _ => 65665
  | .apuRender _ => 3
  | .apuReadByte _ => 3
  | .apuWriteByte _ _ => 4
  | .rbReset => 1
  | .rbWrite _ _ => 5
  | .rbRead _ => 3
  | .rbCount => 1
  | .brrblkF0 _ => 9
  | .brrblkF1 _ => 9
  | .brrblkF2 _ => 9
  | .brrblkF3 _ => 9
  | .vxVoll _ access => accessLength access
  | .vxVolr _ access => accessLength access
  | .vxPitchl _ access => accessLength access
  | .vxPitchh _ access => accessLength access
  | .vxSrcn _ access => accessLength access
  | .vxAdsr1 _ access => accessLength access
  | .vxAdsr2 _ access => accessLength access
  | .vxGain _ access => accessLength access
  | .vxEnvx _ access => accessLength access
  | .vxOutx _ access => accessLength access
  | .vxUnusedA _ access => accessLength access
  | .vxUnusedB _ access => accessLength access
  | .vxUnusedE _ access => accessLength access
  | .mvoll access => accessLength access
  | .mvolr access => accessLength access
  | .evoll access => accessLength access
  | .evolr access => accessLength access
  | .kon access => accessLength access
  | .koff access => accessLength access
  | .flg access => accessLength access
  | .endx access => accessLength access
  | .efb access => accessLength access
  | .unused1D access => accessLength access
  | .pmon access => accessLength access
  | .non access => accessLength access
  | .eon access => accessLength access
  | .dir access => accessLength access
  | .esa access => accessLength access
  | .edl access => accessLength access
  | .cxFir _ access => accessLength access
  | .adsr1Adsr _ _ use => useLength use
  | .adsr1Gain _ use => useLength use
  | .adsr2 _ _ use => useLength use
  | .gainDirect _ use => useLength use
  | .gainLindec _ use => useLength use
  | .gainExpdec _ use => useLength use
  | .gainLininc _ use => useLength use
  | .gainBentinc _ use => useLength use
  | .flgValue _ _ _ _ _ => 1

/-- A well-formed operation is encoded in as many bytes as the spec's formats give it. -/
def Statement (i : Instr) : Prop := i.wellFormed = true → (encode i).2.length = lineLength i

theorem encodeAccess_length (a : RegAddr) (access : RegAccess) :
    (encodeAccess a access).2.length = accessLength access := by cases access <;> rfl

theorem encodeValue_length (reg : CfgReg) (b : Byte) (use : CfgUse) :
    (encodeValue reg b use).2.length = useLength use := by cases use <;> rfl

theorem brrReset (sample0 sample1 : Sample) : Statement (.brrReset sample0 sample1) := fun _ => rfl
theorem brrRead (block : Block) : Statement (.brrRead block) := by
  intro _; simp [encode, lineLength]
theorem brrNext : Statement .brrNext := fun _ => rfl
theorem brrFin : Statement .brrFin := fun _ => rfl
theorem envTick (counter : Counter) : Statement (.envTick counter) := fun _ => rfl
theorem envKon : Statement .envKon := fun _ => rfl
theorem envKoff : Statement .envKoff := fun _ => rfl
theorem voiceRender (last : Sample) (noise : BitVec 16) (counter : Counter) : Statement (.voiceRender last noise counter) := fun _ => rfl
theorem voiceKon (dir : Byte) : Statement (.voiceKon dir) := fun _ => rfl
theorem voiceKoff : Statement .voiceKoff := fun _ => rfl
theorem dspTick : Statement .dspTick := fun _ => rfl
theorem dspWrite (addr : RegAddr) (data : Byte) : Statement (.dspWrite addr data) := fun _ => rfl
theorem dspRead (addr : RegAddr) : Statement (.dspRead addr) := fun _ => rfl
theorem apuReset : Statement .apuReset := fun _ => rfl
theorem apuSetState (snapshot : Snapshot) : Statement (.apuSetState snapshot) := by
  intro h
  simp only [Instr.wellFormed, Snapshot.wellFormed, Bool.and_eq_true, hasLength_iff] at h
  simp [encode, lineLength, h.1, h.2]
theorem apuRender (n : Nat) : Statement (.apuRender n) := fun _ => rfl
theorem apuReadByte (addr : Addr) : Statement (.apuReadByte addr) := fun _ => rfl
theorem apuWriteByte (addr : Addr) (data : Byte) : Statement (.apuWriteByte addr data) := fun _ => rfl
theorem rbReset : Statement .rbReset := fun _ => rfl
theorem rbWrite (left right : Sample) : Statement (.rbWrite left right) := fun _ => rfl
theorem rbRead (n : Nat) : Statement (.rbRead n) := fun _ => rfl
theorem rbCount : Statement .rbCount := fun _ => rfl
theorem brrblkF0 (fields : BlockFields) : Statement (.brrblkF0 fields) := by
  intro _; simp [encode, lineLength]
theorem brrblkF1 (fields : BlockFields) : Statement (.brrblkF1 fields) := by
  intro _; simp [encode, lineLength]
theorem brrblkF2 (fields : BlockFields) : Statement (.brrblkF2 fields) := by
  intro _; simp [encode, lineLength]
theorem brrblkF3 (fields : BlockFields) : Statement (.brrblkF3 fields) := by
  intro _; simp [encode, lineLength]
theorem vxVoll (v : VoiceIx) (access : RegAccess) : Statement (.vxVoll v access) :=
  fun _ => encodeAccess_length _ access
theorem vxVolr (v : VoiceIx) (access : RegAccess) : Statement (.vxVolr v access) :=
  fun _ => encodeAccess_length _ access
theorem vxPitchl (v : VoiceIx) (access : RegAccess) : Statement (.vxPitchl v access) :=
  fun _ => encodeAccess_length _ access
theorem vxPitchh (v : VoiceIx) (access : RegAccess) : Statement (.vxPitchh v access) :=
  fun _ => encodeAccess_length _ access
theorem vxSrcn (v : VoiceIx) (access : RegAccess) : Statement (.vxSrcn v access) :=
  fun _ => encodeAccess_length _ access
theorem vxAdsr1 (v : VoiceIx) (access : RegAccess) : Statement (.vxAdsr1 v access) :=
  fun _ => encodeAccess_length _ access
theorem vxAdsr2 (v : VoiceIx) (access : RegAccess) : Statement (.vxAdsr2 v access) :=
  fun _ => encodeAccess_length _ access
theorem vxGain (v : VoiceIx) (access : RegAccess) : Statement (.vxGain v access) :=
  fun _ => encodeAccess_length _ access
theorem vxEnvx (v : VoiceIx) (access : RegAccess) : Statement (.vxEnvx v access) :=
  fun _ => encodeAccess_length _ access
theorem vxOutx (v : VoiceIx) (access : RegAccess) : Statement (.vxOutx v access) :=
  fun _ => encodeAccess_length _ access
theorem vxUnusedA (v : VoiceIx) (access : RegAccess) : Statement (.vxUnusedA v access) :=
  fun _ => encodeAccess_length _ access
theorem vxUnusedB (v : VoiceIx) (access : RegAccess) : Statement (.vxUnusedB v access) :=
  fun _ => encodeAccess_length _ access
theorem vxUnusedE (v : VoiceIx) (access : RegAccess) : Statement (.vxUnusedE v access) :=
  fun _ => encodeAccess_length _ access
theorem mvoll (access : RegAccess) : Statement (.mvoll access) :=
  fun _ => encodeAccess_length _ access
theorem mvolr (access : RegAccess) : Statement (.mvolr access) :=
  fun _ => encodeAccess_length _ access
theorem evoll (access : RegAccess) : Statement (.evoll access) :=
  fun _ => encodeAccess_length _ access
theorem evolr (access : RegAccess) : Statement (.evolr access) :=
  fun _ => encodeAccess_length _ access
theorem kon (access : RegAccess) : Statement (.kon access) :=
  fun _ => encodeAccess_length _ access
theorem koff (access : RegAccess) : Statement (.koff access) :=
  fun _ => encodeAccess_length _ access
theorem flg (access : RegAccess) : Statement (.flg access) :=
  fun _ => encodeAccess_length _ access
theorem endx (access : RegAccess) : Statement (.endx access) :=
  fun _ => encodeAccess_length _ access
theorem efb (access : RegAccess) : Statement (.efb access) :=
  fun _ => encodeAccess_length _ access
theorem unused1D (access : RegAccess) : Statement (.unused1D access) :=
  fun _ => encodeAccess_length _ access
theorem pmon (access : RegAccess) : Statement (.pmon access) :=
  fun _ => encodeAccess_length _ access
theorem non (access : RegAccess) : Statement (.non access) :=
  fun _ => encodeAccess_length _ access
theorem eon (access : RegAccess) : Statement (.eon access) :=
  fun _ => encodeAccess_length _ access
theorem dir (access : RegAccess) : Statement (.dir access) :=
  fun _ => encodeAccess_length _ access
theorem esa (access : RegAccess) : Statement (.esa access) :=
  fun _ => encodeAccess_length _ access
theorem edl (access : RegAccess) : Statement (.edl access) :=
  fun _ => encodeAccess_length _ access
theorem cxFir (tap : Fin 8) (access : RegAccess) : Statement (.cxFir tap access) :=
  fun _ => encodeAccess_length _ access
theorem adsr1Adsr (dr : BitVec 3) (ar : BitVec 4) (use : CfgUse) : Statement (.adsr1Adsr dr ar use) :=
  fun _ => encodeValue_length _ _ use
theorem adsr1Gain (ignored : BitVec 7) (use : CfgUse) : Statement (.adsr1Gain ignored use) :=
  fun _ => encodeValue_length _ _ use
theorem adsr2 (sl : BitVec 3) (sr : BitVec 5) (use : CfgUse) : Statement (.adsr2 sl sr use) :=
  fun _ => encodeValue_length _ _ use
theorem gainDirect (g : BitVec 7) (use : CfgUse) : Statement (.gainDirect g use) :=
  fun _ => encodeValue_length _ _ use
theorem gainLindec (rate : BitVec 5) (use : CfgUse) : Statement (.gainLindec rate use) :=
  fun _ => encodeValue_length _ _ use
theorem gainExpdec (rate : BitVec 5) (use : CfgUse) : Statement (.gainExpdec rate use) :=
  fun _ => encodeValue_length _ _ use
theorem gainLininc (rate : BitVec 5) (use : CfgUse) : Statement (.gainLininc rate use) :=
  fun _ => encodeValue_length _ _ use
theorem gainBentinc (rate : BitVec 5) (use : CfgUse) : Statement (.gainBentinc rate use) :=
  fun _ => encodeValue_length _ _ use
theorem flgValue (softReset mute echoOff : Bool) (noiseRate : BitVec 5) (use : FlgUse) : Statement (.flgValue softReset mute echoOff noiseRate use) := by
  intro _; cases use <;> rfl

end Sys2Proof.Laws.EncodedLength
end

