-- ==== Sys2Proof/Laws/Ring.lean ====
section
/-! SUPPORT. The RingBuffer as a queue: what a write, a read and a reset do to the pairs not yet read,
and that each keeps the invariant of R295. -/

namespace Sys2Proof.Machine

/-- Two places of the buffer less than the capacity apart differ. -/
theorem add_mod_ne (rd k n cap : Nat) (hk : k < n) (hn : n < cap) : (rd + k) % cap ≠ (rd + n) % cap := by
  intro h
  have h2 : k % cap = n % cap := Nat.ModEq.add_left_cancel' rd h
  rw [Nat.mod_eq_of_lt (by omega), Nat.mod_eq_of_lt hn] at h2
  omega

@[simp] theorem Ring.contents_length (cap : Nat) (r : Ring) : (r.contents cap).length = r.count := by
  simp [Ring.contents]

theorem getD_set_same (l : List Sample) (k : Nat) (x : Sample) (h : k < l.length) : (l.set k x).getD k 0 = x := by
  simp [List.getD, h]

theorem getD_set_ne (l : List Sample) (k j : Nat) (x : Sample) (h : j ≠ k) :
    (l.set k x).getD j 0 = l.getD j 0 := by
  simp [List.getD, List.getElem?_set_ne (Ne.symm h)]

/-- A write appends (R296). -/
theorem Ring.contents_push (cap : Nat) (r : Ring) (left right : Sample) (h : r.ok cap) (hc : r.count < cap) :
    (r.push cap left right).contents cap = r.contents cap ++ [(left, right)] := by
  obtain ⟨hl, hr, -, hw, -, hq⟩ := h
  simp only [Ring.contents, Ring.push, List.range_succ, List.map_append, List.map_cons, List.map_nil]
  rw [← hq, getD_set_same _ _ _ (by omega), getD_set_same _ _ _ (by omega)]
  congr 1
  apply List.map_congr_left
  intro k hk
  have hne : (r.rd + k) % cap ≠ r.wr := by
    rw [hq]; exact add_mod_ne _ _ _ _ (by simpa using hk) hc
  rw [getD_set_ne _ _ _ _ hne, getD_set_ne _ _ _ _ hne]

theorem Ring.ok_push (cap : Nat) (r : Ring) (left right : Sample) (h : r.ok cap) (hc : r.count < cap) :
    (r.push cap left right).ok cap := by
  obtain ⟨hl, hr, -, hw, hrd, hq⟩ := h
  refine ⟨by simpa [Ring.push] using hl, by simpa [Ring.push] using hr, hc, Nat.mod_lt _ (by omega), hrd, ?_⟩
  simp only [Ring.push, hq, Nat.mod_add_mod, Nat.add_assoc]

/-- A read removes the oldest pairs (R296). -/
theorem Ring.contents_drop (cap : Nat) (r : Ring) (n : Nat) :
    (r.drop cap n).contents cap = (r.contents cap).drop n := by
  apply List.ext_getElem
  · simp [Ring.drop]
  · intro k h1 h2
    simp [Ring.contents, Ring.drop, Nat.add_assoc]

theorem Ring.ok_drop (cap : Nat) (r : Ring) (n : Nat) (h : r.ok cap) (hn : n ≤ r.count) :
    (r.drop cap n).ok cap := by
  obtain ⟨hl, hr, hc, hw, hrd, hq⟩ := h
  have e : r.rd + r.count = r.rd + n + (r.count - n) := by omega
  refine ⟨hl, hr, by simp only [Ring.drop]; omega, hw, Nat.mod_lt _ (by omega), ?_⟩
  simp only [Ring.drop, Nat.mod_add_mod]
  rw [hq, e]

/-- What a read returns: the oldest pairs, channel by channel (R293, R296). -/
theorem ringSlice_fst (cap : Nat) (r : Ring) (n : Nat) (hn : n ≤ r.count) :
    ringSlice cap r.bufL r.rd n = ((r.contents cap).take n).map Prod.fst := by
  apply List.ext_getElem
  · simp [ringSlice]; omega
  · intro k h1 h2; simp [ringSlice, Ring.contents]

theorem ringSlice_snd (cap : Nat) (r : Ring) (n : Nat) (hn : n ≤ r.count) :
    ringSlice cap r.bufR r.rd n = ((r.contents cap).take n).map Prod.snd := by
  apply List.ext_getElem
  · simp [ringSlice]; omega
  · intro k h1 h2; simp [ringSlice, Ring.contents]

/-- `RB.DRAIN` (R105) is never refused: it returns the count and then every pair not yet read, oldest first, and
leaves the RingBuffer empty. The pairs read are as many as the count it returned. -/
theorem rbDrain_empties (s : State) : ∃ t, execAll (rbDrain s) s = .next t ∧
    t.outbox = s.outbox ++ [.count s.ring.count,
      .frames ((s.ring.contents s.cfg.rbCapacity).map Prod.fst) ((s.ring.contents s.cfg.rbCapacity).map Prod.snd)] ∧
    t.ring.contents t.cfg.rbCapacity = [] ∧ t.apu = s.apu := by
  have e1 := ringSlice_fst s.cfg.rbCapacity s.ring s.ring.count (le_refl _)
  have e2 := ringSlice_snd s.cfg.rbCapacity s.ring s.ring.count (le_refl _)
  rw [List.take_of_length_le (by simp)] at e1 e2
  refine ⟨{ s with
    ring := s.ring.drop s.cfg.rbCapacity s.ring.count
    outbox := s.outbox ++ [.count s.ring.count, .frames _ _] }, ?_, rfl, ?_, rfl⟩
  · simp [execAll, rbDrain, exec, execRbCount, execRbRead, State.emit, State.withRing, e1, e2]
  · simp [Ring.contents_drop]

theorem Ring.ok_reset (cap : Nat) (h : 0 < cap) : (Ring.reset cap).ok cap := by
  simp [Ring.reset, Ring.ok, h]

end Sys2Proof.Machine
end

