-- ==== Sys2Proof/Tests/Slice0.lean ====
section
/-! SUPPORT. The model's own tests: ill-formed terms refused; a word written out from the spec's
encodings for every constructor; one-step tests with the expected results of `95_test_vectors.md`
(V<n>.<k> and P<n> name its vectors and programs) and of the rules' worked numbers; and for every
statement with hypotheses a state and operands that meet them. -/

namespace Sys2Proof.Tests

set_option Elab.async false

open Sys2Proof Sys2Proof.Machine

/-! ### WellFormed: an ill-formed term for each check -/

theorem test_illformed_snapshot_ram :
    (Instr.apuSetState ⟨[], List.replicate 128 0⟩).wellFormed = false := by decide

theorem test_illformed_snapshot_regs :
    Snapshot.wellFormed ⟨List.replicate 65536 0, List.replicate 127 0⟩ = false := by
  rw [Snapshot.wellFormed, (show hasLength (List.replicate 127 0) 128 = false by decide), Bool.and_false]

theorem test_illformed_render_count : (Instr.apuRender 65536).wellFormed = false := by decide

theorem test_illformed_read_count : (Instr.rbRead 65536).wellFormed = false := by decide

/-! ### Decoding: words written out from R91 to R106 (V30.1 to V30.5) -/

theorem test_decode_brr :
    decode .op8 [0x00, 0xE8, 0x03, 0x30, 0xF8] = .ok (.brrReset 1000 (-2000)) ∧
    decode .op8 [0x01, 0x90, 0x12, 0x34, 0x56, 0x77, 0x65, 0x43, 0x21, 0x0F] =
      .ok (.brrRead #v[0x90, 0x12, 0x34, 0x56, 0x77, 0x65, 0x43, 0x21, 0x0F]) ∧
    decode .op8 [0x02] = .ok .brrNext ∧ decode .op8 [0x03] = .ok .brrFin := by decide

theorem test_decode_env_voice :
    decode .op8 [0x10, 0xFE, 0x77] = .ok (.envTick 30718) ∧
    decode .op8 [0x11] = .ok .envKon ∧ decode .op8 [0x12] = .ok .envKoff ∧
    decode .op8 [0x20, 0xF8, 0x03, 0x00, 0x20, 0xFF, 0x77] = .ok (.voiceRender 1016 0x2000 30719) ∧
    decode .op8 [0x21, 0x02] = .ok (.voiceKon 0x02) ∧ decode .op8 [0x22] = .ok .voiceKoff := by decide

theorem test_decode_dsp :
    decode .op8 [0x30] = .ok .dspTick ∧
    decode .op8 [0x31, 0x4C, 0x01] = .ok (.dspWrite 0x4C 0x01) ∧
    decode .op8 [0x32, 0x08] = .ok (.dspRead 0x08) := by decide

theorem test_decode_apu :
    decode .op8 [0x40] = .ok .apuReset ∧
    decode .op8 [0x42, 0x20, 0x00] = .ok (.apuRender 32) ∧
    decode .op8 [0x43, 0x00, 0x03] = .ok (.apuReadByte 0x0300) ∧
    decode .op8 [0x44, 0x00, 0x03, 0xA3] = .ok (.apuWriteByte 0x0300 0xA3) := by decide

/-- P6: the line of a snapshot is 0x41, 65536 memory bytes, 128 register bytes. -/
theorem test_decode_set_state (l : List Byte) (h : l.length = 65664) :
    decode .op8 (0x41 :: l) = .ok (.apuSetState ⟨l.take 65536, l.drop 65536⟩) := by
  change (operandSnapshot l).map Instr.apuSetState = _
  rw [operandSnapshot, if_pos ((hasLength_iff _ _).2 h)]
  rfl

/-- P7's lines. -/
theorem test_decode_rb :
    decode .op8 [0x50] = .ok .rbReset ∧
    decode .op8 [0x51, 0x0A, 0x00, 0xF6, 0xFF] = .ok (.rbWrite 10 (-10)) ∧
    decode .op8 [0x52, 0x02, 0x00] = .ok (.rbRead 2) ∧ decode .op8 [0x53] = .ok .rbCount := by decide

/-- V30.1, V30.2: headers and nibbles. -/
theorem test_decode_blocks :
    decode .brrblk [0xC3, 0x01, 0x23, 0x45, 0x67, 0x89, 0xAB, 0xCD, 0xEF] =
      .ok (.brrblkF0 ⟨12, true, true, #v[0, 1, 2, 3, 4, 5, 6, 7, 8, 9, 10, 11, 12, 13, 14, 15]⟩) ∧
    decode .brrblk [0x87, 0x8F, 0x70, 0, 0, 0, 0, 0, 0] =
      .ok (.brrblkF1 ⟨8, true, true, #v[8, 15, 7, 0, 0, 0, 0, 0, 0, 0, 0, 0, 0, 0, 0, 0]⟩) ∧
    decode .brrblk [0xC8, 0x70, 0, 0, 0, 0, 0, 0, 0x01] =
      .ok (.brrblkF2 ⟨12, false, false, #v[7, 0, 0, 0, 0, 0, 0, 0, 0, 0, 0, 0, 0, 0, 0, 1]⟩) ∧
    decode .brrblk [0x5D, 0, 0, 0, 0, 0, 0, 0, 0x20] =
      .ok (.brrblkF3 ⟨5, false, true, #v[0, 0, 0, 0, 0, 0, 0, 0, 0, 0, 0, 0, 0, 0, 2, 0]⟩) := by decide

theorem test_decode_voice_registers :
    decode .dspregWrite [0x70, 0x7F] = .ok (.vxVoll 7 (.write 0x7F)) ∧
    decode .dspregWrite [0x61, 0x80] = .ok (.vxVolr 6 (.write 0x80)) ∧
    decode .dspregWrite [0x52, 0x01] = .ok (.vxPitchl 5 (.write 0x01)) ∧
    decode .dspregWrite [0x13, 0x10] = .ok (.vxPitchh 1 (.write 0x10)) ∧
    decode .dspregRead [0x44] = .ok (.vxSrcn 4 .read) ∧
    decode .dspregWrite [0x35, 0x8E] = .ok (.vxAdsr1 3 (.write 0x8E)) ∧
    decode .dspregWrite [0x26, 0xBF] = .ok (.vxAdsr2 2 (.write 0xBF)) ∧
    decode .dspregWrite [0x07, 0x45] = .ok (.vxGain 0 (.write 0x45)) ∧
    decode .dspregRead [0x58] = .ok (.vxEnvx 5 .read) ∧
    decode .dspregRead [0x09] = .ok (.vxOutx 0 .read) ∧
    decode .dspregWrite [0x0A, 0x55] = .ok (.vxUnusedA 0 (.write 0x55)) ∧
    decode .dspregRead [0x1B] = .ok (.vxUnusedB 1 .read) ∧
    decode .dspregRead [0x7E] = .ok (.vxUnusedE 7 .read) ∧
    decode .dspregWrite [0x7F, 0x7F] = .ok (.cxFir 7 (.write 0x7F)) := by decide

theorem test_decode_global_registers :
    (decode .dspregWrite [0x0C, 1] = .ok (.mvoll (.write 1)) ∧
      decode .dspregWrite [0x1C, 1] = .ok (.mvolr (.write 1)) ∧
      decode .dspregWrite [0x2C, 1] = .ok (.evoll (.write 1)) ∧
      decode .dspregWrite [0x3C, 1] = .ok (.evolr (.write 1)) ∧
      decode .dspregWrite [0x4C, 1] = .ok (.kon (.write 1)) ∧
      decode .dspregWrite [0x5C, 1] = .ok (.koff (.write 1)) ∧
      decode .dspregWrite [0x6C, 1] = .ok (.flg (.write 1)) ∧
      decode .dspregRead [0x7C] = .ok (.endx .read)) ∧
    (decode .dspregWrite [0x0D, 1] = .ok (.efb (.write 1)) ∧
      decode .dspregRead [0x1D] = .ok (.unused1D .read) ∧
      decode .dspregWrite [0x2D, 1] = .ok (.pmon (.write 1)) ∧
      decode .dspregWrite [0x3D, 1] = .ok (.non (.write 1)) ∧
      decode .dspregWrite [0x4D, 1] = .ok (.eon (.write 1)) ∧
      decode .dspregWrite [0x5D, 1] = .ok (.dir (.write 1)) ∧
      decode .dspregWrite [0x6D, 1] = .ok (.esa (.write 1)) ∧
      decode .dspregWrite [0x7D, 1] = .ok (.edl (.write 1))) := by decide

/-- V30.3. -/
theorem test_decode_values :
    decode (.cfgWrite .adsr1) [0x8E] = .ok (.adsr1Adsr 0 14 .write) ∧
    decode (.cfgTick .adsr1) [0x7F, 0xFF, 0x77] = .ok (.adsr1Gain 0x7F (.tick 30719)) ∧
    decode (.cfgWrite .adsr2) [0xBF] = .ok (.adsr2 5 31 .write) ∧
    decode (.cfgWrite .gain) [0x45] = .ok (.gainDirect 0x45 .write) ∧
    decode (.cfgWrite .gain) [0x9F] = .ok (.gainLindec 31 .write) ∧
    decode (.cfgWrite .gain) [0xBF] = .ok (.gainExpdec 31 .write) ∧
    decode (.cfgTick .gain) [0xC0, 0x01, 0x00] = .ok (.gainLininc 0 (.tick 1)) ∧
    decode (.cfgWrite .gain) [0xFF] = .ok (.gainBentinc 31 .write) ∧
    decode (.cfgWrite .flg) [0x3F] = .ok (.flgValue false false true 31 .write) ∧
    decode (.cfgTick .flg) [0xE0] = .ok (.flgValue true true true 0 .tick) := by decide

/-- R102, R311: no operation. -/
theorem test_decode_refuses :
    decode .op8 [0x04] = .error (.unknownOp 0x04) ∧ decode .op8 [0x60] = .error (.unknownOp 0x60) ∧
    decode .op8 [0x10, 0x00, 0x80] = .error .badOperand ∧
    decode .op8 [0x31, 0x80, 0x00] = .error .badOperand ∧
    decode .op8 [0x01, 0x90] = .error .badOperand ∧ decode .op8 [] = .error .badOperand := by decide

theorem test_table_words :
    decodeTableWord 8 0x44 = some (.apuWriteByte 0 0) ∧
    decodeTableWord 7 0x58 = some (.vxEnvx 5 (.write 0)) ∧
    decodeTableWord 72 0x0C0000000000000001 =
      some (.brrblkF3 ⟨0, false, false, #v[0, 0, 0, 0, 0, 0, 0, 0, 0, 0, 0, 0, 0, 0, 0, 1]⟩) ∧
    decodeTableWord 8 0xE5 = some (.gainBentinc 5 .write) ∧ decodeTableWord 8 0x13 = some (.vxPitchh 1 (.write 0)) := by
  decide

theorem test_fetched_word_runs :
    step (State.reset.withFetchWord 8 0x11) =
      .next (State.reset.withSelEnv { State.reset.selVoice.env with mode := .attack }) := by rfl

/-! ### One step of each operation -/

/-- What `f` sees of the next state, if there is one. -/
def after {α : Type} (o : Host.Outcome State Fault Refusal) (f : State → α) : Option α :=
  match o with
  | .next t => some (f t)
  | .fault _ => none
  | .refused _ => none

/-- The name of a refusal. -/
def refusal (o : Host.Outcome State Fault Refusal) : Option Refusal :=
  match o with
  | .next _ => none
  | .fault _ => none
  | .refused r => some r

/-- The reset state with its voice 0 changed. -/
def voice0 (f : Voice → Voice) : State := State.reset.withDsp (State.reset.apu.dsp.mapVoice 0 f)

/-- The reset state with the selected decoder's history. -/
def history (a b : Sample) : State := voice0 fun v => { v with dec := { v.dec with h1 := a, h2 := b } }

/-- The buffered outputs as signed numbers. -/
def outputs (s : State) : List Int := s.selVoice.dec.buf.toList.map BitVec.toInt

/-- Mode and level of the selected envelope. -/
def envelope (s : State) : EnvMode × Nat := (s.selVoice.env.mode, s.selVoice.env.level.toNat)

/-- The reset state with the selected envelope set. -/
def withEnvelope (mode : EnvMode) (level : Level) (adsr1 adsr2 gain : Byte) : State :=
  voice0 fun v => { v with env := ⟨mode, level, adsr1, adsr2, gain⟩ }

/-- The last result as signed numbers. -/
def returned (s : State) : List Int :=
  match s.outbox.getLast? with
  | some (.sample x) => [x.toInt]
  | some (.finished b) => [if b then 1 else 0]
  | some (.voice l r raw) => [l.toInt, r.toInt, raw.toInt]
  | some (.frame l r) => [l.toInt, r.toInt]
  | some (.byte b) => [(b.toNat : Int)]
  | some (.frames l r) => l.map BitVec.toInt ++ r.map BitVec.toInt
  | some (.count n) => [(n : Int)]
  | none => []

/-- V30.5: `BRR.RESET 1000, -2000`. -/
theorem test_brr_reset : after (exec (.brrReset 1000 (-2000)) State.reset)
    (fun t => (t.selVoice.dec.h1.toInt, t.selVoice.dec.h2.toInt, t.selVoice.dec.idx)) =
      some (1000, -2000, 16) := by decide +kernel

/-- V40.4: header 0xCF on history (1000, -2000). -/
theorem test_brr_read : after (exec (.brrRead #v[0xCF, 0x70, 0, 0, 0, 0, 0, 0, 0]) (history 1000 (-2000)))
    (fun t => (outputs t, t.selVoice.dec.endFlag, t.selVoice.dec.idx)) =
      some ([32092, -8686, 23852, -15622, 18084, -20350, 14274, -23354, 11972, -25050, 10796, -25786,
        10428, -25850, 10612, -25466], true, 0) := by decide +kernel

/-- P1: block B after block A. -/
theorem test_brr_read_continues : after (exec (.brrRead #v[0x87, 0x10, 0, 0, 0, 0, 0, 0, 0xF0]) (history (-512) 0))
    outputs = some [-224, -210, -198, -186, -176, -166, -156, -148, -140, -132, -124, -118, -112, -106,
      -356, -334] := by decide +kernel

/-- R140. -/
theorem test_brr_next : after (exec .brrNext (voice0 fun v =>
    { v with dec := { v.dec with buf := v.dec.buf.set 15 (-334), idx := 15 } }))
    (fun t => (returned t, t.selVoice.dec.idx)) = some ([-334], 16) := by decide +kernel

/-- V40.9: after reset BRR.NEXT is refused. -/
theorem test_brr_next_refused : refusal (exec .brrNext State.reset) = some .decoderExhausted := by
  decide +kernel

/-- V40.9. -/
theorem test_brr_fin : after (exec .brrFin State.reset) returned = some [1] := by decide +kernel

/-- V40.1, shift 9. -/
theorem test_brrblk_f0 : after (exec (.brrblkF0 ⟨9, false, false, #v[0, 1, 2, 3, 4, 5, 6, 7, 8, 9, 10, 11, 12, 13, 14, 15]⟩)
    (history 77 88)) outputs = some [0, 512, 1024, 1536, 2048, 2560, 3072, 3584, -4096, -3584, -3072,
      -2560, -2048, -1536, -1024, -512] := by decide +kernel

/-- The reset state of a machine with another configuration. -/
def configuredAs (f : Config → Config) : State := { State.reset with cfg := f Config.default }

/-- U5: with an exception for shift 14 and nibble 15 its value 100 is taken, and the default elsewhere
(R134: -2048 by the sign; R139 doubles). -/
theorem test_brrblk_f0_special_scale : after (exec (.brrblkF0 ⟨14, false, false, #v[15, 14, 1, 0, 0, 0, 0, 0, 0, 0, 0, 0, 0, 0, 0, 0]⟩)
    (configuredAs fun c => { c with scaling := [((14, 15), 100)] }))
    (fun t => (outputs t).take 3) = some [200, -4096, 0] := by decide +kernel

/-- D2: in a memory of 4096 bytes an address names the byte at its remainder. -/
theorem test_small_memory : after (exec (.apuWriteByte 0x1234 0xA3) (configuredAs fun c => { c with memTop := 0x0FFF }))
    (fun t => (readByte t.cfg t.apu.mem 0x0234, readByte t.cfg t.apu.mem 0xF234, t.apu.mem)) =
    some (0xA3, 0xA3, [(0x0234, 0xA3)]) := by decide +kernel

/-- D15, D19: an exception to the attack formula is what the tick takes, and one to the commit overrides it. -/
theorem test_configured_attack :
    after (exec (.envTick 0) { withEnvelope .attack 100 0x80 0 0 with
      cfg := { Config.default with attack := [((0x80, 100), (150, 31))] } }) (fun t => t.selVoice.env.level) = some 150 ∧
    after (exec (.envTick 0) { withEnvelope .attack 100 0x8F 0 0 with
      cfg := { Config.default with commit := [((true, (.attack, 100), (.attack, 1124)), (.sustain, 7))] } })
      (fun t => (t.selVoice.env.mode, t.selVoice.env.level)) = some (.sustain, 7) := by decide +kernel

/-- V40.3, header 0xC4. -/
theorem test_brrblk_f1 : after (exec (.brrblkF1 ⟨12, false, false, #v[7, 0, 0, 0, 0, 0, 0, 0, 0, 0, 0, 0, 0, 0, 0, 0]⟩)
    State.reset) outputs = some [28672, 26880, 25200, 23624, 22146, 20760, 19462, 18244, 17102, 16032,
      15030, 14090, 13208, 12382, 11608, 10882] := by decide +kernel

/-- V40.2: shift 15, nibble 0xF, history (100, 0). -/
theorem test_brrblk_f1_shift_15 : after (exec (.brrblkF1 ⟨15, false, false, #v[15, 0, 0, 0, 0, 0, 0, 0, 0, 0, 0, 0, 0, 0, 0, 0]⟩)
    (history 100 0)) (fun t => (outputs t).head?) = some (some (-4004)) := by decide +kernel

/-- V40.3, header 0xC8. -/
theorem test_brrblk_f2 : after (exec (.brrblkF2 ⟨12, false, false, #v[7, 0, 0, 0, 0, 0, 0, 0, 0, 0, 0, 0, 0, 0, 0, 0]⟩)
    State.reset) outputs = some [28672, -10880, 17916, -21184, 8356, -29748, 994, 29782, -9698, 19126,
      -19988, 9500, -28690, 1936, 30586, -9048] := by decide +kernel

/-- V40.5: the clamp, (0xC8, 8, (-32768, 32766)) gives 0. -/
theorem test_brrblk_f2_clamps : after (exec (.brrblkF2 ⟨12, false, false, #v[8, 0, 0, 0, 0, 0, 0, 0, 0, 0, 0, 0, 0, 0, 0, 0]⟩)
    (history (-32768) 32766)) (fun t => (outputs t).head?) = some (some 0) := by decide +kernel

/-- V40.3, header 0xCC. -/
theorem test_brrblk_f3 : after (exec (.brrblkF3 ⟨12, false, false, #v[7, 0, 0, 0, 0, 0, 0, 0, 0, 0, 0, 0, 0, 0, 0, 0]⟩)
    State.reset) outputs = some [28672, -14016, 17054, -23506, 9440, -29476, 4900, 32752, -10668, 19754,
      -21376, 11074, -28270, 5740, -32254, 2914] := by decide +kernel

/-- V40.5: (0x5C, 0xD, (-4, 3)) gives -106. -/
theorem test_brrblk_f3_floors : after (exec (.brrblkF3 ⟨5, false, false, #v[13, 0, 0, 0, 0, 0, 0, 0, 0, 0, 0, 0, 0, 0, 0, 0]⟩)
    (history (-4) 3)) (fun t => (outputs t).head?) = some (some (-106)) := by decide +kernel

/-- V41.1, tick 2: the clamp ends the attack. -/
theorem test_env_tick : after (exec (.envTick 30718) (withEnvelope .attack 1024 0xFF 0xBF 0)) envelope =
    some (.decay, 2047) := by decide +kernel

/-- V41.1, tick 139: the mode changes although the rate does not fire. -/
theorem test_env_tick_ungated : after (exec (.envTick 30581) (withEnvelope .decay 1539 0xFF 0xBF 0)) envelope =
    some (.sustain, 1539) := by decide +kernel

/-- V41.8. -/
theorem test_env_kon : after (exec .envKon (withEnvelope .sustain 900 0xFF 0xBF 0)) envelope =
    some (.attack, 0) := by decide +kernel

/-- P2. -/
theorem test_env_koff : after (exec .envKoff (withEnvelope .sustain 1520 0xFF 0xBF 0)) envelope =
    some (.release, 1520) := by decide +kernel

/-- A voice in the middle of a block, at direct gain 2032. -/
def playing : State := voice0 fun v =>
  { v with
    dec := { v.dec with buf := Vector.replicate 16 3072, idx := 3 }
    env := ⟨.directGain, 2032, 0, 0, 0x7F⟩
    voll := 0x7F, volr := 0x80, pitchh := 0x08, pmon := true, pos := 0x800, cur := 1024, nxt := 1024 }

/-- V42.1, V42.3, V42.4, V42.5: pitch 0x83E by `last` 1016; raw 1016; outputs 1008 and -1016. -/
theorem test_voice_render : after (exec (.voiceRender 1016 0 5) playing)
    (fun t => (returned t, t.selVoice.pos, t.selVoice.cur, t.selVoice.nxt, t.selVoice.dec.idx)) =
      some ([1008, -1016, 1016], 0x03E, 1024, 3072, 4) := by decide +kernel

/-- P8, tick 17: the sample at the old level, then silence. -/
theorem test_voice_render_ends : after (exec (.voiceRender 0 0 5) (voice0 fun v =>
    { v with
      dec := { v.dec with idx := 1, endFlag := true }
      env := ⟨.directGain, 2032, 0, 0, 0x7F⟩, voll := 0x7F, pitchh := 0x10, cur := -1024 }))
    (fun t => (returned t, envelope t)) = some ([-1009, 0, -1016], .release, 0) := by decide +kernel

/-- The memory of P3: directory entry 0 and one looping block. -/
def loopMemory : Memory :=
  Memory.ofBytes 0x200 [0x00, 0x03, 0x00, 0x03] ++
  Memory.ofBytes 0x300 [0xA3, 0x12, 0x34, 0x56, 0x77, 0x65, 0x43, 0x21, 0x0F]

/-- P3, the state after key-on: addresses, `nxt`, `idx`. -/
theorem test_voice_kon : after (exec (.voiceKon 0x02) (State.reset.withMem loopMemory))
    (fun t => ([t.selVoice.sampleAddress, t.selVoice.startAddress, t.selVoice.loopStart, t.selVoice.nxt],
      t.selVoice.dec.idx, envelope t)) =
      some ([0x0309, 0x0300, 0x0300, 1024], 1, .attack, 0) := by decide +kernel

/-- P3, the state after key-on: the buffered outputs. -/
theorem test_voice_kon_outputs : after (exec (.voiceKon 0x02) (State.reset.withMem loopMemory)) outputs =
    some [1024, 2048, 3072, 4096, 5120, 6144, 7168, 7168, 6144, 5120, 4096, 3072, 2048, 1024, 0, -1024] := by
  decide +kernel

/-- R201. -/
theorem test_voice_koff : after (exec .voiceKoff (withEnvelope .attack 700 0x8F 0 0)) envelope =
    some (.release, 700) := by decide +kernel

/-- A state that a run of register writes leaves (every line of it a DSP.WRITE). -/
def configured (m : Memory) (writes : List (RegAddr × Byte)) : State :=
  { State.reset with
    apu := { mem := m, dsp := writes.foldl (fun d w => d.write Config.default m w.1 w.2) State.reset.apu.dsp } }

/-- V43.1, tick 1: three noise voices saturate. -/
theorem test_dsp_tick_saturates : after (exec .dspTick (configured loopMemory
    [(0x00, 0x7F), (0x01, 0x80), (0x07, 0x7F), (0x10, 0x7F), (0x11, 0x80), (0x17, 0x7F), (0x20, 0x7F),
      (0x21, 0x80), (0x27, 0x7F), (0x0C, 0x7F), (0x1C, 0x7F), (0x5D, 0x02), (0x3D, 0x07), (0x6C, 0x3F),
      (0x4C, 0x07)]))
    (fun t => (returned t, t.apu.dsp.noise, t.apu.dsp.counter, t.selVoice.rawOut.toInt)) =
      some ([32511, -32512], 0x2000, 30719, 16256) := by decide +kernel

/-- P5's registers, with the memory and the histories it has after tick 2. -/
def echoing : State :=
  let s := configured (loopMemory ++ [(0x4000, 0xF0), (0x4001, 0x03), (0x4002, 0xFC), (0x4003, 0x01)])
    [(0x00, 0x7F), (0x01, 0x40), (0x03, 0x10), (0x07, 0x7F), (0x0C, 0x7F), (0x1C, 0x7F), (0x5D, 0x02),
      (0x2C, 0x7F), (0x3C, 0x7F), (0x0D, 0x40), (0x4D, 0x01), (0x6D, 0x40), (0x7F, 0x7F), (0x6C, 0x00),
      (0x4C, 0x01)]
  s.withDsp { s.apu.dsp.mapVoice 0 (fun v =>
    { v with env := { v.env with mode := .directGain, level := 2032 }, cur := 2048, nxt := 3072
             dec := { v.dec with idx := 3 } }) with hpos := 2, counter := 30718 }

/-- P5, tick 3: frame, stored bytes, newest history entries. -/
theorem test_dsp_tick_echo : after (exec .dspTick echoing)
    (fun t => (returned t, [0x4000, 0x4001, 0x4002, 0x4003].map (readByte t.cfg t.apu.mem),
      t.apu.dsp.histL[3].toInt, t.apu.dsp.histR[3].toInt, t.apu.dsp.hpos)) =
      some ([2984, 1504], [0xD4, 0x09, 0xF4, 0x04], 504, 254, 3) := by decide +kernel

/-- V30.4: 0x13 is voice 1's PITCHH. -/
theorem test_dsp_write : after (exec (.dspWrite 0x13 0x10) State.reset)
    (fun t => ((t.voice 1).pitchh, (t.voice 0).pitchh, t.reg 0x13)) = some (0x10, 0, 0x10) := by
  decide +kernel

/-- V43.3: ENVX at level 2032. -/
theorem test_dsp_read : after (exec (.dspRead 0x08) playing) returned = some [127] := by decide +kernel

/-- V43.3, after P8's tick 17: OUTX of raw -1016. -/
theorem test_dsp_read_outx : after (exec (.dspRead 0x09) (voice0 fun v => { v with rawOut := -1016 }))
    returned = some [0xFC] := by decide +kernel

/-- R330, R331. -/
theorem test_apu_reset : after (exec .apuReset echoing)
    (fun t => (t.apu.dsp == State.reset.apu.dsp, readByte t.cfg t.apu.mem 0x4000)) = some (true, 0xF0) := by
  decide +kernel

/-- R311: a snapshot that is not of 65536 + 128 bytes. -/
theorem test_apu_set_state_refused : refusal (exec (.apuSetState ⟨[], []⟩) State.reset) = some .badOperand := by
  decide +kernel

/-- P3: the first 17 frames of one voice and one looping block, through the loop. -/
theorem test_apu_render : after (exec (.apuRender 17) (configured loopMemory
    [(0x00, 0x7F), (0x01, 0x40), (0x03, 0x10), (0x07, 0x7F), (0x0C, 0x7F), (0x1C, 0x7F), (0x5D, 0x02),
      (0x6C, 0x20), (0x4C, 0x01)])) returned =
    some ([0, 1000, 2000, 3000, 4000, 5000, 6000, 7000, 7000, 6000, 5000, 4000, 3000, 2000, 1000, 0, -1002] ++
      [0, 504, 1008, 1512, 2016, 2520, 3024, 3528, 3528, 3024, 2520, 2016, 1512, 1008, 504, 0, -505]) := by
  decide +kernel

/-- V44.1. -/
theorem test_apu_read_byte : after (exec (.apuReadByte 0x0300) (State.reset.withMem loopMemory)) returned =
    some [0xA3] := by decide +kernel

/-- R275, at the top of memory. -/
theorem test_apu_write_byte : after (exec (.apuWriteByte 0xFFFF 0xA3) (State.reset.withMem loopMemory))
    (fun t => t.apu.mem == loopMemory ++ [(0xFFFF, 0xA3)]) = some true := by decide +kernel

/-- MEM.LOAD past the top of memory (R105; the wrap is log 20's choice). -/
theorem test_mem_load_wraps : memLoad 0xFFFF [0xA3, 0x12] =
    [.apuWriteByte 0xFFFF 0xA3, .apuWriteByte 0x0000 0x12] := by decide

/-- A ring of capacity 4 as P7 leaves it before its fourth write. -/
def ring3 : State :=
  State.reset.withRing { bufL := [1, 2, 3, 0], bufR := [-1, -2, -3, 0], wr := 3, rd := 2, count := 1 }

/-- P7's last reset. -/
theorem test_rb_reset : after (exec .rbReset ring3) (fun t => t.ring) =
    some ⟨[0, 0, 0, 0], [0, 0, 0, 0], 0, 0, 0⟩ := by decide +kernel

/-- P7's fourth write: the cursor wraps. -/
theorem test_rb_write : after (exec (.rbWrite 4 (-4)) ring3) (fun t => t.ring) =
    some ⟨[1, 2, 3, 4], [-1, -2, -3, -4], 0, 2, 2⟩ := by decide +kernel

/-- V45.2: capacity 4, count 4. -/
theorem test_rb_write_refused : refusal (exec (.rbWrite 4 (-4))
    (State.reset.withRing ⟨[1, 2, 3, 4], [1, 2, 3, 4], 0, 0, 4⟩)) = some .ringOverflow := by decide +kernel

/-- Three pairs unread, across the wrap, as P7 leaves them. -/
def ringWrapped : State := State.reset.withRing ⟨[5, 2, 3, 4], [-5, -2, -3, -4], 1, 2, 3⟩

/-- P7's second read, across the wrap. -/
theorem test_rb_read : after (exec (.rbRead 3) ringWrapped) (fun t => (returned t, t.ring.rd, t.ring.count)) =
    some ([3, 4, 5, -3, -4, -5], 1, 0) := by decide +kernel

/-- V45.2: count 1, `RB.READ 2`. -/
theorem test_rb_read_refused : refusal (exec (.rbRead 2) ring3) = some .ringUnderflow := by decide +kernel

/-- R294. -/
theorem test_rb_count : after (exec .rbCount ring3) returned = some [1] := by decide +kernel

/-- R105: `RB.DRAIN` returns the count, and then as many pairs (P7). -/
theorem test_rb_drain : after (execAll (rbDrain ringWrapped) ringWrapped) (fun t => (t.outbox, t.ring.count)) =
    some ([.count 3, .frames [3, 4, 5] [-3, -4, -5]], 0) := by decide +kernel

/-! ### Register rows (R31 to R43, R233, R237) -/

/-- The register byte, and what `f` sees of a voice, after a write through a register row. -/
def written {α : Type} (i : Instr) (a : RegAddr) (v : VoiceIx) (f : Voice → α) : Option (Byte × α) :=
  after (exec i State.reset) fun t => (t.reg a, f (t.voice v))

theorem test_voice_register_writes :
    written (.vxVoll 7 (.write 0x7F)) 0x70 7 Voice.voll = some (0x7F, 0x7F) ∧
    written (.vxVolr 6 (.write 0x80)) 0x61 6 Voice.volr = some (0x80, 0x80) ∧
    written (.vxPitchl 5 (.write 0x01)) 0x52 5 Voice.pitchl = some (0x01, 0x01) ∧
    written (.vxPitchh 1 (.write 0xFF)) 0x13 1 Voice.pitchh = some (0xFF, 0xFF) ∧
    written (.vxSrcn 4 (.write 0x09)) 0x44 4 Voice.srcn = some (0x09, 0x09) ∧
    written (.vxAdsr1 3 (.write 0x8E)) 0x35 3 (fun v => v.env.adsr1) = some (0x8E, 0x8E) ∧
    written (.vxAdsr2 2 (.write 0xBF)) 0x26 2 (fun v => v.env.adsr2) = some (0xBF, 0xBF) ∧
    written (.vxGain 0 (.write 0x45)) 0x07 0 (fun v => v.env.gain) = some (0x45, 0x45) := by
  decide +kernel

theorem test_storage_register_writes :
    (after (exec (.vxEnvx 0 (.write 0x55)) playing) (fun t => (t.reg 0x08, t.apu.dsp.read t.cfg 0x08)) =
        some (0x55, 127) ∧
      after (exec (.vxOutx 1 (.write 0x55)) State.reset) (fun t => t.apu.dsp.read t.cfg 0x19) = some 0 ∧
      after (exec (.vxUnusedA 2 (.write 0x55)) State.reset) (fun t => t.apu.dsp.read t.cfg 0x2A) = some 0x55 ∧
      after (exec (.vxUnusedB 3 (.write 0x56)) State.reset) (fun t => t.apu.dsp.read t.cfg 0x3B) = some 0x56 ∧
      after (exec (.vxUnusedE 7 (.write 0x57)) State.reset) (fun t => t.apu.dsp.read t.cfg 0x7E) = some 0x57 ∧
      after (exec (.cxFir 7 (.write 0x7F)) State.reset) (fun t => t.apu.dsp.firCoef 7) = some 127) ∧
    (after (exec (.mvoll (.write 1)) State.reset) (fun t => t.apu.dsp.read t.cfg 0x0C) = some 1 ∧
      after (exec (.mvolr (.write 2)) State.reset) (fun t => t.apu.dsp.read t.cfg 0x1C) = some 2 ∧
      after (exec (.evoll (.write 3)) State.reset) (fun t => t.apu.dsp.read t.cfg 0x2C) = some 3 ∧
      after (exec (.evolr (.write 4)) State.reset) (fun t => t.apu.dsp.read t.cfg 0x3C) = some 4 ∧
      after (exec (.flg (.write 0x3F)) State.reset) (fun t => t.apu.dsp.read t.cfg 0x6C) = some 0x3F ∧
      after (exec (.endx (.write 0xFF)) State.reset) (fun t => t.apu.dsp.read t.cfg 0x7C) = some 0xFF) ∧
    (after (exec (.efb (.write 5)) State.reset) (fun t => t.apu.dsp.read t.cfg 0x0D) = some 5 ∧
      after (exec (.unused1D (.write 0xAB)) State.reset) (fun t => t.apu.dsp.read t.cfg 0x1D) = some 0xAB ∧
      after (exec (.dir (.write 2)) State.reset) (fun t => t.apu.dsp.read t.cfg 0x5D) = some 2 ∧
      after (exec (.esa (.write 0x40)) State.reset) (fun t => t.apu.dsp.echoFrame t.cfg) = some (0x4000, 0x4002) ∧
      after (exec (.edl (.write 1)) State.reset) (fun t => t.apu.dsp.read t.cfg 0x7D) = some 1) := by
  decide +kernel

/-- R41: bit v of a mask is the flag of voice v. -/
theorem test_mask_register_writes :
    after (exec (.pmon (.write 0x02)) State.reset) (fun t => allVoices.map (fun v => (t.voice v).pmon)) =
      some [false, true, false, false, false, false, false, false] ∧
    after (exec (.non (.write 0x81)) State.reset) (fun t => allVoices.map (fun v => (t.voice v).non)) =
      some [true, false, false, false, false, false, false, true] ∧
    after (exec (.eon (.write 0x40)) State.reset) (fun t => allVoices.map (fun v => (t.voice v).eon)) =
      some [false, false, false, false, false, false, true, false] := by decide +kernel

/-- R235, R236: KON 0x02 starts voice 1 only; KOFF 0x01 releases voice 0 only. -/
theorem test_kon_koff :
    after (exec (.kon (.write 0x02)) (configured loopMemory [(0x5D, 0x02)]))
      (fun t => (t.reg 0x4C, (t.voice 1).env.mode, (t.voice 1).nxt, (t.voice 0).env.mode, (t.voice 0).nxt)) =
      some (0x02, .attack, 1024, .release, 0) ∧
    after (exec (.koff (.write 0x01)) playing) (fun t => (t.reg 0x5C, envelope t)) =
      some (0x01, .release, 2032) := by decide +kernel

/-! ### Value rows (R99, R106) -/

/-- V41.7, V41.2 (tick 188 to 189), V41.4 (tick 3). -/
theorem test_adsr_values :
    after (exec (.adsr1Adsr 0 15 (.tick 5)) (withEnvelope .directGain 100 0 0 0)) envelope =
      some (.attack, 1124) ∧
    after (exec (.adsr1Adsr 0 14 (.tick 30531)) (withEnvelope .attack 2016 0 0xE0 0)) envelope =
      some (.decay, 2016) ∧
    after (exec (.adsr1Gain 0 (.tick 5)) (withEnvelope .attack 0 0x8F 0 0x7F)) envelope =
      some (.directGain, 2032) ∧
    after (exec (.adsr2 7 0 (.tick 30717)) (withEnvelope .decay 2047 0xFF 0 0)) envelope =
      some (.sustain, 2047) := by decide +kernel

/-- V41.6. -/
theorem test_gain_values :
    after (exec (.gainDirect 0x45 (.tick 5)) (withEnvelope .attack 0 0 0 0)) envelope = some (.directGain, 1104) ∧
    after (exec (.gainLindec 31 (.tick 5)) (withEnvelope .directGain 0x10 0 0 0)) envelope = some (.directGain, 0) ∧
    after (exec (.gainExpdec 31 (.tick 5)) (withEnvelope .directGain 1072 0 0 0)) envelope =
      some (.directGain, 1067) ∧
    after (exec (.gainLininc 31 (.tick 5)) (withEnvelope .directGain 2040 0 0 0)) envelope =
      some (.directGain, 2047) ∧
    after (exec (.gainLininc 0 (.tick 5)) (withEnvelope .attack 100 0 0 0)) envelope = some (.directGain, 100) ∧
    after (exec (.gainBentinc 31 (.tick 5)) (withEnvelope .directGain 0x5F0 0 0 0)) envelope =
      some (.directGain, 0x610) ∧
    after (exec (.gainBentinc 31 (.tick 5)) (withEnvelope .directGain 0x610 0 0 0)) envelope =
      some (.directGain, 0x618) := by decide +kernel

/-- V43.2: noise rate 31 from reset; V43.1: soft reset. -/
theorem test_flg_value :
    after (exec (.flgValue false false true 31 .tick) State.reset) (fun t => (t.reg 0x6C, t.apu.dsp.noise)) =
      some (0x3F, 0x2000) ∧
    after (exec (.flgValue true false true 31 .tick) playing) (fun t => (returned t, envelope t)) =
      some ([0, 0], .release, 0) := by decide +kernel

/-- V43.2: the feedback bit. -/
theorem test_noise_feedback : noiseShift Config.default 0x0002 = 0x4001 ∧
    noiseShift Config.default 0x4001 = 0x6000 := by decide

/-- V41.9. -/
theorem test_rate_gate : fires Config.default 29 30718 = true ∧ fires Config.default 29 30719 = false ∧
    fires Config.default 1 28672 = true ∧ fires Config.default 16 30528 = true ∧ fires Config.default 2 496 = true ∧
    fires Config.default 30 7 = false := by decide

/-- D5, D6: the same block read under the reversed header fields and the other nibble order. -/
theorem test_configured_layout :
    let cfg := { Config.default with header := ⟨0, 4, 6, 7⟩, nibbleOrder := .lowFirst }
    let f := fieldsOf cfg #v[0xA3, 0x12, 0, 0, 0, 0, 0, 0, 0]
    (f.shift, filterOf cfg #v[0xA3, 0, 0, 0, 0, 0, 0, 0, 0], f.loopFlag, f.endFlag, f.nibbles[0], f.nibbles[1]) =
      (3, 2, false, true, 2, 1) := by decide

/-- D9 (R136, R137 at multiples of 64: 61/64 p1 - 15/16 p2; 15/32 p1), D10, D14, D20, D21, D22, D31: defaults and
exceptions. -/
theorem test_configured_formulas :
    (predict Config.default 2 64 32 = 61 - 30 ∧ predict Config.default 1 (-64) 0 = -30) ∧
    (brrOut { Config.default with output := [(7, 3)] } 7 = 3 ∧ brrOut Config.default 7 = 14) ∧
    (counterStep { Config.default with counterTop := 99 } 0 = 99 ∧
      fires { Config.default with rates := Vector.replicate 32 7 } 31 14 = true) ∧
    (modulatedPitch { Config.default with modulation := [((32, 1024), 5)] } 32 1024 = 5 ∧
      modulatedPitch Config.default 32 1024 = 1025) ∧
    (interpolate { Config.default with interpolation := [((2, 4, 0), 9)] } 2 4 0 = 9 ∧
      interpolate Config.default 1024 2048 0x800 = 1536) ∧
    (noiseShift { Config.default with noiseNext := [(1, 5)] } 1 = 5 ∧
      noiseSample { Config.default with noiseSample := [(1, 5)] } 1 = 5) ∧
    State.reset.apu.dsp.fir { Config.default with echoFilter := .identity } (Vector.replicate 8 300) = 600 := by
  decide

/-- D13, D16, D26, D36: R68's entry (DIR 2, SRCN 1), R165's bit, R170 at 512 under SL 1, each by its default and by
an exception, and a configured FLG after APU.RESET. -/
theorem test_configured_layouts :
    (directoryEntry Config.default 2 1 = (0x0204, 0x0206) ∧
      directoryEntry { Config.default with directory := [((2, 1), (0x0206, 0x0204))] } 2 1 = (0x0206, 0x0204)) ∧
    (adsrGoverns Config.default 0x8F = true ∧
      adsrGoverns { Config.default with governs := [(0x8F, false)] } 0x8F = false) ∧
    (reachesSustain Config.default 512 0x20 = false ∧
      reachesSustain { Config.default with threshold := [((512, 0x20), true)] } 512 0x20 = true) ∧
    after (exec .apuReset (configuredAs fun c => { c with flgReset := 0x60 })) (fun t => t.apu.dsp.reg 0x6C) =
      some 0x60 := by
  decide +kernel

/-! ### Witnesses: for every statement with hypotheses, a state and operands that meet them -/

/-- IntegerPrimitivesMeetTheirDefinitions: each clause at the ends of its range. -/
theorem witness_integer_clauses :
    clamp16 (-32769) = -32768 ∧ clamp16 (-32768) = -32768 ∧ clamp16 32767 = 32767 ∧
    clamp16 32768 = 32767 ∧ even (-3) = -4 ∧ even 5 = 4 ∧ even 4 = 4 ∧ asr (-1) 5 = -1 := by decide

/-- A state with one line issued. -/
def issued (s : State) (port : Port) (bytes : List Byte) : State := { s with inbox := [⟨port, 0, bytes⟩] }

theorem echoing_inv : echoing.Inv := by
  unfold State.Inv Dsp.ok Voice.ok Voice.evenSamples Voice.mirrors Ring.ok
  decide +kernel

/-- EveryStepKeepsTheInvariant: a tick with the echo running. -/
theorem witness_invariant_step :
    (issued echoing .op8 [0x30]).Inv ∧ ∃ t, step (issued echoing .op8 [0x30]) = .next t :=
  ⟨echoing_inv, _, rfl⟩

/-- DecodeOfEncodeIsIdentity and EncodeOfDecodeIsIdentity, at the largest count. -/
theorem witness_codec : (Instr.apuRender 65535).wellFormed = true ∧
    decode .op8 [0x42, 0xFF, 0xFF] = .ok (.apuRender 65535) := by decide

/-- StepPerformsTheHeadLine: each clause. -/
theorem witness_step_clauses :
    (issued echoing .op8 [0x22]).inbox = ⟨.op8, 0, [0x22]⟩ :: [] ∧ decode .op8 [0x22] = .ok .voiceKoff ∧
    decode .op8 [0x60] = .error (.unknownOp 0x60) ∧ decode .op8 [0x22, 0x00] = .error .badOperand ∧
    echoing.inbox = [] := by decide +kernel

/-- OnlyContractViolationsAreRefused: each of the three refusals, and an operation that none touches. -/
theorem witness_refusal_clauses :
    (Instr.brrNext.wellFormed = true ∧ (State.reset.voice State.reset.sel).dec.idx = 16) ∧
    ((Instr.rbWrite 1 2).wellFormed = true ∧
      (State.reset.withRing ⟨[1, 2, 3, 4], [1, 2, 3, 4], 0, 0, 4⟩).ring.count = State.reset.cfg.rbCapacity) ∧
    ((Instr.rbRead 2).wellFormed = true ∧ ring3.ring.count < 2) ∧
    (Instr.brrNext.wellFormed = true ∧ (playing.voice playing.sel).dec.idx ≠ 16) := by decide +kernel

/-- OnlyTheListedOperationsStore: a key-on. -/
theorem witness_no_store : ∃ t, exec (.kon (.write 1)) echoing = .next t ∧ Instr.kon (.write 1) ≠ .dspTick ∧
    (∀ n, Instr.kon (.write 1) ≠ .apuRender n) ∧ (∀ x, Instr.kon (.write 1) ≠ .apuSetState x) ∧
    (∀ a b, Instr.kon (.write 1) ≠ .apuWriteByte a b) ∧
    (∀ r m e n, Instr.kon (.write 1) ≠ .flgValue r m e n .tick) :=
  ⟨_, rfl, nofun, nofun, nofun, nofun, nofun⟩

/-- OnlyRegisterWritesChangeRegisters and RingAndApuShareNothing: a tick. -/
theorem witness_no_register_write : ∃ t, exec .dspTick echoing = .next t ∧
    (∀ a b, Instr.dspTick ≠ .dspWrite a b) ∧ (∀ a b, Instr.dspTick ≠ decodeReg a (.write b)) ∧
    (∀ b u, Instr.dspTick ≠ decodeAdsr1 b u) ∧ (∀ b u, Instr.dspTick ≠ decodeAdsr2 b u) ∧
    (∀ b u, Instr.dspTick ≠ decodeGain b u) ∧ (∀ b u, Instr.dspTick ≠ decodeFlg b u) ∧
    Instr.dspTick ≠ .apuReset ∧ (∀ x, Instr.dspTick ≠ .apuSetState x) ∧ Instr.dspTick ≠ .rbReset ∧
    (∀ l r, Instr.dspTick ≠ .rbWrite l r) ∧ (∀ n, Instr.dspTick ≠ .rbRead n) := by
  refine ⟨_, rfl, nofun, ?_, ?_, nofun, ?_, nofun, nofun, nofun, nofun, nofun, nofun⟩
  · intro a b; unfold decodeReg; repeat' split
    all_goals exact nofun
  · intro b u; unfold decodeAdsr1; split <;> exact nofun
  · intro b u; unfold decodeGain; repeat' split
    all_goals exact nofun

/-- BlockDecodingIsPure: two states with one history and little else in common. -/
theorem witness_pure_block (b : Block) :
    (∃ t, exec (.brrRead b) (history 0 0) = .next t) ∧ (∃ t, exec (.brrRead b) playing = .next t) ∧
    ((history 0 0).voice (history 0 0).sel).dec.h1 = (playing.voice playing.sel).dec.h1 ∧
    ((history 0 0).voice (history 0 0).sel).dec.h2 = (playing.voice playing.sel).dec.h2 ∧
    playing.cfg = (history 0 0).cfg :=
  ⟨⟨_, rfl⟩, ⟨_, rfl⟩, by decide +kernel, by decide +kernel, rfl⟩

/-- A block with filter 0, end and loop. -/
def loopBlock : Block := #v[0xC3, 0x01, 0x23, 0x45, 0x67, 0x89, 0xAB, 0xCD, 0xEF]

/-- DecodedOutputsAreEven: a block with filter 0, read on two histories. -/
theorem witness_filter_zero : loopBlock[0].toNat / 2 ^ (history 1 3).cfg.header.filterAt % 4 = 0 ∧
    (history 1 3).cfg.predictors[0] = [] ∧ (history 1 3).cfg.predictions = [] ∧
    (∃ t, exec (.brrRead loopBlock) (history 1 3) = .next t) ∧
    (∃ t, exec (.brrRead loopBlock) State.reset = .next t) ∧ State.reset.cfg = (history 1 3).cfg :=
  ⟨by decide, rfl, rfl, ⟨_, rfl⟩, ⟨_, rfl⟩, rfl⟩

/-- FilterZeroOutputsByShift, DecodedOutputsAreEven, BlockRowsDecode: the default configuration meets their
premises, and the shifts at which the clauses meet. -/
theorem witness_default_formulas : State.reset.cfg.scaling = [] ∧ State.reset.cfg.output = [] ∧
    State.reset.cfg.predictors[0] = [] ∧ State.reset.cfg.predictions = [] ∧ evenOutputs State.reset.cfg = true ∧
    (0 : BitVec 4).toNat = 0 ∧ 1 ≤ (1 : BitVec 4).toNat ∧ (12 : BitVec 4).toNat ≤ 12 ∧
    13 ≤ (13 : BitVec 4).toNat ∧ 13 ≤ (15 : BitVec 4).toNat := by decide

/-- BrrNextPopsAndBrrFinReports: the last output, and exhausted. -/
theorem witness_brr_next_clauses :
    ((voice0 fun v => { v with dec := { v.dec with idx := 15 } }).voice 0).dec.idx.val < 16 ∧
    (State.reset.voice State.reset.sel).dec.idx = 16 := by decide +kernel

/-- ReleaseFallsToZero: from the top level in 256 ticks. -/
theorem witness_release :
    ((withEnvelope .release 2047 0 0 0).voice 0).env.mode = .release ∧
    (withEnvelope .release 2047 0 0 0).cfg.release = [] ∧
    (((withEnvelope .release 2047 0 0 0).voice 0).env.level.toNat + 7) / 8 ≤
      (List.replicate 256 (0 : Counter)).length := by decide +kernel

/-- AdsrTicks, LevelMovesOneWayInEachPhase: each phase with ADSR1 bit 7 set. -/
theorem witness_adsr_phases :
    (((withEnvelope .attack 2047 0x80 0 0).voice 0).env.mode = .attack ∧
      ((withEnvelope .attack 2047 0x80 0 0).voice 0).env.adsr1.toNat / 128 = 1) ∧
    (((withEnvelope .decay 0 0xFF 0 0).voice 0).env.mode = .decay ∧
      ((withEnvelope .decay 0 0xFF 0 0).voice 0).env.adsr1.toNat / 128 = 1) ∧
    (((withEnvelope .sustain 1 0x8F 0xFF 0).voice 0).env.mode = .sustain ∧
      ((withEnvelope .sustain 1 0x8F 0xFF 0).voice 0).env.adsr1.toNat / 128 = 1) ∧
    (((withEnvelope .release 1 0x8F 0xFF 0).voice 0).env.mode = .release ∧
      ((withEnvelope .release 1 0x8F 0xFF 0).voice 0).env.adsr1.toNat / 128 = 1) := by decide +kernel

/-- AdsrTicks, DirectGainIsEnteredAndLeft, LevelMovesOneWayInEachPhase: the formulas of these states, which are
those of any level and registers. -/
theorem witness_tick_formulas (mode : EnvMode) (level : Level) (adsr1 adsr2 gain : Byte) :
    specTick (withEnvelope mode level adsr1 adsr2 gain).cfg ∧
      (withEnvelope mode level adsr1 adsr2 gain).cfg.release = [] :=
  ⟨⟨⟨rfl, rfl⟩, rfl, rfl, rfl, rfl, rfl, rfl⟩, rfl⟩

/-- LevelMovesOneWayInEachPhase: its tick. -/
theorem witness_adsr_step : ∃ t, exec (.envTick 0) (withEnvelope .decay 0 0xFF 0 0) = .next t := ⟨_, rfl⟩

/-- DirectGainIsEnteredAndLeft: entered from Attack, left with ADSR1 bit 7 set. -/
theorem witness_direct_gain :
    (((withEnvelope .attack 2032 0x7F 0 0x80).voice 0).env.mode ≠ .release ∧
      ((withEnvelope .attack 2032 0x7F 0 0x80).voice 0).env.adsr1.toNat / 128 = 0) ∧
    (((withEnvelope .directGain 100 0x8F 0 0).voice 0).env.mode = .directGain ∧
      ((withEnvelope .directGain 100 0x8F 0 0).voice 0).env.adsr1.toNat / 128 = 1) := by decide +kernel

/-- RateGatePeriods: the slowest and the fastest rate, and a configuration with the spec's tables. -/
theorem witness_rates : (1 : Fin 32) ≠ 0 ∧ (31 : Fin 32) ≠ 0 ∧ State.reset.cfg.gate = [] ∧
    State.reset.cfg.rates.toList = defaultRates.toList ∧ State.reset.cfg.offsets.toList = defaultOffsets.toList := by
  decide

/-- FirWeighsOldestByC0: both filters. -/
theorem witness_filters : State.reset.cfg.echoFilter = .eightTap ∧ State.reset.cfg.fir = [] ∧
    (configuredAs fun c => { c with echoFilter := .identity }).cfg.echoFilter = .identity ∧
    (configuredAs fun c => { c with echoFilter := .identity }).cfg.fir = [] := by decide

/-- `playing` with a given modulation flag, position, cursor and pitch. -/
def playingAt (pmon : Bool) (pos : BitVec 12) (idx : Fin 17) (pitchl pitchh : Byte) : State :=
  playing.withSelVoice { playing.selVoice with
    pmon := pmon, pos := pos, pitchl := pitchl, pitchh := pitchh, dec := { playing.selVoice.dec with idx := idx } }

/-- VoiceRenderAdvancesThePosition: no whole step (V42.5's largest position), and four steps that just fit,
without and with modulation (V42.4's `last` 1016; the largest pitch). -/
theorem witness_buffered_steps :
    (wholeSteps Config.default ((playingAt false 0x7FF 16 0x00 0x08).voice 0) 0 = 0 ∧
      ((playingAt false 0x7FF 16 0x00 0x08).voice 0).dec.idx.val + 0 ≤ 16) ∧
    (wholeSteps Config.default ((playingAt false 0xFFF 12 0xFF 0x3F).voice 0) 0 = 4 ∧
      ((playingAt false 0xFFF 12 0xFF 0x3F).voice 0).dec.idx.val + 4 ≤ 16) ∧
    (wholeSteps Config.default (playing.voice 0) 1016 = 1 ∧ (playing.voice 0).pmon = true ∧
      (playing.voice 0).dec.idx.val + 1 ≤ 16) := by decide +kernel

/-- EndWithoutLoopSilences: its two cases, the second at end with loop and at neither. -/
theorem witness_end_without_loop :
    (((voice0 fun v => { v with dec := { v.dec with endFlag := true } }).voice 0).dec.endFlag = true ∧
      ((voice0 fun v => { v with dec := { v.dec with endFlag := true } }).voice 0).dec.loopFlag = false) ∧
    ¬ (((voice0 fun v => { v with dec := { v.dec with endFlag := true, loopFlag := true } }).voice 0).dec.endFlag = true ∧
      ((voice0 fun v => { v with dec := { v.dec with endFlag := true, loopFlag := true } }).voice 0).dec.loopFlag = false) ∧
    ¬ ((playing.voice 0).dec.endFlag = true ∧ (playing.voice 0).dec.loopFlag = false) := by
  decide +kernel

/-- A voice `taken` outputs into its block, at position 0xFFF, with the given high byte of the pitch. -/
def exhausting (taken : Fin 17) (pitchh : Byte) (endLoop : Bool) : State := voice0 fun v =>
  { v with
    dec := { v.dec with idx := taken, endFlag := endLoop, loopFlag := endLoop }
    pitchl := 0xFF, pitchh := pitchh, pos := 0xFFF, loopStart := 0x300, sampleAddress := 0x309 }

/-- ExhaustedDecoderFetchesTheNextBlock: one and four steps, the first or the last of which needs the block,
with and without a loop. -/
theorem witness_exhausted :
    (wholeSteps Config.default ((exhausting 16 0x00 true).voice 0) 0 = 1 ∧
      16 < ((exhausting 16 0x00 true).voice 0).dec.idx.val + 1 ∧
      ((exhausting 16 0x00 true).voice 0).dec.endFlag = true ∧
      ((exhausting 16 0x00 true).voice 0).dec.loopFlag = true) ∧
    (wholeSteps Config.default ((exhausting 13 0x3F false).voice 0) 0 = 4 ∧
      16 < ((exhausting 13 0x3F false).voice 0).dec.idx.val + 4 ∧
      ((exhausting 13 0x3F false).voice 0).dec.endFlag = false) := by decide +kernel

/-- VoiceKonRestartsTheVoice, VoiceRenderReturnsTheScaledSource, RegisterReads: the formulas of a playing voice. -/
theorem witness_voice_formulas : playing.cfg.directory = [] ∧ specOutputs playing.cfg ∧ playing.cfg.envx = [] ∧
    playing.cfg.outx = [] := ⟨rfl, ⟨rfl, rfl⟩, rfl, rfl⟩

/-- TickMovesTheClocks: the ranges hold with the echo running, and the formulas are the spec's. -/
theorem witness_clock_ranges : echoing.apu.dsp.ok echoing.cfg ∧ echoing.cfg.counterNext = [] ∧
    echoing.cfg.echoNext = [] := ⟨echoing_inv.2.1, rfl, rfl⟩

/-- The formulas that the tick's other statements take to be the spec's, with the echo running and after reset. -/
theorem witness_tick_defaults : ∀ s ∈ [echoing, State.reset], s.cfg.echoAddress = [] ∧ s.cfg.echoInput = [] ∧
    s.cfg.feedback = [] ∧ s.cfg.volume = [] ∧ s.cfg.release = [] ∧ s.cfg.envScale = [] ∧ s.cfg.accumulate = [] ∧
    s.cfg.memTop = 0xFFFF ∧ s.cfg.flg = ⟨7, 6, 5, 0⟩ := by decide +kernel

/-- EveryStepKeepsTheInvariant, DecodedOutputsAreEven: the spec's formulas keep the ranges. -/
theorem witness_ranges_kept : evenOutputs State.reset.cfg = true ∧ rawOutputsInRange State.reset.cfg = true ∧
    counterStays State.reset.cfg = true ∧ noiseLives State.reset.cfg = true ∧ echoStays State.reset.cfg = true ∧
    inputsHalved State.reset.cfg = true := by decide

/-- The clauses of the tick's statements: FLG bits 5, 6, 7 set (reset) and clear, memory canonical. -/
theorem witness_tick_clauses :
    (State.reset.reg 0x6C).getLsbD 5 = true ∧ (State.reset.reg 0x6C).getLsbD 6 = true ∧
    (State.reset.reg 0x6C).getLsbD 7 = true ∧ (echoing.reg 0x6C).getLsbD 5 = false ∧
    (echoing.reg 0x6C).getLsbD 6 = false ∧ Memory.wf echoing.apu.mem = true ∧
    echoing.cfg.mixOrder = .sourceOrder ∧
    { echoing.cfg with mixOrder := MixOrder.chipOrder }.mixOrder = .chipOrder := by decide +kernel

/-- KonAndKoffWritesFanOut: a set and a clear bit. -/
theorem witness_kon_bits : (0x82 : Byte).getLsbD (7 : VoiceIx).val = true ∧
    (0x82 : Byte).getLsbD (0 : VoiceIx).val = false := by decide

/-- P6's register bytes. -/
def p6Regs : List Byte :=
  [0x7F, 0x40, 0x00, 0x10, 0x00, 0x00, 0x00, 0x7F, 0, 0, 0, 0, 0x7F, 0, 0, 0] ++ List.replicate 12 0 ++
  [0x7F] ++ List.replicate 47 0 ++ [0x01] ++ List.replicate 16 0 ++ [0x02] ++ List.replicate 14 0 ++ [0x20] ++
  List.replicate 19 0

/-- SetStateLoadsTheSnapshot: a snapshot of the right size that keys voice 0 on and no other, and one
of the wrong size. -/
theorem witness_snapshots :
    (List.replicate 65536 (0 : Byte)).length = 65536 ∧ p6Regs.length = 128 ∧
    (p6Regs.getD 0x4C 0).getLsbD (0 : VoiceIx).val = true ∧
    (p6Regs.getD 0x4C 0).getLsbD (7 : VoiceIx).val = false ∧ ([] : List Byte).length ≠ 65536 :=
  ⟨List.length_replicate, by decide +kernel, by decide +kernel, by decide +kernel, by decide⟩

/-- HostBytesReadAndWrite: a canonical memory. -/
theorem witness_canonical : Memory.wf loopMemory = true := by decide

/-- RbWriteAppendsOrIsRefused, RbReadTakesOrIsRefused, RingIsAQueue: a ring that meets its invariant,
with room and with pairs, at the end of its arrays. -/
theorem witness_ring : ring3.ring.ok ring3.cfg.rbCapacity ∧ ring3.ring.count ≠ ring3.cfg.rbCapacity ∧
    1 ≤ ring3.ring.count ∧ ring3.ring.count < 2 ∧
    (ring3.ring.contents ring3.cfg.rbCapacity).length < ring3.cfg.rbCapacity ∧
    1 ≤ (ring3.ring.contents ring3.cfg.rbCapacity).length := by
  unfold Ring.ok
  decide +kernel

/-- The refusing clauses of the RingBuffer: full, and one pair short. -/
theorem witness_ring_refused :
    (State.reset.withRing ⟨[1, 2, 3, 4], [1, 2, 3, 4], 0, 0, 4⟩).ring.count =
      (State.reset.withRing ⟨[1, 2, 3, 4], [1, 2, 3, 4], 0, 0, 4⟩).cfg.rbCapacity ∧ ring3.ring.count < 2 := by
  decide +kernel

end Sys2Proof.Tests
end

section
/-! SUPPORT. The statements about the BRR block decoder (`40_brr_decoder.md`), settled from the frame of replacing
the selected decoder and from one equation for each of its operations. -/

namespace Sys2Proof.Machine

/-! ### Replacing the selected decoder -/

theorem State.voice_withSelDec (s : State) (d : Decoder) :
    (s.withSelDec d).voice s.sel = { s.voice s.sel with dec := d } :=
  s.voice_withSelVoice _

theorem State.voice_emit (s : State) (r : Result) (v : VoiceIx) : (s.emit r).voice v = s.voice v := rfl

/-- Replacing the selected decoder leaves the other voices and everything outside the voices alone. -/
theorem onlyVoice_withSelDec (s : State) (d : Decoder) : OnlyVoice s.sel s (s.withSelDec d) :=
  onlyVoice_withSelVoice s _

/-- Replacing the selected decoder leaves the rest of its voice alone. -/
theorem outsideDecoderKept_withSelDec (s : State) (d : Decoder) :
    OutsideDecoderKept s.sel s (s.withSelDec d) := by
  rw [OutsideDecoderKept, State.voice_withSelDec]

/-! ### The operations of the decoder, one equation each -/

theorem exec_brrReset (s : State) (a b : Sample) :
    exec (.brrReset a b) s = .next (s.withSelDec ((s.voice s.sel).dec.seed a b)) := rfl

theorem exec_brrRead (s : State) (b : Block) :
    exec (.brrRead b) s = .next (s.withSelDec ((s.voice s.sel).dec.read s.cfg b)) := rfl

theorem exec_brrNext (s : State) : exec .brrNext s = execBrrNext s := rfl

theorem exec_brrNext_of_lt (s : State) (h : (s.voice s.sel).dec.idx.val < 16) :
    exec .brrNext s =
      .next ((s.withSelDec { (s.voice s.sel).dec with idx := ⟨(s.voice s.sel).dec.idx.val + 1, by omega⟩ }).emit
        (.sample (s.voice s.sel).dec.buf[(s.voice s.sel).dec.idx.val])) := by
  rw [exec_brrNext, execBrrNext, State.selVoice_eq, Decoder.pop_of_lt _ h]

theorem exec_brrNext_exhausted (s : State) (h : (s.voice s.sel).dec.idx = 16) :
    exec .brrNext s = .refused .decoderExhausted := by
  rw [exec_brrNext, execBrrNext, State.selVoice_eq, Decoder.pop_exhausted _ h]

theorem exec_brrFin (s : State) :
    exec .brrFin s = .next (s.emit (.finished (s.voice s.sel).dec.finished)) := rfl

theorem Decoder.finished_eq_decide (d : Decoder) : d.finished = decide (d.idx.val = 16) := by
  simp [Decoder.finished, Fin.ext_iff]

/-- The selected decoder after a BRR.READ that completed. -/
theorem dec_of_exec_brrRead {s t : State} {b : Block} (h : exec (.brrRead b) s = .next t) :
    (t.voice s.sel).dec = (s.voice s.sel).dec.read s.cfg b := by
  obtain rfl : s.withSelDec ((s.voice s.sel).dec.read s.cfg b) = t := by
    simpa only [exec_brrRead, Host.Outcome.next.injEq] using h
  rw [State.voice_withSelDec]

/-! ### Filter 0 (R135): no prediction, so no history -/

/-- The filter field, read arithmetically from the header byte (R91). -/
theorem filterOf_eq_zero (cfg : Config) (b : Block) (h : b[0].toNat / 2 ^ cfg.header.filterAt % 4 = 0) :
    filterOf cfg b = 0 := by
  apply BitVec.eq_of_toNat_eq
  simpa [filterOf, BitVec.extractLsb'_toNat, Nat.shiftRight_eq_div_pow] using h

/-- A predictor without terms and without exceptions predicts 0 (R135). -/
theorem predict_filter_zero (cfg : Config) (hterms : cfg.predictors[0] = []) (hexc : cfg.predictions = [])
    (p1 p2 : Int) : predict cfg 0 p1 p2 = 0 := by
  simp [predict, hterms, hexc]

/-- Where the predictor is 0, each output is made from its own nibble alone. -/
theorem brrDecode_of_predict_zero (cfg : Config) (filter : BitVec 2) (shift : BitVec 4)
    (hp : ∀ p1 p2, predict cfg filter p1 p2 = 0) (ns : List Nibble) (h1 h2 : Sample) :
    (brrDecode cfg filter shift ns h1 h2).1 = ns.map fun n => brrOut cfg (scale cfg n shift) := by
  induction ns generalizing h1 h2 with
  | nil => rfl
  | cons n ns ih => simp [brrDecode, brrSample, hp, ih]

/-- Where the predictor is 0, the outputs of a block do not depend on the decoder that reads it. -/
theorem Decoder.readFields_buf_of_predict_zero (d d' : Decoder) (cfg : Config) (filter : BitVec 2) (f : BlockFields)
    (hp : ∀ p1 p2, predict cfg filter p1 p2 = 0) :
    (d.readFields cfg filter f).buf = (d'.readFields cfg filter f).buf := by
  apply Vector.toList_inj.1
  simp only [Decoder.readFields_toList, brrDecode_of_predict_zero cfg filter f.shift hp]

/-! ### The statements -/

/-- Settles O14: BRR.RESET replaces the selected decoder by the seeded one. -/
theorem brrResetSeedsTheHistory : Obligations.BrrResetSeedsTheHistory := by
  intro s a b
  refine ⟨_, exec_brrReset s a b, ?_⟩
  rw [State.voice_withSelDec]
  exact ⟨rfl, rfl, rfl, rfl, rfl, rfl, outsideDecoderKept_withSelDec s _, onlyVoice_withSelDec s _, rfl⟩

/-- Settles O17: both decoders are the same block read with the same history. -/
theorem blockDecodingIsPure : Obligations.BlockDecodingIsPure := by
  intro s s' t t' b hcfg ht ht' h1 h2
  rw [dec_of_exec_brrRead ht, dec_of_exec_brrRead ht', hcfg]
  exact Decoder.readFields_history _ _ _ _ _ h1 h2

/-- Settles O18: every output is even and the history is the last two of them; without a prediction an output is
made from its nibble alone. -/
theorem decodedOutputsAreEven : Obligations.DecodedOutputsAreEven := by
  constructor
  · intro s t b heven ht
    rw [dec_of_exec_brrRead ht]
    have hbuf (i : Fin 16) : ((s.voice s.sel).dec.read s.cfg b).buf[i.val].toInt % 2 = 0 :=
      (evenSample_iff _).1 (Decoder.readFields_even _ _ _ _ heven i)
    refine ⟨hbuf, ?_, ?_⟩
    · rw [Decoder.read, Decoder.readFields_h1]
      exact hbuf 15
    · rw [Decoder.read, Decoder.readFields_h2]
      exact hbuf 14
  · intro s s' t t' b hcfg hterms hexc hfilter ht ht'
    rw [dec_of_exec_brrRead ht, dec_of_exec_brrRead ht', hcfg, Decoder.read, Decoder.read,
      filterOf_eq_zero _ _ hfilter]
    exact Decoder.readFields_buf_of_predict_zero _ _ _ _ _ (predict_filter_zero _ hterms hexc)

/-- Settles O20: BRR.NEXT replaces the selected decoder by the popped one and returns the sample, BRR.FIN returns
the finished flag. -/
theorem brrNextPopsAndBrrFinReports : Obligations.BrrNextPopsAndBrrFinReports := by
  refine ⟨⟨fun s h => ?_, exec_brrNext_exhausted⟩, fun s => ?_⟩
  · refine ⟨_, exec_brrNext_of_lt s h, rfl, ?_⟩
    rw [State.voice_emit, State.voice_withSelDec]
    exact ⟨rfl, rfl, rfl, rfl, rfl, rfl, outsideDecoderKept_withSelDec s _,
      onlyVoice_emit _ _ _ _ (onlyVoice_withSelDec s _)⟩
  · rw [← Decoder.finished_eq_decide]
    exact ⟨_, exec_brrFin s, rfl, ⟨rfl, rfl, rfl, rfl⟩, rfl⟩

end Sys2Proof.Machine
end

section
/-! SUPPORT. The statements about the envelope (`41_envelope.md`), settled from the frame of replacing the selected
envelope, one equation for each of its operations, and the rate gate as a congruence. -/

namespace Sys2Proof.Machine

/-! ### Replacing the selected envelope -/

@[simp] theorem State.withSelEnv_cfg (s : State) (e : Envelope) : (s.withSelEnv e).cfg = s.cfg := rfl
@[simp] theorem State.withSelEnv_sel (s : State) (e : Envelope) : (s.withSelEnv e).sel = s.sel := rfl

theorem State.voice_withSelEnv (s : State) (e : Envelope) :
    (s.withSelEnv e).voice s.sel = { s.voice s.sel with env := e } :=
  s.voice_withSelVoice _

theorem State.withSelEnv_self (s : State) : s.withSelEnv (s.voice s.sel).env = s :=
  congrArg s.withDsp (Dsp.setVoice_voice s.apu.dsp s.sel)

theorem State.withSelVoice_withSelVoice (s : State) (x y : Voice) :
    (s.withSelVoice x).withSelVoice y = s.withSelVoice y :=
  congrArg s.withDsp (Dsp.setVoice_setVoice_same s.apu.dsp s.sel x y)

theorem State.withSelEnv_withSelEnv (s : State) (e e' : Envelope) :
    (s.withSelEnv e).withSelEnv e' = s.withSelEnv e' := by
  rw [State.withSelEnv_eq, State.selVoice_eq, State.withSelEnv_sel, State.voice_withSelEnv]
  exact s.withSelVoice_withSelVoice _ _

/-- An envelope with the registers of the selected one, put in its place, is all that changes. -/
theorem envTicked_withSelEnv (s : State) (e : Envelope) (hadsr1 : e.adsr1 = (s.voice s.sel).env.adsr1)
    (hadsr2 : e.adsr2 = (s.voice s.sel).env.adsr2) (hgain : e.gain = (s.voice s.sel).env.gain) :
    EnvTicked e.mode e.level.toNat s (s.withSelEnv e) := by
  rw [EnvTicked, OutsideEnvelopeKept, State.voice_withSelEnv]
  exact ⟨rfl, rfl, hadsr1, hadsr2, hgain, rfl, onlyVoice_withSelVoice s _, rfl⟩

/-! ### The operations of the envelope, one equation each -/

theorem exec_envKon (s : State) : exec .envKon s = .next (s.withSelEnv (s.voice s.sel).env.keyOn) := rfl

theorem exec_envKoff (s : State) : exec .envKoff s = .next (s.withSelEnv (s.voice s.sel).env.keyOff) := rfl

theorem exec_envTick (s : State) (c : Counter) :
    exec (.envTick c) s = .next (s.withSelEnv ((s.voice s.sel).env.tick s.cfg c)) := rfl

/-- VOICE.KOFF is ENV.KOFF of the voice's envelope (R201). -/
theorem exec_voiceKoff (s : State) : exec .voiceKoff s = exec .envKoff s := rfl

theorem envTicked_keyOn (s : State) : EnvTicked .attack 0 s (s.withSelEnv (s.voice s.sel).env.keyOn) :=
  envTicked_withSelEnv s (s.voice s.sel).env.keyOn rfl rfl rfl

theorem envTicked_keyOff (s : State) :
    EnvTicked .release (s.voice s.sel).env.level.toNat s (s.withSelEnv (s.voice s.sel).env.keyOff) :=
  envTicked_withSelEnv s (s.voice s.sel).env.keyOff rfl rfl rfl

theorem envTicked_tick (s : State) (c : Counter) :
    EnvTicked ((s.voice s.sel).env.tick s.cfg c).mode ((s.voice s.sel).env.tick s.cfg c).level.toNat s
      (s.withSelEnv ((s.voice s.sel).env.tick s.cfg c)) :=
  envTicked_withSelEnv s _ (Envelope.tick_adsr1 ..) (Envelope.tick_adsr2 ..) (Envelope.tick_gain ..)

/-- In Release, ENV.KOFF changes nothing (R162). -/
theorem exec_envKoff_of_release (s : State) (h : (s.voice s.sel).env.mode = .release) :
    exec .envKoff s = .next s := by
  rw [exec_envKoff, Envelope.keyOff, ← h, State.withSelEnv_self]

/-! ### Runs of ticks -/

theorem execAll_cons_of_next {i : Instr} {is : List Instr} {s t : State} (h : exec i s = .next t) :
    execAll (i :: is) s = execAll is t := by
  rw [execAll, h]

/-- The envelope after a list of ticks. -/
def Envelope.ticks (cfg : Config) (cs : List Counter) (e : Envelope) : Envelope :=
  cs.foldl (fun e c => e.tick cfg c) e

/-- A run of ENV.TICKs replaces the selected envelope by the ticked one. -/
theorem execAll_envTicks (cs : List Counter) (s : State) :
    execAll (cs.map Instr.envTick) s = .next (s.withSelEnv ((s.voice s.sel).env.ticks s.cfg cs)) := by
  induction cs generalizing s with
  | nil => exact congrArg Host.Outcome.next s.withSelEnv_self.symm
  | cons c cs ih =>
    rw [List.map_cons, execAll_cons_of_next (exec_envTick s c), ih, State.withSelEnv_withSelEnv,
      State.withSelEnv_sel, State.withSelEnv_cfg, State.voice_withSelEnv]
    rfl

/-! ### Release (R164) -/

section Release
variable (cfg : Config) (c : Counter) (e : Envelope) (h : cfg.release = []) (hm : e.mode = .release)
include h hm

theorem Envelope.tick_release_mode : (e.tick cfg c).mode = .release := by
  rw [Envelope.tick_release cfg c e h hm]
  exact hm

/-- Subtraction of naturals stops at 0, as the level does. -/
theorem Envelope.tick_release_level : (e.tick cfg c).level.toNat = e.level.toNat - 8 := by
  have hrange := level_range e.level
  rw [Envelope.tick_release cfg c e h hm]
  have hlevel := level_ofInt (max ((e.level.toNat : Int) - releaseStep) 0) (by omega) (by rw [releaseStep]; omega)
  simp only [releaseStep] at hlevel ⊢
  omega

theorem Envelope.ticks_release (cs : List Counter) :
    (e.ticks cfg cs).mode = .release ∧ (e.ticks cfg cs).level.toNat = e.level.toNat - 8 * cs.length := by
  induction cs generalizing e with
  | nil => exact ⟨hm, rfl⟩
  | cons c cs ih =>
    obtain ⟨hmode, hlevel⟩ := ih (e.tick cfg c) (e.tick_release_mode cfg c h hm)
    refine ⟨hmode, hlevel.trans ?_⟩
    rw [e.tick_release_level cfg c h hm, List.length_cons]
    omega

end Release

/-! ### The rate gate (R173) -/

theorem toList_getD_fin (v : Vector Nat 32) (r : Fin 32) (d : Nat) : v.toList.getD r.val d = v[r.val] := by
  rw [List.getD_eq_getElem _ _ (by simp), Vector.getElem_toList]

section Gate
variable (cfg : Config) (h : cfg.gate = [])
include h

theorem fires_zero (c : Nat) : fires cfg 0 c = false := by
  rw [fires, h, configured_nil, if_pos rfl]

theorem fires_iff (r : Fin 32) (c : Nat) (hr : r ≠ 0) :
    fires cfg r.val c = true ↔ (c + cfg.offsets[r.val]) % cfg.rates[r.val] = 0 := by
  have hval : r.val ≠ 0 := fun e => hr (Fin.ext e)
  rw [fires, h, configured_nil, if_neg hval, decide_eq_true_iff, toList_getD_fin, toList_getD_fin]

/-- The pattern of a rate repeats after any multiple of its period. -/
theorem fires_add_of_dvd (r : Fin 32) (c n : Nat) (hn : r ≠ 0 → cfg.rates[r.val] ∣ n) :
    fires cfg r.val (c + n) = fires cfg r.val c := by
  by_cases hr : r = 0
  · subst hr
    exact (fires_zero cfg h _).trans (fires_zero cfg h _).symm
  · obtain ⟨k, rfl⟩ := hn hr
    rw [Bool.eq_iff_iff, fires_iff cfg h r _ hr, fires_iff cfg h r _ hr, Nat.add_right_comm,
      Nat.add_mul_mod_self_left]

/-- Among as many consecutive values as the period, a rate fires exactly once. -/
theorem fires_once_per_period (r : Fin 32) (c : Nat) (hr : r ≠ 0) (hpos : 0 < cfg.rates[r.val]) :
    ∃ k, k < cfg.rates[r.val] ∧ fires cfg r.val (c + k) = true ∧
      ∀ j, j < cfg.rates[r.val] → fires cfg r.val (c + j) = true → j = k := by
  simp only [fires_iff cfg h r _ hr, Nat.add_right_comm c _ cfg.offsets[r.val]]
  generalize c + cfg.offsets[r.val] = a
  generalize cfg.rates[r.val] = p at hpos
  obtain ⟨q, rfl⟩ := Nat.exists_eq_succ_of_ne_zero hpos.ne'
  have hit : (a + q * a) % (q + 1) = 0 := Nat.mod_eq_zero_of_dvd ⟨a, by ring⟩
  refine ⟨q * a % (q + 1), Nat.mod_lt _ hpos, by rwa [Nat.add_mod_mod], fun j hj hfire => ?_⟩
  have hmod : a + j ≡ a + q * a [MOD q + 1] := hfire.trans hit.symm
  exact (Nat.mod_eq_of_lt hj).symm.trans (hmod.add_left_cancel' a)

end Gate

/-- Every period of the spec's table divides the 30720 values of the counter. -/
theorem defaultRates_dvd (r : Fin 32) (hr : r ≠ 0) : defaultRates[r.val] ∣ 30720 := by
  revert r; decide

/-! ### The statements -/

/-- Settles O22: a tick in Release lowers the level by 8, a list of ticks by 8 for each. -/
theorem releaseFallsToZero : Obligations.ReleaseFallsToZero := by
  constructor
  · intro s c h hm
    refine ⟨_, exec_envTick s c, ?_⟩
    have hticked := envTicked_tick s c
    rw [Envelope.tick_release_mode _ _ _ h hm, Envelope.tick_release_level _ _ _ h hm] at hticked
    convert hticked using 1
    split <;> omega
  · intro s cs h hm hlen
    refine ⟨_, execAll_envTicks cs s, ?_⟩
    rw [State.voice_withSelEnv]
    obtain ⟨hmode, hlevel⟩ := Envelope.ticks_release s.cfg (s.voice s.sel).env h hm cs
    exact ⟨BitVec.eq_of_toNat_eq (hlevel.trans (Nat.sub_eq_zero_of_le (by omega))), hmode⟩

/-- Settles O26: the gate is a congruence modulo the period, and the spec's periods divide 30720. -/
theorem rateGatePeriods : Obligations.RateGatePeriods := by
  unfold Obligations.RateGatePeriods
  intro period offset
  have hperiod (r : Fin 32) : period.getD r.val 0 = defaultRates[r.val] := toList_getD_fin defaultRates r 0
  have hoffset (r : Fin 32) : offset.getD r.val 0 = defaultOffsets[r.val] := toList_getD_fin defaultOffsets r 0
  simp only [hperiod, hoffset]
  refine ⟨⟨rfl, rfl⟩, fun cfg c h => fires_zero cfg h c, fun cfg r c h hr => fires_iff cfg h r c hr, ?_,
    fun r hr => Nat.mod_eq_zero_of_dvd (defaultRates_dvd r hr)⟩
  intro cfg h hrates hoffsets
  have hrates : cfg.rates = defaultRates := Vector.toList_inj.1 hrates
  have hoffsets : cfg.offsets = defaultOffsets := Vector.toList_inj.1 hoffsets
  rw [← hrates, ← hoffsets]
  have hdvd (r : Fin 32) (hr : r ≠ 0) : cfg.rates[r.val] ∣ 30720 := hrates ▸ defaultRates_dvd r hr
  refine ⟨fun r c => fires_iff cfg h r c, fun c => ?_, fun r c => fires_add_of_dvd cfg h r c _ (hdvd r),
    fun r c hr => fires_once_per_period cfg h r c hr (Nat.pos_of_dvd_of_pos (hdvd r hr) (by decide))⟩
  have hone : cfg.rates[(31 : Fin 32).val] = 1 := by rw [hrates]; rfl
  rw [← show (31 : Fin 32).val = 31 from rfl, fires_iff cfg h 31 c (by decide), hone, Nat.mod_one]

/-- Settles O21: key-on and key-off replace the selected envelope, and a key-off in Release replaces it by itself. -/
theorem keyEventsOfAnEnvelope : Obligations.KeyEventsOfAnEnvelope := by
  refine ⟨fun s => ⟨_, exec_envKon s, envTicked_keyOn s⟩, fun s => ⟨_, exec_envKoff s, envTicked_keyOff s, ?_⟩,
    fun s => ⟨_, exec_voiceKoff s, envTicked_keyOff s⟩⟩
  apply exec_envKoff_of_release
  rw [State.withSelEnv_sel, State.voice_withSelEnv]
  rfl

end Sys2Proof.Machine
end

section
/-! SUPPORT. The statements about the voice (`42_voice.md`), settled from the equation of each of its operations: a
key-on is the spec's directory entry and one block read from a zero history; a tick's walk over the voices is
simulated by a chain of renders. -/

namespace Sys2Proof.Machine

/-! ### The operations of the voice, one equation each -/

theorem exec_voiceKon (s : State) (dir : Byte) :
    exec (.voiceKon dir) s = .next (s.withSelVoice ((s.voice s.sel).keyOn s.cfg s.apu.mem dir)) := rfl

theorem exec_voiceRender (s : State) (last : Sample) (noise : BitVec 16) (counter : Counter) :
    exec (.voiceRender last noise counter) s =
      let r := (s.voice s.sel).render s.cfg s.apu.mem last noise counter
      .next ((s.withSelVoice r.voice).emit (.voice r.left r.right r.raw)) := rfl

theorem exec_dspTick (s : State) : exec .dspTick s = .next (s.ticked.emit s.tickFrame) := rfl

/-! ### Key-on (R200) -/

/-- The page address of a byte is the byte times 256 (R67). -/
theorem pageAddr_eq_ofNat (b : Byte) : pageAddr b = BitVec.ofNat 16 (b.toNat * 256) := by
  have hb := b.isLt
  apply BitVec.eq_of_toNat_eq
  rw [pageAddr, BitVec.toNat_append, BitVec.toNat_ofNat, Nat.shiftLeft_eq]
  simp
  omega

/-- The directory entry by the spec's formula (R68). -/
theorem directoryEntry_eq (cfg : Config) (h : cfg.directory = []) (dir srcn : Byte) :
    directoryEntry cfg dir srcn =
      (BitVec.ofNat 16 (dir.toNat * 256 + 4 * srcn.toNat), BitVec.ofNat 16 (dir.toNat * 256 + 4 * srcn.toNat) + 2) := by
  have hentry : pageAddr dir + 4 * srcn.setWidth 16 = BitVec.ofNat 16 (dir.toNat * 256 + 4 * srcn.toNat) := by
    rw [pageAddr_eq_ofNat]
    apply BitVec.eq_of_toNat_eq
    simp
  rw [directoryEntry, h, configured_nil, hentry]

/-- A word of memory: the byte at the address below the byte after it (R61). -/
theorem memRead2_eq (cfg : Config) (m : Memory) (a : Addr) :
    memRead2 cfg m a = readByte cfg m (a + 1) ++ readByte cfg m a := rfl

/-- Key-on reads the first block as a decoder after reset does: from a zero history. -/
theorem Decoder.seed_zero_read (d : Decoder) (cfg : Config) (b : Block) :
    (d.seed 0 0).read cfg b = Decoder.reset.read cfg b :=
  Decoder.readFields_history _ _ _ _ _ rfl rfl

/-- Settles O27: the directory entry by the spec's formula, then key-on field by field. -/
theorem voiceKonRestartsTheVoice : Obligations.VoiceKonRestartsTheVoice := by
  intro s dir hdir
  refine ⟨_, exec_voiceKon s dir, ?_⟩
  dsimp only
  rw [State.voice_withSelVoice, Voice.keyOn_eq, directoryEntry_eq _ hdir, Decoder.seed_zero_read, memRead2_eq,
    memRead2_eq, BitVec.add_assoc]
  refine ⟨rfl, rfl, rfl, rfl, rfl, Decoder.readFields_h1 .., Decoder.readFields_h2 .., rfl, rfl, rfl, rfl, rfl,
    rfl, rfl, rfl, rfl, rfl, rfl, rfl, rfl, rfl, rfl, rfl, rfl, rfl, rfl, onlyVoice_withSelVoice s _, rfl⟩

/-! ### The voices of a tick as a chain of renders (R203, R224) -/

/-- What the turn of voice `v` renders in a chain: the voice as it stands, forced to (Release, 0) while FLG's soft
reset is set. -/
def State.chainRendered (s : State) (noise : BitVec 16) (counter : Counter) (last : Sample) (v : VoiceIx) : Rendered :=
  (Voice.softReset s.cfg (s.reg 0x6C) (s.voice v)).render s.cfg s.apu.mem last noise counter

/-- The machine with voice `v` selected and replaced by what was rendered, the result returned. -/
def State.chainNext (s : State) (v : VoiceIx) (r : Rendered) : State :=
  (({ s with sel := v } : State).withSelVoice r.voice).emit (.voice r.left r.right r.raw)

/-- The soft reset of a chain is that of the tick's walk, on the voice selected (R238). -/
theorem State.softReset_select (s : State) (v : VoiceIx) :
    (if (s.reg 0x6C).getLsbD s.cfg.flg.resetAt
      then ({ s with sel := v } : State).withSelEnv
        { ({ s with sel := v } : State).selVoice.env with mode := .release, level := 0 }
      else { s with sel := v }) =
      ({ s with sel := v } : State).withSelVoice (Voice.softReset s.cfg (s.reg 0x6C) (s.voice v)) := by
  rw [Voice.softReset, flgSoftReset]
  split
  · rfl
  · exact (State.withSelEnv_self { s with sel := v }).symm

/-- VOICE.RENDER of a voice just put in place leaves only what was rendered from it. -/
theorem exec_voiceRender_withSelVoice (s : State) (x : Voice) (last : Sample) (noise : BitVec 16) (counter : Counter) :
    exec (.voiceRender last noise counter) (s.withSelVoice x) =
      let r := x.render s.cfg s.apu.mem last noise counter
      .next ((s.withSelVoice r.voice).emit (.voice r.left r.right r.raw)) := by
  rw [exec_voiceRender, State.withSelVoice_sel, State.voice_withSelVoice]
  simp only [State.withSelVoice_withSelVoice, State.withSelVoice_cfg, State.withSelVoice_mem]

/-- One link of the chain: the voice's turn, and the rest with the raw output it has returned. -/
theorem renderChain_cons (noise : BitVec 16) (counter : Counter) (v : VoiceIx) (vs : List VoiceIx) (last : Sample)
    (s : State) :
    renderChain noise counter (v :: vs) last s =
      renderChain noise counter vs (s.chainRendered noise counter last v).raw
        (s.chainNext v (s.chainRendered noise counter last v)) := by
  have hrender : exec (.voiceRender last noise counter)
      (({ s with sel := v } : State).withSelVoice (Voice.softReset s.cfg (s.reg 0x6C) (s.voice v))) =
      .next (s.chainNext v (s.chainRendered noise counter last v)) := exec_voiceRender_withSelVoice ..
  have hlast : (s.chainNext v (s.chainRendered noise counter last v)).outbox.getLast? =
      some (.voice _ _ (s.chainRendered noise counter last v).raw) := List.getLast?_concat
  simp only [renderChain, State.softReset_select, hrender, hlast]

/-- The Dsp at the noise value and the counter of a tick. -/
def Dsp.atClock (d : Dsp) (noise : BitVec 16) (counter : Counter) : Dsp := { d with noise := noise, counter := counter }

/-- Stages 1 and 2 of a tick put the Dsp at the noise value and the counter that the tick leaves. -/
theorem Dsp.advanceClock_eq_atClock (cfg : Config) (m : Memory) (d : Dsp) :
    d.advanceClock cfg = d.atClock (d.tick cfg m).dsp.noise (d.tick cfg m).dsp.counter := by
  rw [Dsp.tick_noise, Dsp.tick_counter]
  rfl

/-- A turn of the tick's walk does to the Dsp at the tick's clock what the chain's link does to the machine. -/
theorem Mix.turn_atClock (noise : BitVec 16) (counter : Counter) (s : State) (x : Mix) (v : VoiceIx)
    (hx : x.dsp = s.apu.dsp.atClock noise counter) :
    (x.turn s.cfg s.apu.mem v).last = (s.chainRendered noise counter x.last v).raw ∧
    (x.turn s.cfg s.apu.mem v).dsp =
      (s.chainNext v (s.chainRendered noise counter x.last v)).apu.dsp.atClock noise counter := by
  simp only [Mix.turn, hx]
  exact ⟨rfl, rfl⟩

/-- The chain of renders simulates the walk of a tick over any list of voices. -/
theorem renderChain_simulates_walk (noise : BitVec 16) (counter : Counter) (vs : List VoiceIx) (s : State) (x : Mix)
    (hx : x.dsp = s.apu.dsp.atClock noise counter) :
    ∃ u, renderChain noise counter vs x.last s = some u ∧
      (vs.foldl (Mix.turn s.cfg s.apu.mem) x).dsp = u.apu.dsp.atClock noise counter := by
  induction vs generalizing s x with
  | nil => exact ⟨s, rfl, hx⟩
  | cons v vs ih =>
    obtain ⟨hlast, hdsp⟩ := Mix.turn_atClock noise counter s x v hx
    rw [renderChain_cons, ← hlast]
    exact ih _ _ hdsp

/-- Settles O42: the walk of the tick, simulated from the state before it, leaves the chain's voices. -/
theorem tickIsVoiceRendersInOrder : Obligations.TickIsVoiceRendersInOrder := by
  intro s
  obtain ⟨u, hchain, hdsp⟩ := renderChain_simulates_walk _ _ allVoices s
    ⟨s.apu.dsp.advanceClock s.cfg, 0, 0, 0, 0, 0⟩ (Dsp.advanceClock_eq_atClock s.cfg s.apu.mem s.apu.dsp)
  refine ⟨_, u, exec_dspTick s, hchain, fun v => ?_⟩
  calc (s.apu.dsp.tick s.cfg s.apu.mem).dsp.voice v
    _ = (renderVoices s.cfg s.apu.mem (s.apu.dsp.advanceClock s.cfg)).dsp.voice v := Dsp.tick_voice ..
    _ = u.voice v := by rw [renderVoices, hdsp]; rfl

end Sys2Proof.Machine
end

section
/-! SUPPORT. The statements about the mixer (`43_dsp_mixer.md`), settled from the equations of a tick's parts: the echo
frame and the history, the two mix orders, the mute bit, the sums collected along the chain of renders; and from one
equation for every access to a register. -/

namespace Sys2Proof.Machine

/-! ### The echo frame (R69, R226, R227) -/

/-- The echo frame by the spec's formula (R69). -/
theorem echoAddr_eq (cfg : Config) (h : cfg.echoAddress = []) (esa : Byte) (pos : BitVec 16) :
    echoAddr cfg esa pos =
      (BitVec.ofNat 16 (esa.toNat * 256 + pos.toNat), BitVec.ofNat 16 (esa.toNat * 256 + pos.toNat) + 2) := by
  have hframe : pageAddr esa + pos = BitVec.ofNat 16 (esa.toNat * 256 + pos.toNat) := by
    rw [pageAddr_eq_ofNat, BitVec.ofNat_add, BitVec.ofNat_toNat, BitVec.setWidth_eq]
  rw [echoAddr, h, configured_nil, hframe]

/-- The history entry of an echo input is half of it, rounding down, where no exception is configured (R227). -/
theorem halve_toInt (cfg : Config) (h : cfg.echoInput = []) (x : Sample) : (halve cfg x).toInt = x.toInt / 2 := by
  have hx := toInt16_range x
  rw [halve, h, configured_nil, asr_def, pow_one]
  exact wrap16_toInt_of_range _ (by omega) (by omega)

/-- Settles O35: the tick's history is the old one with the halved frame set at the new index. -/
theorem tickPushesTheEchoFrame : Obligations.TickPushesTheEchoFrame := by
  intro s haddr hinput
  refine ⟨_, exec_dspTick s, ?_⟩
  have hframe : s.apu.dsp.echoFrame s.cfg = _ := echoAddr_eq s.cfg haddr (s.reg 0x6D) s.apu.dsp.echoPos
  have hpos : (s.ticked.emit s.tickFrame).apu.dsp.hpos = s.apu.dsp.hpos + 1 := Dsp.tick_hpos ..
  have histL : (s.ticked.emit s.tickFrame).apu.dsp.histL = _ := Dsp.tick_histL ..
  have histR : (s.ticked.emit s.tickFrame).apu.dsp.histR = _ := Dsp.tick_histR ..
  dsimp only
  simp only [hpos, histL, histR, hframe, memRead2_eq, BitVec.add_assoc]
  refine ⟨?_, ?_, fun i hi => ?_⟩
  · rw [Vector.getElem_set_self, halve_toInt _ hinput]
  · rw [Vector.getElem_set_self, halve_toInt _ hinput]
    rfl
  · have hne : (s.apu.dsp.hpos + 1).val ≠ i.val := fun e => hi (Fin.ext e.symm)
    exact ⟨Vector.getElem_set_ne _ _ hne, Vector.getElem_set_ne _ _ hne⟩

/-! ### The mix (R228) -/

/-- A number by a signed volume register, by the spec's formula (R199, R220). -/
theorem Dsp.scaled_eq (cfg : Config) (h : cfg.volume = []) (d : Dsp) (x : Int) (a : RegAddr) :
    d.scaled cfg x a = x * (d.reg a).toInt / 128 := by
  simp [Dsp.scaled, volScale, h, asr_def, s8, volumeShift]

/-- A 16-bit register holds a saturated number exactly. -/
theorem wrap16_clamp16_toInt (v : Int) : (wrap16 (clamp16 v)).toInt = clamp16 v :=
  wrap16_toInt_of_range _ (clamp16_range v).1 (clamp16_range v).2

section Mix
variable (cfg : Config) (d : Dsp) (main fir : Int) (evol mvol : RegAddr)

theorem Dsp.mixChannel_sourceOrder (hv : cfg.volume = []) (h : cfg.mixOrder = .sourceOrder) :
    d.mixChannel cfg main fir evol mvol =
      clamp16 (clamp16 (main + fir * (d.reg evol).toInt / 128) * (d.reg mvol).toInt / 128) := by
  simp only [Dsp.mixChannel, h, Dsp.scaled_eq cfg hv]

theorem Dsp.mixChannel_chipOrder (hv : cfg.volume = []) (h : cfg.mixOrder = .chipOrder) :
    d.mixChannel cfg main fir evol mvol =
      clamp16 (main * (d.reg mvol).toInt / 128 + fir * (d.reg evol).toInt / 128) := by
  simp only [Dsp.mixChannel, h, Dsp.scaled_eq cfg hv]

/-- Under either order the mix is a saturated number. -/
theorem Dsp.mixChannel_saturated : ∃ v, d.mixChannel cfg main fir evol mvol = clamp16 v := by
  unfold Dsp.mixChannel
  split
  · exact ⟨_, rfl⟩
  · exact ⟨_, rfl⟩

/-- Unmuted, the output is the mix, exactly (R228, R231). -/
theorem Dsp.muted_mixChannel_toInt (h : flgMute cfg (d.reg 0x6C) = false) :
    (d.muted cfg (d.mixChannel cfg main fir evol mvol)).toInt = d.mixChannel cfg main fir evol mvol := by
  obtain ⟨v, hv⟩ := Dsp.mixChannel_saturated cfg d main fir evol mvol
  rw [Dsp.muted, if_neg (Bool.eq_false_iff.1 h), hv, wrap16_clamp16_toInt]

end Mix

/-- Settles O38: the frame of a tick is the unmuted mix of the walk's sums and the filtered echo, over the registers,
which the tick leaves. -/
theorem tickReturnsTheMix : Obligations.TickReturnsTheMix := by
  intro s hmute hvol
  refine ⟨_, _, _, exec_dspTick s, rfl, ?_⟩
  have hreg (a : RegAddr) : (s.apu.dsp.tick s.cfg s.apu.mem).dsp.reg a = s.reg a := Dsp.tick_reg ..
  have hunmuted : flgMute s.cfg ((s.apu.dsp.tick s.cfg s.apu.mem).dsp.reg 0x6C) = false := by rwa [hreg]
  rw [Dsp.tick_left, Dsp.tick_right, Dsp.muted_mixChannel_toInt _ _ _ _ _ _ hunmuted,
    Dsp.muted_mixChannel_toInt _ _ _ _ _ _ hunmuted]
  refine ⟨fun horder => ?_, fun horder => ?_⟩
  · simp only [Dsp.mixChannel_sourceOrder _ _ _ _ _ _ hvol horder, hreg]
    exact ⟨rfl, rfl⟩
  · simp only [Dsp.mixChannel_chipOrder _ _ _ _ _ _ hvol horder, hreg]
    exact ⟨rfl, rfl⟩

/-! ### The mute bit (R231) -/

/-- The Dsp with bit 6 of FLG cleared, its mute bit in the spec's layout (R106). -/
def Dsp.clearMute (d : Dsp) : Dsp := d.setReg 0x6C (d.reg 0x6C &&& 0xBF)

/-- A walk's state with bit 6 of FLG cleared. -/
def Mix.clearMute (x : Mix) : Mix := { x with dsp := x.dsp.clearMute }

theorem Dsp.clearMute_reg_flg (d : Dsp) : d.clearMute.reg 0x6C = d.reg 0x6C &&& 0xBF := Dsp.reg_setReg_same ..

theorem Dsp.clearMute_reg_ne (d : Dsp) (a : RegAddr) (h : a ≠ 0x6C) : d.clearMute.reg a = d.reg a :=
  Dsp.reg_setReg_ne _ _ _ _ h

@[simp] theorem Dsp.clearMute_histL (d : Dsp) : d.clearMute.histL = d.histL := rfl
@[simp] theorem Dsp.clearMute_histR (d : Dsp) : d.clearMute.histR = d.histR := rfl

section ClearMute
variable (cfg : Config) (h : cfg.flg = ⟨7, 6, 5, 0⟩) (m : Memory) (d : Dsp)

/-! Clearing bit 6 leaves the other fields of FLG as they are, in the spec's layout (R106). -/

section Flg
variable (f : Byte)
include h

theorem flgSoftReset_clearMute : flgSoftReset cfg (f &&& 0xBF) = flgSoftReset cfg f := by
  simp only [flgSoftReset, h]; revert f; decide

theorem flgEchoOff_clearMute : flgEchoOff cfg (f &&& 0xBF) = flgEchoOff cfg f := by
  simp only [flgEchoOff, h]; revert f; decide

theorem flgNoiseRate_clearMute : flgNoiseRate cfg (f &&& 0xBF) = flgNoiseRate cfg f := by
  simp only [flgNoiseRate, h]; revert f; decide

end Flg

/-- The filter reads only the coefficient registers. -/
theorem Dsp.clearMute_fir (hist : Vector Sample 8) : d.clearMute.fir cfg hist = d.fir cfg hist := by
  have hcoef (i : Fin 8) : d.clearMute.reg (regAddr i 0xF) = d.reg (regAddr i 0xF) :=
    Dsp.clearMute_reg_ne _ _ (by revert i; decide)
  simp only [Dsp.fir, Dsp.firOperands, Dsp.eightTap, Dsp.firCoef, hcoef]
  rfl

theorem Dsp.clearMute_feedback (sum fir : Int) : d.clearMute.feedback cfg sum fir = d.feedback cfg sum fir := by
  simp only [Dsp.feedback, Dsp.scaled, d.clearMute_reg_ne 0x0D (by decide)]

theorem Dsp.clearMute_echoFrame : d.clearMute.echoFrame cfg = d.echoFrame cfg := by
  rw [Dsp.echoFrame, d.clearMute_reg_ne 0x6D (by decide)]
  rfl

theorem Dsp.clearMute_readEcho : d.clearMute.readEcho cfg m = (d.readEcho cfg m).clearMute := by
  rw [Dsp.readEcho, Dsp.clearMute_echoFrame]
  rfl

theorem Dsp.clearMute_stepEchoPos : d.clearMute.stepEchoPos cfg = (d.stepEchoPos cfg).clearMute := by
  rw [Dsp.stepEchoPos, d.clearMute_reg_ne 0x7D (by decide)]
  rfl

include h

theorem Dsp.clearMute_writeEcho (a : Addr × Addr) (l r : Sample) :
    d.clearMute.writeEcho cfg m a l r = d.writeEcho cfg m a l r := by
  rw [Dsp.writeEcho, Dsp.clearMute_reg_flg, flgEchoOff_clearMute cfg h, Dsp.writeEcho]

theorem Dsp.clearMute_advanceClock : d.clearMute.advanceClock cfg = (d.advanceClock cfg).clearMute := by
  rw [Dsp.advanceClock, noiseStep, Dsp.clearMute_reg_flg, flgNoiseRate_clearMute cfg h]
  rfl

theorem Mix.clearMute_turn (x : Mix) (v : VoiceIx) : x.clearMute.turn cfg m v = (x.turn cfg m v).clearMute := by
  have hreset (y : Voice) : Voice.softReset cfg (x.clearMute.dsp.reg 0x6C) y = Voice.softReset cfg (x.dsp.reg 0x6C) y := by
    rw [Voice.softReset, Mix.clearMute, Dsp.clearMute_reg_flg, flgSoftReset_clearMute cfg h, Voice.softReset]
  rw [Mix.turn, hreset]
  rfl

theorem renderVoices_clearMute : renderVoices cfg m d.clearMute = (renderVoices cfg m d).clearMute :=
  List.foldl_hom (init := ⟨d, 0, 0, 0, 0, 0⟩) Mix.clearMute fun x v => Mix.clearMute_turn cfg h m x v

/-- From echo read to output, the mute bit acts on the frame alone. -/
theorem Mix.clearMute_finish (x : Mix) : (x.clearMute.finish cfg m).dsp = (x.finish cfg m).dsp.clearMute ∧
    (x.clearMute.finish cfg m).mem = (x.finish cfg m).mem := by
  simp only [Mix.finish, Mix.clearMute, Dsp.clearMute_echoFrame, Dsp.clearMute_readEcho, Dsp.clearMute_fir,
    Dsp.clearMute_feedback, Dsp.clearMute_stepEchoPos, Dsp.clearMute_histL, Dsp.clearMute_histR,
    Dsp.clearMute_writeEcho cfg h, and_self]

/-- A tick with the mute bit cleared leaves the memory and, but for that bit, the Dsp of the tick with it (R231). -/
theorem Dsp.clearMute_tick : (d.clearMute.tick cfg m).dsp = (d.tick cfg m).dsp.clearMute ∧
    (d.clearMute.tick cfg m).mem = (d.tick cfg m).mem := by
  simp only [Dsp.tick, Dsp.clearMute_advanceClock cfg h, renderVoices_clearMute cfg h]
  exact Mix.clearMute_finish cfg h m _

end ClearMute

theorem Dsp.muted_eq_zero (cfg : Config) (d : Dsp) (h : flgMute cfg (d.reg 0x6C) = true) (x : Int) :
    d.muted cfg x = 0 := if_pos h

/-- Settles O40: the frame of a muted tick is zero, and every stage of a tick commutes with clearing the mute bit. -/
theorem muteSilencesTheFrameOnly : Obligations.MuteSilencesTheFrameOnly := by
  intro s hflg hmute
  have hreg : (s.apu.dsp.tick s.cfg s.apu.mem).dsp.reg 0x6C = s.reg 0x6C := Dsp.tick_reg ..
  have hmuted : flgMute s.cfg ((s.apu.dsp.tick s.cfg s.apu.mem).dsp.reg 0x6C) = true := by
    rw [hreg, flgMute, hflg]; exact hmute
  have hframe : s.tickFrame = .frame 0 0 := by
    rw [State.tickFrame, Dsp.tick_left, Dsp.tick_right, Dsp.muted_eq_zero _ _ hmuted, Dsp.muted_eq_zero _ _ hmuted]
  obtain ⟨hdsp, hmem⟩ := Dsp.clearMute_tick s.cfg hflg s.apu.mem s.apu.dsp
  refine ⟨_, _, exec_dspTick s, congrArg (s.outbox ++ [·]) hframe, exec_dspTick _, ?_⟩
  calc (⟨(s.apu.dsp.clearMute.tick s.cfg s.apu.mem).mem, (s.apu.dsp.clearMute.tick s.cfg s.apu.mem).dsp⟩ : Apu)
    _ = ⟨(s.apu.dsp.tick s.cfg s.apu.mem).mem, (s.apu.dsp.tick s.cfg s.apu.mem).dsp.clearMute⟩ := by rw [hdsp, hmem]
    _ = _ := by rw [Dsp.clearMute, hreg]; rfl

/-! ### The sums of the voices (R225) -/

/-- The results of a chain of renders, each with its voice: left, right and raw output. -/
abbrev VoiceResults := List (VoiceIx × Sample × Sample × Sample)

/-- The sums of `y` are those of `x` after the additions of the results `rs`, one by one and each saturating: to the
main sums all, to the echo sums those of the voices that `eon` names. -/
def Mix.Adds (eon : VoiceIx → Bool) (rs : VoiceResults) (x y : Mix) : Prop :=
  y.mainL = rs.foldl (fun sum r => clamp16 (sum + r.2.1.toInt)) x.mainL ∧
  y.mainR = rs.foldl (fun sum r => clamp16 (sum + r.2.2.1.toInt)) x.mainR ∧
  y.echoL = rs.foldl (fun sum r => if eon r.1 then clamp16 (sum + r.2.1.toInt) else sum) x.echoL ∧
  y.echoR = rs.foldl (fun sum r => if eon r.1 then clamp16 (sum + r.2.2.1.toInt) else sum) x.echoR

theorem Mix.Adds.nil (eon : VoiceIx → Bool) (x : Mix) : Mix.Adds eon [] x x := ⟨rfl, rfl, rfl, rfl⟩

theorem Mix.Adds.append {eon : VoiceIx → Bool} {rs rs' : VoiceResults} {x y z : Mix} (h : Mix.Adds eon rs x y)
    (h' : Mix.Adds eon rs' y z) : Mix.Adds eon (rs ++ rs') x z := by
  obtain ⟨hml, hmr, hel, her⟩ := h
  obtain ⟨hml', hmr', hel', her'⟩ := h'
  simp only [Mix.Adds, List.foldl_append]
  exact ⟨hml ▸ hml', hmr ▸ hmr', hel ▸ hel', her ▸ her'⟩

theorem Voice.softReset_eon (cfg : Config) (flg : Byte) (v : Voice) : (Voice.softReset cfg flg v).eon = v.eon := by
  unfold Voice.softReset
  split <;> rfl

/-- What a link of the chain renders keeps the voice's echo flag. -/
theorem State.chainRendered_eon (s : State) (noise : BitVec 16) (counter : Counter) (last : Sample) (v : VoiceIx) :
    (s.chainRendered noise counter last v).voice.eon = (s.voice v).eon :=
  ((Voice.render_frame ..).eon).trans (Voice.softReset_eon ..)

/-- A link of the chain keeps every voice's echo flag. -/
theorem State.chainNext_eon (s : State) (noise : BitVec 16) (counter : Counter) (last : Sample) (v w : VoiceIx) :
    ((s.chainNext v (s.chainRendered noise counter last v)).voice w).eon = (s.voice w).eon := by
  have hvoice : (s.chainNext v (s.chainRendered noise counter last v)).voice w =
      if w = v then (s.chainRendered noise counter last v).voice else s.voice w := Dsp.voice_setVoice ..
  rw [hvoice]
  split
  case isTrue h => rw [h, State.chainRendered_eon]
  case isFalse => rfl

/-- What a link of the chain returns, with its voice. -/
def State.chainResult (s : State) (noise : BitVec 16) (counter : Counter) (last : Sample) (v : VoiceIx) :
    VoiceIx × Sample × Sample × Sample :=
  let r := s.chainRendered noise counter last v
  (v, r.left, r.right, r.raw)

/-- A turn of the tick's walk adds what the chain's link returns, where the addition is the spec's. -/
theorem Mix.turn_adds (noise : BitVec 16) (counter : Counter) (s : State) (hacc : s.cfg.accumulate = []) (x : Mix)
    (v : VoiceIx) (hx : x.dsp = s.apu.dsp.atClock noise counter) (eon : VoiceIx → Bool)
    (heon : ∀ w, (s.voice w).eon = eon w) :
    Mix.Adds eon [s.chainResult noise counter x.last v] x (x.turn s.cfg s.apu.mem v) := by
  have hv : (s.chainRendered noise counter x.last v).voice.eon = eon v := by rw [State.chainRendered_eon, heon]
  have hrendered : (Voice.softReset s.cfg (x.dsp.reg 0x6C) (x.dsp.voice v)).render s.cfg s.apu.mem x.last x.dsp.noise
      x.dsp.counter = s.chainRendered noise counter x.last v := by rw [hx]; rfl
  simp only [Mix.turn, hrendered, mixAdd, hacc, configured_nil, hv]
  exact ⟨rfl, rfl, rfl, rfl⟩

/-- The chain of renders returns, voice by voice, the results that the walk of a tick adds to its sums. -/
theorem renderChain_adds (noise : BitVec 16) (counter : Counter) (eon : VoiceIx → Bool) (vs : List VoiceIx) (s : State)
    (hacc : s.cfg.accumulate = []) (heon : ∀ w, (s.voice w).eon = eon w) (x : Mix)
    (hx : x.dsp = s.apu.dsp.atClock noise counter) :
    ∃ u rs, renderChain noise counter vs x.last s = some u ∧ rs.map Prod.fst = vs ∧
      u.outbox = s.outbox ++ rs.map (fun r => Result.voice r.2.1 r.2.2.1 r.2.2.2) ∧
      Mix.Adds eon rs x (vs.foldl (Mix.turn s.cfg s.apu.mem) x) := by
  induction vs generalizing s x with
  | nil => exact ⟨s, [], rfl, rfl, (List.append_nil _).symm, Mix.Adds.nil eon x⟩
  | cons v vs ih =>
    obtain ⟨hlast, hdsp⟩ := Mix.turn_atClock noise counter s x v hx
    obtain ⟨u, rs, hchain, hvoices, hout, hadds⟩ := ih (s.chainNext v (s.chainRendered noise counter x.last v)) hacc
      (fun w => (s.chainNext_eon ..).trans (heon w)) (x.turn s.cfg s.apu.mem v) hdsp
    refine ⟨u, s.chainResult noise counter x.last v :: rs, ?_, congrArg (v :: ·) hvoices, ?_,
      (Mix.turn_adds noise counter s hacc x v hx eon heon).append hadds⟩
    · rw [renderChain_cons, ← hlast, hchain]
    · exact hout.trans (List.append_assoc ..)

/-- Settles O43: the walk of the tick adds, from 0, what the chain of renders from the state before it returns. -/
theorem sumsSaturateVoiceByVoice : Obligations.SumsSaturateVoiceByVoice := by
  intro s hacc
  obtain ⟨u, rs, hchain, hvoices, hout, hsums⟩ := renderChain_adds _ _ (fun v => (s.voice v).eon) allVoices s hacc
    (fun _ => rfl) ⟨s.apu.dsp.advanceClock s.cfg, 0, 0, 0, 0, 0⟩
    (Dsp.advanceClock_eq_atClock s.cfg s.apu.mem s.apu.dsp)
  exact ⟨_, u, exec_dspTick s, hchain, rs, hvoices, hout, hsums⟩

/-! ### Access to a register (R98, R233, R237) -/

theorem regAddr_eq_ofNat (v : VoiceIx) (n : BitVec 4) : regAddr v n = BitVec.ofNat 7 (v.val * 16 + n.toNat) := by
  revert v n; decide

/-- A register row is the access to the register at its address (R98). -/
theorem exec_decodeReg (a : RegAddr) (access : RegAccess) (s : State) :
    exec (decodeReg a access) s = .next (s.accessReg a access) := by
  obtain ⟨v, n, rfl⟩ : ∃ v n, regAddr v n = a := ⟨_, _, regAddr_eta a⟩
  rw [decodeReg, regColumn_regAddr, regVoice_regAddr]
  obtain ⟨n, hn⟩ := n
  match n, hn with
  | 0xC, _ | 0xD, _ =>
    -- These two columns name a row for each value of the upper bits.
    rw [regAddr_eq_ofNat]
    fin_cases v <;> rfl
  | 0, _ | 1, _ | 2, _ | 3, _ | 4, _ | 5, _ | 6, _ | 7, _ | 8, _ | 9, _ | 0xA, _ | 0xB, _ | 0xE, _ | 0xF, _ => rfl
  | n + 16, hn => omega

theorem exec_dspRead (a : RegAddr) (s : State) :
    exec (.dspRead a) s = .next (s.emit (.byte (s.apu.dsp.read s.cfg a))) := rfl

theorem exec_kon_write (b : Byte) (s : State) : exec (.kon (.write b)) s = .next (s.writeReg 0x4C b) := rfl

theorem exec_koff_write (b : Byte) (s : State) : exec (.koff (.write b)) s = .next (s.writeReg 0x5C b) := rfl

/-! ### Register writes (R233, R235, R236) -/

/-- A register write stores its byte and, the voices apart, changes nothing else (R233). -/
theorem registerWritten_writeReg (s : State) (a : RegAddr) (b : Byte) : RegisterWritten a b s (s.writeReg a b) := by
  have g : (s.apu.dsp.setReg a b).SameGlobals (s.writeReg a b).apu.dsp := Dsp.write_globals ..
  refine ⟨(g.reg a).trans (Dsp.reg_setReg_same ..), fun c hc => (g.reg c).trans (Dsp.reg_setReg_ne _ _ _ _ hc),
    fun _ => rfl, ⟨rfl, rfl, rfl, rfl⟩, ?_, rfl⟩
  exact ⟨g.counter, g.noise, g.echoPos, g.histL, g.histR, g.hpos⟩

/-- A write to KON keys on the voices of the set bits, with the directory page of DIR (R235). -/
theorem State.writeReg_kon_voice (s : State) (b : Byte) (v : VoiceIx) : (s.writeReg 0x4C b).voice v =
    if b.getLsbD v.val then (s.voice v).keyOn s.cfg s.apu.mem (s.reg 0x5D) else s.voice v := by
  calc (s.apu.dsp.write s.cfg s.apu.mem 0x4C b).voice v
    _ = ((s.apu.dsp.setReg 0x4C b).keyOnFanout s.cfg s.apu.mem b).voice v := by
      rw [Dsp.write, Dsp.writeEffect_global _ _ _ _ _ (by decide), if_pos rfl]
    _ = _ := by
      rw [Dsp.keyOnFanout_voice, fanVoice, maskBit, Dsp.reg_setReg_ne _ _ _ _ (by decide)]
      rfl

/-- A write to KOFF keys off the voices of the set bits (R236). -/
theorem State.writeReg_koff_voice (s : State) (b : Byte) (v : VoiceIx) :
    (s.writeReg 0x5C b).voice v = if b.getLsbD v.val then (s.voice v).keyOff else s.voice v := by
  calc (s.apu.dsp.write s.cfg s.apu.mem 0x5C b).voice v
    _ = ((s.apu.dsp.setReg 0x5C b).keyOffFanout b).voice v := by
      rw [Dsp.write, Dsp.writeEffect_global _ _ _ _ _ (by decide), if_neg (by decide), if_pos rfl]
    _ = _ := Dsp.keyOffFanout_voice ..

/-- Settles O47: a register write, and the fan-out of KON and of KOFF voice by voice. -/
theorem konAndKoffWritesFanOut : Obligations.KonAndKoffWritesFanOut := by
  refine ⟨fun s b => ⟨_, exec_kon_write b s, registerWritten_writeReg s _ b, fun v => ⟨fun hset => ?_, fun hclear => ?_⟩⟩,
    fun s b => ⟨_, exec_koff_write b s, registerWritten_writeReg s _ b, s.writeReg_koff_voice b⟩⟩
  · refine ⟨_, exec_voiceKon { s with sel := v } (s.reg 0x5D), ?_⟩
    rw [State.writeReg_kon_voice, if_pos hset]
    exact (State.voice_withSelVoice { s with sel := v } _).symm
  · rw [State.writeReg_kon_voice, if_neg (Bool.eq_false_iff.1 hclear)]

/-! ### Register reads (R38, R39, R237) -/

theorem regColumn_toNat (a : RegAddr) : (regColumn a).toNat = a.toNat % 16 := by simp [regColumn]

theorem regVoice_eq (a : RegAddr) : regVoice a = ⟨a.toNat / 16, by omega⟩ := by
  revert a; decide

/-- The high byte of a 16-bit register is the high byte of the number it holds. -/
theorem highByte_eq_ofInt (x : Sample) : highByte x = BitVec.ofInt 8 (x.toInt / 256) := by
  have hx : x.toInt = if 2 * x.toNat < 2 ^ 16 then (x.toNat : Int) else (x.toNat : Int) - 2 ^ 16 :=
    BitVec.toInt_eq_toNat_cond x
  have hhigh : (highByte x).toNat = x.toNat / 256 % 256 := by
    rw [highByte, BitVec.extractLsb'_toNat, Nat.shiftRight_eq_div_pow]
  apply BitVec.eq_of_toNat_eq
  rw [hhigh, BitVec.toNat_ofInt]
  split at hx <;> omega

/-- What a read returns, by the spec's formulas for ENVX and OUTX (R237). -/
theorem Dsp.read_eq (cfg : Config) (henvx : cfg.envx = []) (houtx : cfg.outx = []) (d : Dsp) (a : RegAddr) :
    d.read cfg a =
      if a.toNat % 16 = 8 then BitVec.ofNat 8 ((d.voice (regVoice a)).env.level.toNat / 16)
      else if a.toNat % 16 = 9 then BitVec.ofInt 8 ((d.voice (regVoice a)).rawOut.toInt / 256)
      else d.reg a := by
  unfold Dsp.read
  rw [regColumn_toNat]
  split
  case h_1 h => rw [if_pos h, envxByte, henvx, configured_nil]
  case h_2 h => rw [if_neg (by omega), if_pos h, outxByte, houtx, configured_nil, highByte_eq_ofInt]
  case h_3 h8 h9 => rw [if_neg h8, if_neg h9]

/-- Settles O48: DSP.READ and the row of its address emit the same byte, and emitting changes no unit. -/
theorem registerReads : Obligations.RegisterReads := by
  intro s a henvx houtx
  refine ⟨_, exec_dspRead a s, exec_decodeReg a .read s, rfl, ⟨rfl, rfl, rfl, rfl⟩, ?_⟩
  rw [Dsp.read_eq _ henvx houtx, regVoice_eq]
  rfl

end Sys2Proof.Machine
end

section
/-! SUPPORT. The statements about the RingBuffer (`45_ring_buffer.md`), settled from one equation for each outcome of
its operations and from what a push and a slice hold, sample by sample. -/

namespace Sys2Proof.Machine

/-! ### The operations of the RingBuffer, one equation for each outcome -/

section Exec
variable (s : State)

theorem exec_rbReset : exec .rbReset s = .next (s.withRing (Ring.reset s.cfg.rbCapacity)) := rfl

theorem exec_rbCount : exec .rbCount s = .next (s.emit (.count s.ring.count)) := rfl

theorem exec_rbWrite_of_ne (l r : Sample) (h : s.ring.count ≠ s.cfg.rbCapacity) :
    exec (.rbWrite l r) s = .next (s.withRing (s.ring.push s.cfg.rbCapacity l r)) := if_neg h

theorem exec_rbWrite_full (l r : Sample) (h : s.ring.count = s.cfg.rbCapacity) :
    exec (.rbWrite l r) s = .refused .ringOverflow := if_pos h

theorem exec_rbRead_of_le (n : Nat) (h : n ≤ s.ring.count) :
    exec (.rbRead n) s = .next ((s.withRing (s.ring.drop s.cfg.rbCapacity n)).emit
      (.frames (ringSlice s.cfg.rbCapacity s.ring.bufL s.ring.rd n)
        (ringSlice s.cfg.rbCapacity s.ring.bufR s.ring.rd n))) := if_neg (Nat.not_lt.2 h)

theorem exec_rbRead_short (n : Nat) (h : s.ring.count < n) : exec (.rbRead n) s = .refused .ringUnderflow := if_pos h

end Exec

/-! ### Samples of a slice and of a reset buffer -/

@[simp] theorem ringSlice_length (cap : Nat) (buf : List Sample) (rd n : Nat) : (ringSlice cap buf rd n).length = n := by
  simp [ringSlice]

/-- The sample at `k` of a slice stands `k` places after the read cursor, wrapping at the capacity (R293). -/
theorem ringSlice_getD (cap : Nat) (buf : List Sample) (rd : Nat) {n k : Nat} (h : k < n) :
    (ringSlice cap buf rd n).getD k 0 = buf.getD ((rd + k) % cap) 0 := by
  simp [ringSlice, h]

/-! ### The statements -/

/-- Settles O58: a push sets both arrays at the write cursor, which the invariant keeps inside them. -/
theorem rbWriteAppendsOrIsRefused : Obligations.RbWriteAppendsOrIsRefused := by
  refine ⟨fun s l r hok hroom => ?_, exec_rbWrite_full⟩
  obtain ⟨hlenL, hlenR, -, hwr, -, -⟩ := hok
  refine ⟨_, exec_rbWrite_of_ne s l r hroom, ?_, ?_, fun k hk => ⟨?_, ?_⟩, rfl, rfl, rfl, rfl, rfl, rfl, rfl, rfl⟩
  · exact getD_set_same _ _ _ (hlenL.symm ▸ hwr)
  · exact getD_set_same _ _ _ (hlenR.symm ▸ hwr)
  · exact getD_set_ne _ _ _ _ hk
  · exact getD_set_ne _ _ _ _ hk

/-- Settles O59: a read returns the slice of each channel and moves the cursor and the count alone. -/
theorem rbReadTakesOrIsRefused : Obligations.RbReadTakesOrIsRefused := by
  refine ⟨fun s n hn => ?_, exec_rbRead_short⟩
  exact ⟨_, _, _, exec_rbRead_of_le s n hn, rfl, ringSlice_length .., ringSlice_length ..,
    fun k hk => ⟨ringSlice_getD _ _ _ hk, ringSlice_getD _ _ _ hk⟩, rfl, rfl, rfl, rfl, rfl, rfl, rfl, rfl, rfl⟩

/-- Settles O57: a reset puts the reset RingBuffer of the configured capacity in place, whatever was there; a count
only emits. -/
theorem rbResetClearsAndRbCountReports : Obligations.RbResetClearsAndRbCountReports := by
  refine ⟨fun s => ?_, fun s => ⟨_, exec_rbCount s, rfl, ⟨rfl, rfl, rfl, rfl⟩, rfl⟩⟩
  have hzero : ∀ x ∈ List.replicate s.cfg.rbCapacity (0 : Sample), x = 0 := fun _ => List.eq_of_mem_replicate
  exact ⟨_, exec_rbReset s, rfl, rfl, rfl, List.length_replicate, List.length_replicate, hzero, hzero,
    rfl, rfl, rfl, rfl, rfl⟩

end Sys2Proof.Machine
end

section
/-! SUPPORT. The statements about the encoding (`30_encoding.md`): a line that decodes is the encoding of its
operation, and the encoding of a well-formed operation decodes to it, format by format. -/

namespace Sys2Proof

/-! ### Operands: what is refused, and what the operands of an accepted line are -/

/-- What is refused is refused as a bad operand. -/
def RefusesOnlyOperands {α : Type} (r : Except DecodeError α) : Prop := ∀ e, r = .error e → e = .badOperand

theorem refusesOnlyOperands_ok {α : Type} (x : α) : RefusesOnlyOperands (.ok x) := fun _ h => nomatch h

theorem refusesOnlyOperands_badOperand {α : Type} : RefusesOnlyOperands (α := α) (.error .badOperand) :=
  fun _ h => (Except.error.inj h).symm

theorem RefusesOnlyOperands.map {α β : Type} {r : Except DecodeError α} (h : RefusesOnlyOperands r) (f : α → β) :
    RefusesOnlyOperands (r.map f) := by
  cases r with
  | ok x => exact refusesOnlyOperands_ok _
  | error e => exact fun e' he => (Except.error.inj he) ▸ h e rfl

theorem refusesOnlyOperands_ite {α : Type} (p : Prop) [Decidable p] (x : α) :
    RefusesOnlyOperands (if p then .ok x else .error .badOperand) := by
  split
  · exact refusesOnlyOperands_ok x
  · exact refusesOnlyOperands_badOperand

theorem operandRegAddr_refuses (b : Byte) : RefusesOnlyOperands (operandRegAddr b) := by
  unfold operandRegAddr
  split
  · exact refusesOnlyOperands_badOperand
  · exact refusesOnlyOperands_ok _

theorem operandCounter_refuses (lo hi : Byte) : RefusesOnlyOperands (operandCounter lo hi) := by
  unfold operandCounter
  split
  · exact refusesOnlyOperands_badOperand
  · exact refusesOnlyOperands_ok _

theorem operandBlock_refuses (bs : List Byte) : RefusesOnlyOperands (operandBlock bs) := by
  unfold operandBlock
  split
  · exact refusesOnlyOperands_ok _
  · exact refusesOnlyOperands_badOperand

theorem operandSnapshot_refuses (bs : List Byte) : RefusesOnlyOperands (operandSnapshot bs) :=
  refusesOnlyOperands_ite _ _

/-- The 22 codes of the table of operation-select codes (R100). -/
def op8Codes : List Nat :=
  [0x00, 0x01, 0x02, 0x03, 0x10, 0x11, 0x12, 0x20, 0x21, 0x22, 0x30, 0x31, 0x32, 0x40, 0x41, 0x42, 0x43, 0x44, 0x50,
    0x51, 0x52, 0x53]

/-- A listed code is refused for its operands only (R102, R311). -/
theorem decodeOp8_listed (code : Byte) (bs : List Byte) (h : code.toNat ∈ op8Codes) :
    RefusesOnlyOperands (decodeOp8 code bs) := by
  unfold decodeOp8
  split
  case h_23 => simp_all [op8Codes]
  -- no operand
  case h_3 | h_4 | h_6 | h_7 | h_10 | h_11 | h_14 | h_19 | h_22 => exact refusesOnlyOperands_ite _ _
  case h_2 => exact (operandBlock_refuses _).map _
  case h_15 => exact (operandSnapshot_refuses _).map _
  -- a fixed number of bytes, any of them
  case h_1 | h_9 | h_16 | h_17 | h_18 | h_20 | h_21 =>
    split
    · exact refusesOnlyOperands_ok _
    · exact refusesOnlyOperands_badOperand
  -- a counter or a register address among them
  case h_5 | h_8 =>
    split
    · exact (operandCounter_refuses _ _).map _
    · exact refusesOnlyOperands_badOperand
  case h_12 | h_13 =>
    split
    · exact (operandRegAddr_refuses _).map _
    · exact refusesOnlyOperands_badOperand

theorem decodeOp8_unlisted (code : Byte) (bs : List Byte) (h : code.toNat ∉ op8Codes) :
    decodeOp8 code bs = .error (.unknownOp code) := by
  unfold decodeOp8
  split
  case h_23 => rfl
  all_goals exact absurd (by simp only [*]; decide) h

/-- Settles O7: a listed code is refused for its operands only, any other code by name. -/
theorem onlyListedCodesAreOperations : Obligations.OnlyListedCodesAreOperations := by
  intro code operands
  refine ⟨fun h hmem => ?_, decodeOp8_unlisted code operands⟩
  exact nomatch decodeOp8_listed code operands hmem _ h

/-! ### Lines that decode -/

theorem exists_of_map_eq_ok {ε α β : Type} {f : α → β} {r : Except ε α} {y : β} (h : r.map f = .ok y) :
    ∃ x, r = .ok x ∧ f x = y := by
  cases r with
  | ok x => exact ⟨x, rfl, Except.ok.inj h⟩
  | error e => nomatch h

theorem eq_of_ite_eq_ok {ε α : Type} {p : Prop} [Decidable p] {x y : α} {e : ε}
    (h : (if p then .ok x else .error e) = Except.ok y) : p ∧ x = y := by
  split at h
  · exact ⟨‹p›, Except.ok.inj h⟩
  · nomatch h

theorem operandBlock_eq_ok {bs : List Byte} {b : Block} (h : operandBlock bs = .ok b) : b.toList = bs := by
  unfold operandBlock at h
  split at h
  · rw [← Except.ok.inj h]; rfl
  · nomatch h

theorem operandSnapshot_eq_ok {bs : List Byte} {x : Snapshot} (h : operandSnapshot bs = .ok x) :
    x.ram ++ x.dspregs = bs := by
  obtain ⟨-, rfl⟩ := eq_of_ite_eq_ok h
  exact List.take_append_drop ..

/-- A command line that decodes is the encoding of its operation (R100, R101, R104). -/
theorem encode_of_decodeOp8 {code : Byte} {bs : List Byte} {i : Instr} (h : decodeOp8 code bs = .ok i) :
    encode i = (.op8, code :: bs) := by
  have hcode : code = BitVec.ofNat 8 code.toNat := by simp
  unfold decodeOp8 at h
  generalize code.toNat = n at h hcode
  subst hcode
  split at h
  case h_23 => nomatch h
  -- no operand
  case h_3 | h_4 | h_6 | h_7 | h_10 | h_11 | h_14 | h_19 | h_22 =>
    obtain ⟨rfl, rfl⟩ := eq_of_ite_eq_ok h
    rfl
  case h_2 =>
    obtain ⟨b, hb, rfl⟩ := exists_of_map_eq_ok h
    rw [encode, operandBlock_eq_ok hb]
    rfl
  case h_15 =>
    obtain ⟨x, hx, rfl⟩ := exists_of_map_eq_ok h
    rw [encode, operandSnapshot_eq_ok hx]
    rfl
  -- a fixed number of bytes, any of them
  case h_1 | h_9 | h_16 | h_17 | h_18 | h_20 | h_21 =>
    split at h
    · obtain rfl := Except.ok.inj h
      simp [encode, lowByte_le16, highByte_le16, countBytes_le16]
    · nomatch h
  -- a counter among them
  case h_5 | h_8 =>
    split at h
    · obtain ⟨c, hc, rfl⟩ := exists_of_map_eq_ok h
      simp [encode, lowByte_le16, highByte_le16, operandCounter_ok _ _ _ hc]
    · nomatch h
  -- a register address among them
  case h_12 | h_13 =>
    split at h
    · obtain ⟨a, ha, rfl⟩ := exists_of_map_eq_ok h
      simp [encode, operandRegAddr_ok _ _ ha]
    · nomatch h

/-- The use of a value in force at a tick, with its counter's bytes. -/
theorem tickUse_eq_ok {bs : List Byte} {u : CfgUse} (h : tickUse bs = .ok u) :
    ∃ c, u = .tick c ∧ counterBytes c = bs := by
  unfold tickUse at h
  split at h
  · obtain ⟨c, hc, rfl⟩ := exists_of_map_eq_ok h
    exact ⟨c, rfl, operandCounter_ok _ _ _ hc⟩
  · nomatch h

/-- A value in force at a tick that decodes is the encoding of its row, if the row's encoding is its byte's. -/
theorem encode_of_tickUse {reg : CfgReg} {b : Byte} {bs : List Byte} {row : CfgUse → Instr} {i : Instr}
    (hrow : ∀ u, encode (row u) = encodeValue reg b u) (h : (tickUse bs).map row = .ok i) :
    encode i = (.cfgTick reg, b :: bs) := by
  obtain ⟨u, hu, rfl⟩ := exists_of_map_eq_ok h
  obtain ⟨c, rfl, rfl⟩ := tickUse_eq_ok hu
  exact hrow _

/-- Settles O6: format by format, the bytes of an accepted line are those of its operation. -/
theorem encodeOfDecodeIsIdentity : Obligations.EncodeOfDecodeIsIdentity := by
  intro p bs i h
  unfold decode at h
  cases p with
  | op8 =>
    cases bs with
    | nil => nomatch h
    | cons code operands => exact encode_of_decodeOp8 h
  | brrblk =>
    obtain ⟨b, hb, rfl⟩ := exists_of_map_eq_ok h
    rw [encode_decodeBlock, operandBlock_eq_ok hb]
  | dspregWrite =>
    dsimp only at h
    split at h
    · obtain ⟨a, ha, rfl⟩ := exists_of_map_eq_ok h
      rw [encode_decodeReg, encodeAccess, operandRegAddr_ok _ _ ha]
    · nomatch h
  | dspregRead =>
    dsimp only at h
    split at h
    · obtain ⟨a, ha, rfl⟩ := exists_of_map_eq_ok h
      rw [encode_decodeReg, encodeAccess, operandRegAddr_ok _ _ ha]
    · nomatch h
  | cfgWrite reg =>
    dsimp only at h
    split at h
    · cases reg with
      | adsr1 => rw [← Except.ok.inj h, encode_decodeAdsr1]; rfl
      | adsr2 => rw [← Except.ok.inj h, encode_decodeAdsr2]; rfl
      | gain => rw [← Except.ok.inj h, encode_decodeGain]; rfl
      | flg => rw [← Except.ok.inj h, encode_decodeFlg]
    · nomatch h
  | cfgTick reg =>
    cases bs with
    | nil => nomatch h
    | cons b rest =>
      cases reg with
      | adsr1 => exact encode_of_tickUse (encode_decodeAdsr1 · b) h
      | adsr2 => exact encode_of_tickUse (encode_decodeAdsr2 · b) h
      | gain => exact encode_of_tickUse (encode_decodeGain · b) h
      | flg =>
        obtain ⟨rfl, rfl⟩ := eq_of_ite_eq_ok h
        exact encode_decodeFlg b .tick

/-! ### Encodings decode -/

theorem operandBlock_toList (b : Block) : operandBlock b.toList = .ok b := by
  rw [operandBlock, dif_pos (Vector.length_toList ..)]
  rfl

theorem operandSnapshot_append (x : Snapshot) (h : x.wellFormed = true) :
    operandSnapshot (x.ram ++ x.dspregs) = .ok x := by
  simp only [Snapshot.wellFormed, Bool.and_eq_true, hasLength_iff] at h
  obtain ⟨hram, hregs⟩ := h
  have hlen : hasLength (x.ram ++ x.dspregs) 65664 = true := by
    rw [hasLength_iff, List.length_append, hram, hregs]
  rw [operandSnapshot, if_pos hlen, List.take_left' hram, List.drop_left' hram]

theorem decode_packBlock (filter : BitVec 2) (f : BlockFields) :
    decode .brrblk (packBlock filter f).toList = .ok (decodeBlock (packBlock filter f)) := by
  rw [decode, operandBlock_toList]
  rfl

theorem decode_encodeAccess (a : RegAddr) (x : RegAccess) :
    decode (encodeAccess a x).1 (encodeAccess a x).2 = .ok (decodeReg a x) := by
  cases x with
  | write b => simp [encodeAccess, decode, operandRegAddr_regByte, Except.map]
  | read => simp [encodeAccess, decode, operandRegAddr_regByte, Except.map]

theorem tickUse_counterBytes (c : Counter) : tickUse (counterBytes c) = .ok (.tick c) := by
  simp [tickUse, counterBytes, operandCounter_bytes, Except.map]

section Values
variable (b : Byte) (u : CfgUse)

theorem decode_encodeValue_adsr1 :
    decode (encodeValue .adsr1 b u).1 (encodeValue .adsr1 b u).2 = .ok (decodeAdsr1 b u) := by
  cases u with
  | write => rfl
  | tick c => simp [encodeValue, decode, tickUse_counterBytes, Except.map]

theorem decode_encodeValue_adsr2 :
    decode (encodeValue .adsr2 b u).1 (encodeValue .adsr2 b u).2 = .ok (decodeAdsr2 b u) := by
  cases u with
  | write => rfl
  | tick c => simp [encodeValue, decode, tickUse_counterBytes, Except.map]

theorem decode_encodeValue_gain :
    decode (encodeValue .gain b u).1 (encodeValue .gain b u).2 = .ok (decodeGain b u) := by
  cases u with
  | write => rfl
  | tick c => simp [encodeValue, decode, tickUse_counterBytes, Except.map]

end Values

/-- Settles O5: format by format, what the encoder packs the decoder takes apart. -/
theorem decodeOfEncodeIsIdentity : Obligations.DecodeOfEncodeIsIdentity := by
  intro i hwf
  cases i
  -- the command port
  case brrNext | brrFin | envKon | envKoff | voiceKoff | dspTick | apuReset | rbReset | rbCount => rfl
  case voiceKon => rfl
  case brrReset | apuReadByte | apuWriteByte | rbWrite => simp [encode, decode, decodeOp8, le16_bytes]
  case envTick | voiceRender =>
    simp [encode, decode, decodeOp8, counterBytes, operandCounter_bytes, le16_bytes, Except.map]
  case dspWrite | dspRead => simp [encode, decode, decodeOp8, operandRegAddr_regByte, Except.map]
  case apuRender n | rbRead n =>
    have hn : n < 65536 := of_decide_eq_true hwf
    simp [encode, decode, decodeOp8, countBytes, le16_countBytes n hn]
  case brrRead b => simp [encode, decode, decodeOp8, operandBlock_toList, Except.map]
  case apuSetState x => simp [encode, decode, decodeOp8, operandSnapshot_append x hwf, Except.map]
  -- blocks
  case brrblkF0 f | brrblkF1 f | brrblkF2 f | brrblkF3 f =>
    rw [encode, decode_packBlock, decodeBlock, blockFilter_packBlock, blockFields_packBlock]
    rfl
  -- registers
  case vxVoll | vxVolr | vxPitchl | vxPitchh | vxSrcn | vxAdsr1 | vxAdsr2 | vxGain | vxEnvx | vxOutx | vxUnusedA |
      vxUnusedB | vxUnusedE | cxFir =>
    simp only [encode, decode_encodeAccess, decodeReg_vxVoll, decodeReg_vxVolr, decodeReg_vxPitchl, decodeReg_vxPitchh,
      decodeReg_vxSrcn, decodeReg_vxAdsr1, decodeReg_vxAdsr2, decodeReg_vxGain, decodeReg_vxEnvx, decodeReg_vxOutx,
      decodeReg_vxUnusedA, decodeReg_vxUnusedB, decodeReg_vxUnusedE, decodeReg_cxFir]
  case mvoll | mvolr | evoll | evolr | kon | koff | flg | endx | efb | unused1D | pmon | non | eon | dir | esa | edl =>
    exact decode_encodeAccess ..
  -- values
  case adsr1Adsr | adsr1Gain => simp only [encode, decode_encodeValue_adsr1, decodeAdsr1_adsr, decodeAdsr1_gain]
  case adsr2 => simp only [encode, decode_encodeValue_adsr2, decodeAdsr2_pack]
  case gainDirect | gainLindec | gainExpdec | gainLininc | gainBentinc =>
    simp only [encode, decode_encodeValue_gain, decodeGain_direct, decodeGain_lindec, decodeGain_expdec,
      decodeGain_lininc, decodeGain_bentinc]
  case flgValue r m e n u =>
    cases u with
    | write => exact congrArg _ (decodeFlg_pack r m e n .write)
    | tick => exact congrArg _ (decodeFlg_pack r m e n .tick)

/-- Settles O8: the decoder runs on the twelve lines. -/
theorem writtenOutWordsDecode : Obligations.WrittenOutWordsDecode := by
  unfold Obligations.WrittenOutWordsDecode
  decide

end Sys2Proof
end

section
/-! SUPPORT. The statements about the register rows and the value rows (`10_state.md` section 9, `30_encoding.md`
R99, R106): every such row is one register write, whose effect on a voice is read off its column. -/

namespace Sys2Proof.Machine

/-! ### What a register write does to a voice (R233) -/

/-- A write to a mirrored column changes the mirror of the voice it names, and no other voice. -/
theorem State.writeReg_mirror_voice (s : State) (v w : VoiceIx) (n : BitVec 4) (b : Byte) (h : n.toNat < 8) :
    (s.writeReg (regAddr v n) b).voice w = if w = v then mirrorWrite n.toNat b (s.voice v) else s.voice w := by
  calc (s.apu.dsp.write s.cfg s.apu.mem (regAddr v n) b).voice w
    _ = ((s.apu.dsp.setReg (regAddr v n) b).mapVoice v (mirrorWrite n.toNat b)).voice w := by
      rw [Dsp.write, Dsp.writeEffect_mirror _ _ _ _ _ (by rwa [regColumn_regAddr]), regColumn_regAddr, regVoice_regAddr]
    _ = _ := Dsp.voice_setVoice ..

/-- A write to a register without mirror or event leaves every voice as it is. -/
theorem State.writeReg_storage_voice (s : State) (a : RegAddr) (b : Byte) (h : ¬ (regColumn a).toNat < 8)
    (hevent : a ∉ [0x4C, 0x5C, 0x2D, 0x3D, 0x4D]) : VoicesKept s (s.writeReg a b) := by
  intro v
  simp only [List.mem_cons, List.not_mem_nil, or_false, not_or] at hevent
  obtain ⟨hkon, hkoff, hpmon, hnon, heon⟩ := hevent
  show (s.apu.dsp.write s.cfg s.apu.mem a b).voice v = _
  rw [Dsp.write, Dsp.writeEffect_global _ _ _ _ _ h, if_neg hkon, if_neg hkoff, if_neg hpmon, if_neg hnon, if_neg heon]
  rfl

section Fanout
variable (s : State) (b : Byte) (v : VoiceIx)

theorem State.writeReg_pmon_voice : (s.writeReg 0x2D b).voice v = { s.voice v with pmon := b.getLsbD v.val } := by
  calc (s.apu.dsp.write s.cfg s.apu.mem 0x2D b).voice v
    _ = ((s.apu.dsp.setReg 0x2D b).copyMask (fun x v => { v with pmon := x }) b).voice v := by
      rw [Dsp.write, Dsp.writeEffect_global _ _ _ _ _ (by decide), if_neg (by decide), if_neg (by decide), if_pos rfl]
    _ = _ := Dsp.copyMask_voice ..

theorem State.writeReg_non_voice : (s.writeReg 0x3D b).voice v = { s.voice v with non := b.getLsbD v.val } := by
  calc (s.apu.dsp.write s.cfg s.apu.mem 0x3D b).voice v
    _ = ((s.apu.dsp.setReg 0x3D b).copyMask (fun x v => { v with non := x }) b).voice v := by
      rw [Dsp.write, Dsp.writeEffect_global _ _ _ _ _ (by decide), if_neg (by decide), if_neg (by decide),
        if_neg (by decide), if_pos rfl]
    _ = _ := Dsp.copyMask_voice ..

theorem State.writeReg_eon_voice : (s.writeReg 0x4D b).voice v = { s.voice v with eon := b.getLsbD v.val } := by
  calc (s.apu.dsp.write s.cfg s.apu.mem 0x4D b).voice v
    _ = ((s.apu.dsp.setReg 0x4D b).copyMask (fun x v => { v with eon := x }) b).voice v := by
      rw [Dsp.write, Dsp.writeEffect_global _ _ _ _ _ (by decide), if_neg (by decide), if_neg (by decide),
        if_neg (by decide), if_neg (by decide), if_pos rfl]
    _ = _ := Dsp.copyMask_voice ..

end Fanout

/-! ### Register rows -/

theorem exec_dspWrite (a : RegAddr) (b : Byte) (s : State) : exec (.dspWrite a b) s = .next (s.writeReg a b) := rfl

/-- Settles O49: both are the same register write. -/
theorem dspWriteIsTheRegisterRowsWrite : Obligations.DspWriteIsTheRegisterRowsWrite :=
  fun s a b => ⟨_, exec_dspWrite a b s, exec_decodeReg a (.write b) s⟩

/-- A row that writes a mirrored column stores its byte there and in the mirror, and does no more. -/
theorem mirrorWritten (s : State) (v : VoiceIx) (n : BitVec 4) (b : Byte) (h : n.toNat < 8) {i : Instr}
    (hexec : exec i s = .next (s.writeReg (regAddr v n) b)) :
    ∃ t, exec i s = .next t ∧ RegisterWritten (regAddr v n) b s t ∧ t.voice v = mirrorWrite n.toNat b (s.voice v) ∧
      OtherVoicesKept v s t :=
  ⟨_, hexec, registerWritten_writeReg s _ b, by rw [State.writeReg_mirror_voice _ _ _ _ _ h, if_pos rfl],
    fun w hw => by rw [State.writeReg_mirror_voice _ _ _ _ _ h, if_neg hw]⟩

/-- Settles O44: the eight rows are writes to mirrored columns. -/
theorem voiceRegisterWritesReachTheMirror : Obligations.VoiceRegisterWritesReachTheMirror :=
  fun s v b => ⟨mirrorWritten s v 0 b (by decide) rfl, mirrorWritten s v 1 b (by decide) rfl,
    mirrorWritten s v 2 b (by decide) rfl, mirrorWritten s v 3 b (by decide) rfl, mirrorWritten s v 4 b (by decide) rfl,
    mirrorWritten s v 5 b (by decide) rfl, mirrorWritten s v 6 b (by decide) rfl, mirrorWritten s v 7 b (by decide) rfl⟩

/-- A row that writes a register without mirror or event stores its byte there, and does no more. -/
theorem storageWritten (s : State) (a : RegAddr) (b : Byte)
    (h : ¬ (regColumn a).toNat < 8 ∧ a ∉ [0x4C, 0x5C, 0x2D, 0x3D, 0x4D]) {i : Instr}
    (hexec : exec i s = .next (s.writeReg a b)) :
    ∃ t, exec i s = .next t ∧ RegisterWritten a b s t ∧ VoicesKept s t :=
  ⟨_, hexec, registerWritten_writeReg s a b, s.writeReg_storage_voice a b h.1 h.2⟩

/-- The columns of a voice that hold bytes only (R38, R39, R42, R43). -/
theorem storage_columns : ∀ v : VoiceIx, ∀ n ∈ ([0x8, 0x9, 0xA, 0xB, 0xE, 0xF] : List (BitVec 4)),
    ¬ (regColumn (regAddr v n)).toNat < 8 ∧ regAddr v n ∉ [0x4C, 0x5C, 0x2D, 0x3D, 0x4D] := by decide

/-- Settles O45: none of these addresses has a mirror or an event. -/
theorem storageRegisterWritesOnlyStore : Obligations.StorageRegisterWritesOnlyStore := by
  intro s v b
  refine ⟨⟨?_, ?_, ?_, ?_, ?_, ?_⟩, ⟨?_, ?_, ?_, ?_, ?_, ?_⟩, ?_, ?_, ?_, ?_, ?_⟩
  · exact storageWritten s _ b (storage_columns v 0x8 (by decide)) rfl
  · exact storageWritten s _ b (storage_columns v 0x9 (by decide)) rfl
  · exact storageWritten s _ b (storage_columns v 0xA (by decide)) rfl
  · exact storageWritten s _ b (storage_columns v 0xB (by decide)) rfl
  · exact storageWritten s _ b (storage_columns v 0xE (by decide)) rfl
  · exact storageWritten s _ b (storage_columns v 0xF (by decide)) rfl
  all_goals exact storageWritten s _ b (by decide) rfl

/-- Settles O46: bit v of the byte is copied to voice v. -/
theorem flagRegisterWritesFanOut : Obligations.FlagRegisterWritesFanOut :=
  fun s b => ⟨⟨_, rfl, registerWritten_writeReg s 0x2D b, s.writeReg_pmon_voice b⟩,
    ⟨_, rfl, registerWritten_writeReg s 0x3D b, s.writeReg_non_voice b⟩,
    ⟨_, rfl, registerWritten_writeReg s 0x4D b, s.writeReg_eon_voice b⟩⟩

/-! ### Value rows -/

theorem encodeValue_inj {reg : CfgReg} {b b' : Byte} {u : CfgUse} (h : encodeValue reg b u = encodeValue reg b' u) :
    b = b' := by
  cases u with
  | write => exact (List.cons.inj (Prod.mk.inj h).2).1
  | tick c => exact (List.cons.inj (Prod.mk.inj h).2).1

theorem decodeAdsr1_cases (b : Byte) (u : CfgUse) :
    (∃ dr ar, decodeAdsr1 b u = .adsr1Adsr dr ar u) ∨ ∃ g, decodeAdsr1 b u = .adsr1Gain g u := by
  unfold decodeAdsr1
  split
  · exact .inl ⟨_, _, rfl⟩
  · exact .inr ⟨_, rfl⟩

theorem decodeGain_cases (b : Byte) (u : CfgUse) :
    (∃ g, decodeGain b u = .gainDirect g u) ∨ (∃ r, decodeGain b u = .gainLindec r u) ∨
      (∃ r, decodeGain b u = .gainExpdec r u) ∨ (∃ r, decodeGain b u = .gainLininc r u) ∨
      ∃ r, decodeGain b u = .gainBentinc r u := by
  unfold decodeGain
  split
  · split
    · exact .inr (.inl ⟨_, rfl⟩)
    · exact .inr (.inr (.inl ⟨_, rfl⟩))
    · exact .inr (.inr (.inr (.inl ⟨_, rfl⟩)))
    · exact .inr (.inr (.inr (.inr ⟨_, rfl⟩)))
  · exact .inl ⟨_, rfl⟩

section Exec
variable (b : Byte) (u : CfgUse) (s : State)

/-- A row that uses the byte it is encoded as uses the byte it was decoded from. -/
theorem exec_valueRow {reg : CfgReg} {n : BitVec 4} {x : Byte} {i : Instr} (hb : encode i = encodeValue reg b u)
    (hx : encode i = encodeValue reg x u) (hexec : exec i s = .next (s.useValue n x u)) :
    exec i s = .next (s.useValue n b u) := by
  rw [hexec, encodeValue_inj (hx.symm.trans hb)]

/-- The rows of ADSR1 use its byte (R35, R99). -/
theorem exec_decodeAdsr1 : exec (decodeAdsr1 b u) s = .next (s.useValue 0x5 b u) := by
  have hb := encode_decodeAdsr1 u b
  obtain ⟨dr, ar, h⟩ | ⟨g, h⟩ := decodeAdsr1_cases b u
  all_goals
    rw [h] at hb ⊢
    exact exec_valueRow b u s hb rfl rfl

/-- The row of ADSR2 uses its byte (R36, R99). -/
theorem exec_decodeAdsr2 : exec (decodeAdsr2 b u) s = .next (s.useValue 0x6 b u) :=
  exec_valueRow b u s (encode_decodeAdsr2 u b) rfl rfl

/-- The rows of GAIN use its byte (R37, R99). -/
theorem exec_decodeGain : exec (decodeGain b u) s = .next (s.useValue 0x7 b u) := by
  have hb := encode_decodeGain u b
  obtain ⟨g, h⟩ | ⟨r, h⟩ | ⟨r, h⟩ | ⟨r, h⟩ | ⟨r, h⟩ := decodeGain_cases b u
  all_goals
    rw [h] at hb ⊢
    exact exec_valueRow b u s hb rfl rfl

theorem packFlg_fields : packFlg (b.getLsbD 7) (b.getLsbD 6) (b.getLsbD 5) (b.extractLsb' 0 5) = b :=
  (List.cons.inj (Prod.mk.inj (encode_decodeFlg b .write)).2).1

/-- The row of FLG as a write stores its byte (R40, R106). -/
theorem exec_decodeFlg_write : exec (decodeFlg b .write) s = .next (s.writeReg 0x6C b) := by
  conv_rhs => rw [← packFlg_fields b]
  rfl

/-- The row of FLG in force at a tick is the tick after the write (R106; log 5). -/
theorem exec_decodeFlg_tick : exec (decodeFlg b .tick) s =
    .next ((s.writeReg 0x6C b).ticked.emit (s.writeReg 0x6C b).tickFrame) := by
  conv_rhs => rw [← packFlg_fields b]
  rfl

end Exec

/-- The bytes of the value rows as numbers (R99, R106). -/
theorem packAdsr1Adsr_eq : ∀ (dr : BitVec 3) (ar : BitVec 4),
    packAdsr1Adsr dr ar = BitVec.ofNat 8 (128 + dr.toNat * 16 + ar.toNat) := by decide

theorem packAdsr1Gain_eq : ∀ g : BitVec 7, packAdsr1Gain g = BitVec.ofNat 8 g.toNat := by decide

theorem packAdsr2_eq : ∀ (sl : BitVec 3) (sr : BitVec 5),
    packAdsr2 sl sr = BitVec.ofNat 8 (sl.toNat * 32 + sr.toNat) := by decide

theorem packGainDirect_eq : ∀ g : BitVec 7, packGainDirect g = BitVec.ofNat 8 g.toNat := by decide

theorem packGainShape_eq : ∀ (shape : BitVec 2) (r : BitVec 5),
    packGainShape shape r = BitVec.ofNat 8 (128 + shape.toNat * 32 + r.toNat) := by decide

theorem packFlg_eq : ∀ (r m e : Bool) (n : BitVec 5),
    packFlg r m e n = BitVec.ofNat 8 (r.toNat * 128 + m.toNat * 64 + e.toNat * 32 + n.toNat) := by decide

/-- Settles O50: a value row in the write use is the write of its packed byte to a mirrored column of the selected
voice, or to FLG. -/
theorem valueRowsWriteTheirRegister : Obligations.ValueRowsWriteTheirRegister := by
  intro s
  have hcolumn (n : BitVec 4) (hn : n.toNat < 8) {b b' : Byte} (hb : b = b') {i : Instr}
      (hexec : exec i s = .next (s.writeReg (regAddr s.sel n) b)) := mirrorWritten s s.sel n b' hn (hb ▸ hexec)
  refine ⟨fun dr ar => ?_, fun g => ?_, fun sl sr => ?_, fun g => ?_, fun r => ⟨?_, ?_, ?_, ?_⟩, fun r m e n => ?_⟩
  · exact hcolumn 5 (by decide) (packAdsr1Adsr_eq dr ar) rfl
  · exact hcolumn 5 (by decide) (packAdsr1Gain_eq g) rfl
  · exact hcolumn 6 (by decide) (packAdsr2_eq sl sr) rfl
  · exact hcolumn 7 (by decide) (packGainDirect_eq g) rfl
  · exact hcolumn 7 (by decide) (packGainShape_eq 0 r) rfl
  · exact hcolumn 7 (by decide) (packGainShape_eq 1 r) rfl
  · exact hcolumn 7 (by decide) (packGainShape_eq 2 r) rfl
  · exact hcolumn 7 (by decide) (packGainShape_eq 3 r) rfl
  · rw [← packFlg_eq]
    exact storageWritten s 0x6C _ (by decide) rfl

/-- Settles O51: a row in the tick use is by definition the register write and the tick. -/
theorem valueRowsAtATickAreWriteThenTick : Obligations.ValueRowsAtATickAreWriteThenTick := by
  refine ⟨fun s c b => ⟨_, _, _, ⟨exec_decodeAdsr1 b _ s, ?_⟩, ⟨exec_decodeAdsr2 b _ s, ?_⟩, exec_decodeGain b _ s, ?_⟩,
    fun s b => ⟨_, exec_decodeFlg_tick b s, ?_⟩⟩
  · rw [execAll_cons_of_next (exec_decodeAdsr1 b .write s)]; rfl
  · rw [execAll_cons_of_next (exec_decodeAdsr2 b .write s)]; rfl
  · rw [execAll_cons_of_next (exec_decodeGain b .write s)]; rfl
  · rw [execAll_cons_of_next (exec_decodeFlg_write b s)]; rfl

end Sys2Proof.Machine
end

section
/-! SUPPORT. The statements about the whole machine: what reset leaves, what a step performs, and what any one
operation can do. `exec_cases` says the last once; the whole-machine rules are read off its cases. -/

namespace Sys2Proof.Machine

/-! ### Integers (R9) -/

/-- Settles O1: the floor, the balanced remainder, the bounds and the parity of integers. -/
theorem integerPrimitivesMeetTheirDefinitions : Obligations.IntegerPrimitivesMeetTheirDefinitions := by
  refine ⟨asr_bounds, fun v => ?_, fun v => ⟨fun h => if_pos h, fun h => ?_, clamp16_of_range v⟩, fun v => ?_⟩
  · obtain ⟨hlo, hhi⟩ := toInt16_range (wrap16 v)
    refine ⟨hlo, hhi, ?_⟩
    rw [wrap16_toInt]
    exact Int.emod_eq_zero_of_dvd Int.dvd_bmod_sub_self
  · rw [clamp16, clamp, if_neg (by omega), if_pos h]
  · unfold even
    omega

/-! ### Reset (R330, R331) -/

theorem Dsp.reset_voice (cfg : Config) (v : VoiceIx) : (Dsp.reset cfg).voice v = Voice.reset :=
  Vector.getElem_replicate ..

theorem Dsp.reset_reg (cfg : Config) (a : RegAddr) :
    (Dsp.reset cfg).reg a = if a = 0x6C then cfg.flgReset else 0 := by
  simp only [Dsp.reg, Dsp.reset, resetRegs, Vector.getElem_set, Vector.getElem_replicate]
  have ha : 108 = a.toNat ↔ a = 0x6C := ⟨fun e => BitVec.eq_of_toNat_eq e.symm, fun e => e ▸ rfl⟩
  simp only [ha]

/-- After reset the mirrors are zero, as the registers they mirror are. -/
theorem Dsp.reset_mirrored (cfg : Config) : (Dsp.reset cfg).mirrored := by
  intro i
  have hcolumn (n : BitVec 4) (hn : n.toNat < 8) : (0 : Byte) = (Dsp.reset cfg).reg (regAddr i n) := by
    rw [Dsp.reset_reg, if_neg (regAddr_mirror_ne i n hn _ (by decide))]
  have hflag (a : RegAddr) (ha : a ≠ 0x6C) : false = maskBit ((Dsp.reset cfg).reg a) i := by
    rw [Dsp.reset_reg, if_neg ha]
    exact BitVec.getLsbD_zero.symm
  rw [Dsp.reset_voice]
  exact ⟨hcolumn 0 (by decide), hcolumn 1 (by decide), hcolumn 2 (by decide), hcolumn 3 (by decide),
    hcolumn 4 (by decide), hcolumn 5 (by decide), hcolumn 6 (by decide), hcolumn 7 (by decide),
    hflag 0x2D (by decide), hflag 0x3D (by decide), hflag 0x4D (by decide)⟩

theorem Voice.reset_ok (cfg : Config) : Voice.reset.ok cfg :=
  ⟨fun _ => ⟨by decide, rfl, rfl⟩, fun _ => rfl⟩

theorem Dsp.reset_ok (cfg : Config) : (Dsp.reset cfg).ok cfg := by
  refine ⟨fun _ => Nat.zero_le _, fun h => (Bool.and_eq_true_iff.1 h).1, fun _ => rfl, fun _ i => ?_, fun i => ?_,
    Dsp.reset_mirrored cfg⟩
  · show halved ((Vector.replicate 8 0)[i.val]) = true ∧ halved ((Vector.replicate 8 0)[i.val]) = true
    revert i; decide
  · rw [Dsp.reset_voice]; exact Voice.reset_ok cfg

/-- Settles O3: the reset Dsp is within its ranges, memory lists nothing and the RingBuffer is empty. -/
theorem resetMeetsTheInvariant : Obligations.ResetMeetsTheInvariant :=
  ⟨rfl, Dsp.reset_ok Config.default, Ring.ok_reset 4 (by decide)⟩

/-- Settles O2: each item is the value that the reset records name. -/
theorem resetLeavesTheListedValues : Obligations.ResetLeavesTheListedValues := by
  refine ⟨fun v => ?_, Dsp.reset_reg Config.default 0x6C, fun a ha => ?_, rfl, rfl, rfl, rfl, ?_, ?_, ?_, rfl, rfl, rfl,
    ⟨rfl, rfl, rfl, rfl, rfl, rfl, rfl, rfl⟩, ⟨rfl, rfl, rfl⟩, ⟨rfl, rfl, rfl⟩,
    ⟨rfl, rfl, ⟨rfl, rfl⟩, rfl, rfl, rfl, rfl, rfl, rfl⟩, ⟨rfl, rfl, rfl, rfl, rfl, rfl, rfl⟩,
    rfl, rfl, rfl, rfl, rfl, rfl, rfl, rfl, rfl, rfl⟩
  · have hmirrors : (State.reset.voice v).mirrors State.reset.apu.dsp v := Dsp.reset_mirrored _ v
    have hvoice : State.reset.voice v = Voice.reset := Dsp.reset_voice _ v
    rw [hvoice] at hmirrors ⊢
    exact ⟨rfl, rfl, rfl, rfl, rfl, by decide, rfl, rfl, rfl, rfl, rfl, rfl, rfl, rfl, rfl, hmirrors⟩
  · exact (Dsp.reset_reg _ a).trans (if_neg ha)
  · decide
  · exact fun _ => List.eq_of_mem_replicate
  · exact fun _ => List.eq_of_mem_replicate

/-! ### A step (R276) -/

theorem step_of_ok {s : State} {line : Line} {rest : List Line} {i : Instr} (hinbox : s.inbox = line :: rest)
    (hline : decode line.port line.bytes = .ok i) : step s = exec i (s.takeLine line rest) := by
  simp only [step, hinbox, hline]

theorem step_of_error {s : State} {line : Line} {rest : List Line} {e : DecodeError} (hinbox : s.inbox = line :: rest)
    (hline : decode line.port line.bytes = .error e) : step s = .refused (refusalOf e) := by
  simp only [step, hinbox, hline]

theorem step_of_empty {s : State} (hinbox : s.inbox = []) : step s = .next s := by
  simp only [step, hinbox, State.idle]

/-- Settles O9: a step is decoding the oldest line and performing the operation, or refusing by name. -/
theorem stepPerformsTheHeadLine : Obligations.StepPerformsTheHeadLine :=
  ⟨fun _ _ _ _ => step_of_ok, fun _ _ _ _ => step_of_error, fun _ _ _ => step_of_error, fun _ => step_of_empty⟩

/-! ### What any one operation can do -/

/-- A replacement of the selected voice that keeps what is true of a voice in every state (R145, R194, R331). -/
structure State.KeepsVoice (s : State) (x : Voice) : Prop where
  ok : (s.voice s.sel).ok s.cfg → x.ok s.cfg
  mirrors : ∀ d, (s.voice s.sel).mirrors d s.sel → x.mirrors d s.sel

/-- What operation `i` can leave of the state `s`. -/
inductive Effect (s : State) : Instr → State → Prop
  /-- an operation on a voice's units -/
  | voice {i x} (hx : s.KeepsVoice x) : Effect s i (s.withSelVoice x)
  /-- one that returns a result -/
  | voiceReturns {i x r} (hx : s.KeepsVoice x) : Effect s i ((s.withSelVoice x).emit r)
  /-- an operation that only returns a result -/
  | returns {i r} : Effect s i (s.emit r)
  | dspWrite (a b) : Effect s (.dspWrite a b) (s.writeReg a b)
  | regWrite (a b) : Effect s (decodeReg a (.write b)) (s.writeReg a b)
  | adsr1 (b u) : Effect s (decodeAdsr1 b u) (s.useValue 0x5 b u)
  | adsr2 (b u) : Effect s (decodeAdsr2 b u) (s.useValue 0x6 b u)
  | gain (b u) : Effect s (decodeGain b u) (s.useValue 0x7 b u)
  | flgWrite (b) : Effect s (decodeFlg b .write) (s.writeReg 0x6C b)
  | flgTick (b) : Effect s (decodeFlg b .tick) ((s.writeReg 0x6C b).ticked.emit (s.writeReg 0x6C b).tickFrame)
  | tick : Effect s .dspTick (s.ticked.emit s.tickFrame)
  | render (n r) : Effect s (.apuRender n) ((s.withApu (s.apu.render s.cfg n).apu).emit r)
  | reset : Effect s .apuReset (s.withApu (s.apu.powerOn s.cfg))
  | setState (x) (hx : x.wellFormed = true) : Effect s (.apuSetState x) (s.withApu (s.apu.setState s.cfg x))
  | writeByte (a b) : Effect s (.apuWriteByte a b) (s.withMem (writeByte s.cfg s.apu.mem a b))
  | rbReset : Effect s .rbReset (s.withRing (Ring.reset s.cfg.rbCapacity))
  | rbWrite (l r) (h : s.ring.count ≠ s.cfg.rbCapacity) :
    Effect s (.rbWrite l r) (s.withRing (s.ring.push s.cfg.rbCapacity l r))
  | rbRead (n r) (h : n ≤ s.ring.count) : Effect s (.rbRead n) ((s.withRing (s.ring.drop s.cfg.rbCapacity n)).emit r)

/-- What operation `i` can be refused for in the state `s` (R311). -/
inductive Refuses (s : State) : Instr → Refusal → Prop
  | exhausted (h : (s.voice s.sel).dec.idx = 16) : Refuses s .brrNext .decoderExhausted
  | overflow (l r) (h : s.ring.count = s.cfg.rbCapacity) : Refuses s (.rbWrite l r) .ringOverflow
  | underflow (n) (h : s.ring.count < n) : Refuses s (.rbRead n) .ringUnderflow
  | snapshot (x) (h : ¬ x.wellFormed = true) : Refuses s (.apuSetState x) .badOperand

/-! ### The voice's operations keep what is true of a voice -/

section KeepsVoice
variable (s : State)

/-- A decoder whose outputs are even where the voice's are. -/
theorem State.keepsVoice_dec (d : Decoder)
    (hbuf : evenOutputs s.cfg = true → (∀ i : Fin 16, evenSample (s.voice s.sel).dec.buf[i.val] = true) →
      ∀ i : Fin 16, evenSample d.buf[i.val] = true) : s.KeepsVoice { s.voice s.sel with dec := d } where
  ok := fun ⟨heven, hraw⟩ => ⟨fun he => ⟨hbuf he (heven he).1, (heven he).2⟩, hraw⟩
  mirrors := fun _ h => h

theorem State.keepsVoice_readFields (filter : BitVec 2) (f : BlockFields) :
    s.KeepsVoice { s.voice s.sel with dec := (s.voice s.sel).dec.readFields s.cfg filter f } :=
  s.keepsVoice_dec _ fun he _ => Decoder.readFields_even _ _ _ _ he

/-- An envelope with the registers of the voice's. -/
theorem State.keepsVoice_env (e : Envelope) (hadsr1 : e.adsr1 = (s.voice s.sel).env.adsr1)
    (hadsr2 : e.adsr2 = (s.voice s.sel).env.adsr2) (hgain : e.gain = (s.voice s.sel).env.gain) :
    s.KeepsVoice { s.voice s.sel with env := e } where
  ok := fun h => h
  mirrors := fun d h => Voice.mirrors_congr d d s.sel _ _ h (fun _ _ => rfl) rfl rfl rfl
    ⟨rfl, rfl, rfl, rfl, rfl, hadsr1, hadsr2, hgain, rfl, rfl, rfl⟩

theorem State.keepsVoice_tick (c : Counter) :
    s.KeepsVoice { s.voice s.sel with env := (s.voice s.sel).env.tick s.cfg c } :=
  s.keepsVoice_env _ (Envelope.tick_adsr1 ..) (Envelope.tick_adsr2 ..) (Envelope.tick_gain ..)

theorem State.keepsVoice_render (last : Sample) (noise : BitVec 16) (c : Counter) :
    s.KeepsVoice ((s.voice s.sel).render s.cfg s.apu.mem last noise c).voice where
  ok := fun h => Voice.render_ok _ _ _ _ _ _ h.1
  mirrors := fun d h => Voice.mirrors_render _ _ _ _ _ d _ _ h

theorem State.keepsVoice_keyOn (dir : Byte) : s.KeepsVoice ((s.voice s.sel).keyOn s.cfg s.apu.mem dir) where
  ok := Voice.keyOn_ok _ _ _ _
  mirrors := fun d => Voice.mirrors_keyOn _ _ _ d _ _

end KeepsVoice

/-! ### The rows of registers and values, told by their encoding -/

theorem eq_decodeReg_of_encode {i : Instr} {a : RegAddr} {access : RegAccess} (hwf : i.wellFormed = true)
    (h : encode i = encodeAccess a access) : i = decodeReg a access := by
  have hdecode := decodeOfEncodeIsIdentity i hwf
  rw [h, decode_encodeAccess] at hdecode
  exact (Except.ok.inj hdecode).symm

/-- An operation completes with an effect, or is refused for a violated contract (R310, R311). -/
def Settled (i : Instr) (s : State) : Prop :=
  (∃ r, exec i s = .refused r ∧ Refuses s i r) ∨ ∃ t, exec i s = .next t ∧ Effect s i t

section Settled
variable (s : State)

theorem settled_brrNext : Settled .brrNext s := by
  obtain h | h := (s.voice s.sel).idx_cases
  · exact .inr ⟨_, exec_brrNext_of_lt s h, .voiceReturns (s.keepsVoice_dec _ fun _ hbuf => hbuf)⟩
  · exact .inl ⟨_, exec_brrNext_exhausted s h, .exhausted h⟩

theorem settled_rbWrite (l r : Sample) : Settled (.rbWrite l r) s := by
  by_cases h : s.ring.count = s.cfg.rbCapacity
  · exact .inl ⟨_, exec_rbWrite_full s l r h, .overflow l r h⟩
  · exact .inr ⟨_, exec_rbWrite_of_ne s l r h, .rbWrite l r h⟩

theorem settled_rbRead (n : Nat) : Settled (.rbRead n) s := by
  obtain h | h := Nat.lt_or_ge s.ring.count n
  · exact .inl ⟨_, exec_rbRead_short s n h, .underflow n h⟩
  · exact .inr ⟨_, exec_rbRead_of_le s n h, .rbRead n _ h⟩

theorem settled_apuSetState (x : Snapshot) : Settled (.apuSetState x) s := by
  by_cases h : x.wellFormed = true
  · exact .inr ⟨_, if_pos h, .setState x h⟩
  · exact .inl ⟨_, if_neg h, .snapshot x h⟩

theorem settled_reg {i : Instr} {a : RegAddr} {access : RegAccess} (h : i = decodeReg a access) : Settled i s := by
  subst h
  cases access with
  | write b => exact .inr ⟨_, exec_decodeReg a (.write b) s, .regWrite a b⟩
  | read => exact .inr ⟨_, exec_decodeReg a .read s, .returns⟩

theorem settled_adsr1 {i : Instr} {b : Byte} {u : CfgUse} (h : decodeAdsr1 b u = i) : Settled i s :=
  h ▸ .inr ⟨_, exec_decodeAdsr1 b u s, .adsr1 b u⟩

theorem settled_adsr2 {i : Instr} {b : Byte} {u : CfgUse} (h : decodeAdsr2 b u = i) : Settled i s :=
  h ▸ .inr ⟨_, exec_decodeAdsr2 b u s, .adsr2 b u⟩

theorem settled_gain {i : Instr} {b : Byte} {u : CfgUse} (h : decodeGain b u = i) : Settled i s :=
  h ▸ .inr ⟨_, exec_decodeGain b u s, .gain b u⟩

theorem settled_flg {i : Instr} {b : Byte} {u : FlgUse} (h : decodeFlg b u = i) : Settled i s := by
  subst h
  cases u with
  | write => exact .inr ⟨_, exec_decodeFlg_write b s, .flgWrite b⟩
  | tick => exact .inr ⟨_, exec_decodeFlg_tick b s, .flgTick b⟩

end Settled

/-- Every operation, row by row, completes with an effect or is refused for a violated contract. -/
theorem exec_cases (i : Instr) (s : State) : Settled i s := by
  cases i
  -- the selected voice's units
  case brrReset => exact .inr ⟨_, rfl, .voice (s.keepsVoice_dec _ fun _ hbuf => hbuf)⟩
  case brrRead | brrblkF0 | brrblkF1 | brrblkF2 | brrblkF3 => exact .inr ⟨_, rfl, .voice (s.keepsVoice_readFields _ _)⟩
  case brrNext => exact settled_brrNext s
  case envTick c => exact .inr ⟨_, rfl, .voice (s.keepsVoice_tick c)⟩
  case envKon | envKoff | voiceKoff => exact .inr ⟨_, rfl, .voice (s.keepsVoice_env _ rfl rfl rfl)⟩
  case voiceRender => exact .inr ⟨_, rfl, .voiceReturns (s.keepsVoice_render _ _ _)⟩
  case voiceKon => exact .inr ⟨_, rfl, .voice (s.keepsVoice_keyOn _)⟩
  case brrFin | dspRead | apuReadByte | rbCount => exact .inr ⟨_, rfl, .returns⟩
  -- the Dsp, the Apu and the RingBuffer
  case dspTick => exact .inr ⟨_, rfl, .tick⟩
  case dspWrite => exact .inr ⟨_, rfl, .dspWrite _ _⟩
  case apuReset => exact .inr ⟨_, rfl, .reset⟩
  case apuSetState x => exact settled_apuSetState s x
  case apuRender n => exact .inr ⟨_, rfl, .render n _⟩
  case apuWriteByte => exact .inr ⟨_, rfl, .writeByte _ _⟩
  case rbReset => exact .inr ⟨_, rfl, .rbReset⟩
  case rbWrite l r => exact settled_rbWrite s l r
  case rbRead n => exact settled_rbRead s n
  -- register values
  case adsr1Adsr dr ar u => exact settled_adsr1 s (decodeAdsr1_adsr u dr ar)
  case adsr1Gain g u => exact settled_adsr1 s (decodeAdsr1_gain u g)
  case adsr2 sl sr u => exact settled_adsr2 s (decodeAdsr2_pack u sl sr)
  case gainDirect g u => exact settled_gain s (decodeGain_direct u g)
  case gainLindec r u => exact settled_gain s (decodeGain_lindec u r)
  case gainExpdec r u => exact settled_gain s (decodeGain_expdec u r)
  case gainLininc r u => exact settled_gain s (decodeGain_lininc u r)
  case gainBentinc r u => exact settled_gain s (decodeGain_bentinc u r)
  case flgValue r m e n u => exact settled_flg s (decodeFlg_pack r m e n u)
  -- registers
  all_goals exact settled_reg s (eq_decodeReg_of_encode rfl rfl)

theorem effect_of_exec {i : Instr} {s t : State} (h : exec i s = .next t) : Effect s i t := by
  obtain ⟨r, hexec, -⟩ | ⟨u, hexec, heffect⟩ := exec_cases i s
  · exact nomatch hexec.symm.trans h
  · exact Host.Outcome.next.inj (hexec.symm.trans h) ▸ heffect

/-- A render keeps the register block, as each of its ticks does. -/
theorem Apu.render_reg (cfg : Config) (n : Nat) (a : Apu) (r : RegAddr) :
    (a.render cfg n).apu.dsp.reg r = a.dsp.reg r := by
  induction n generalizing a with
  | zero => rfl
  | succ n ih => exact (ih _).trans (Dsp.tick_reg ..)

/-! ### The statements -/

/-- Settles O10: the refusals are those of `Refuses`, and the conditions of one exclude completion. -/
theorem onlyContractViolationsAreRefused : Obligations.OnlyContractViolationsAreRefused := by
  intro i s hwf
  obtain ⟨r, hexec, hrefuses⟩ | ⟨t, hexec, -⟩ := exec_cases i s
  · cases hrefuses with
    | exhausted h => exact .inl ⟨rfl, h, hexec⟩
    | overflow l r h => exact .inr (.inl ⟨l, r, rfl, h, hexec⟩)
    | underflow n h => exact .inr (.inr (.inl ⟨n, rfl, h, hexec⟩))
    | snapshot x h => exact absurd hwf h
  · refine .inr (.inr (.inr ⟨?_, ?_, ?_, t, hexec⟩))
    · rintro ⟨rfl, h⟩
      exact nomatch hexec.symm.trans (exec_brrNext_exhausted s h)
    · rintro ⟨l, r, rfl, h⟩
      exact nomatch hexec.symm.trans (exec_rbWrite_full s l r h)
    · rintro ⟨n, rfl, h⟩
      exact nomatch hexec.symm.trans (exec_rbRead_short s n h)

/-- Settles O11: of the effects, only those of the listed operations replace memory. -/
theorem onlyTheListedOperationsStore : Obligations.OnlyTheListedOperationsStore := by
  intro i s t hexec htick hrender hset hbyte hflg
  cases effect_of_exec hexec with
  | tick => exact absurd rfl htick
  | render n r => exact absurd rfl (hrender n)
  | setState x hx => exact absurd rfl (hset x)
  | writeByte a b => exact absurd rfl (hbyte a b)
  | flgTick b => exact (hflg _ _ _ _ rfl).elim
  | adsr1 b u | adsr2 b u | gain b u => cases u <;> exact fun _ => rfl
  | voice | voiceReturns | returns | dspWrite | regWrite | flgWrite | reset | rbReset | rbWrite | rbRead =>
    exact fun _ => rfl

/-- Settles O12: of the effects, only those of the listed operations replace the register block; a tick keeps it. -/
theorem onlyRegisterWritesChangeRegisters : Obligations.OnlyRegisterWritesChangeRegisters := by
  intro i s t hexec hdsp hreg hadsr1 hadsr2 hgain hflg hreset hset
  cases effect_of_exec hexec with
  | dspWrite a b => exact absurd rfl (hdsp a b)
  | regWrite a b => exact absurd rfl (hreg a b)
  | adsr1 b u => exact absurd rfl (hadsr1 b u)
  | adsr2 b u => exact absurd rfl (hadsr2 b u)
  | gain b u => exact absurd rfl (hgain b u)
  | flgWrite b => exact absurd rfl (hflg b _)
  | flgTick b => exact absurd rfl (hflg b _)
  | reset => exact absurd rfl hreset
  | setState x hx => exact absurd rfl (hset x)
  | tick => exact fun a => Dsp.tick_reg ..
  | render n r => exact Apu.render_reg s.cfg n s.apu
  | voice | voiceReturns | returns | writeByte | rbReset | rbWrite | rbRead => exact fun _ => rfl

/-- Settles O13: of the effects, only those of the RingBuffer's operations replace the RingBuffer, and they leave the
Apu. -/
theorem ringAndApuShareNothing : Obligations.RingAndApuShareNothing := by
  intro i s t hexec
  cases effect_of_exec hexec with
  | rbReset => exact ⟨.inr rfl, rfl, rfl, rfl, fun h => absurd rfl h⟩
  | rbWrite l r h => exact ⟨.inr rfl, rfl, rfl, rfl, fun _ h _ => absurd rfl (h l r)⟩
  | rbRead n r h => exact ⟨.inr rfl, rfl, rfl, rfl, fun _ _ h => absurd rfl (h n)⟩
  | adsr1 b u | adsr2 b u | gain b u => cases u <;> exact ⟨.inl rfl, rfl, rfl, rfl, fun _ _ _ => rfl⟩
  | voice | voiceReturns | returns | dspWrite | regWrite | flgWrite | flgTick | tick | render | reset | setState |
      writeByte => exact ⟨.inl rfl, rfl, rfl, rfl, fun _ _ _ => rfl⟩

end Sys2Proof.Machine
end

section
/-! SUPPORT. The invariant of the machine: every effect of an operation keeps the canonical memory, the ranges of the
Dsp and of its voices, the mirrors (R331) and the RingBuffer's invariant (R295). -/

namespace Sys2Proof.Machine

/-! ### The clock and the echo position stay in their ranges -/

theorem counterStep_le (cfg : Config) (h : counterStays cfg = true) (c : Counter)
    (hc : c.toNat ≤ cfg.counterTop.toNat) : (counterStep cfg c).toNat ≤ cfg.counterTop.toNat := by
  have hstep := configured_all (fun c : Counter => decide (c.toNat ≤ cfg.counterTop.toNat)) cfg.counterNext h c
    (if c = 0 then cfg.counterTop else c - 1) ?_
  · exact of_decide_eq_true hstep
  · rw [decide_eq_true_iff]
    split
    · exact le_refl _
    · rename_i hne
      have : c.toNat ≠ 0 := fun e => hne (BitVec.eq_of_toNat_eq e)
      rw [BitVec.toNat_sub_of_le (by rw [BitVec.le_def]; simp; omega)]
      simp
      omega

/-- R223's shift as a number: the exclusive or of the two lowest bits at bit 14, the rest shifted right. -/
theorem noiseFormula_eq (x : BitVec 16) :
    (BitVec.ofBool (x.getLsbD 0 != x.getLsbD 1)).setWidth 16 <<< 14 ||| x >>> 1 =
      BitVec.ofNat 16 ((x.toNat % 2 + x.toNat / 2 % 2) % 2 * 16384 ||| x.toNat / 2) := by
  have h0 : x.getLsbD 0 = decide (x.toNat % 2 = 1) := by rw [BitVec.getLsbD, Nat.testBit_zero]
  have h1 : x.getLsbD 1 = decide (x.toNat / 2 % 2 = 1) := by rw [BitVec.getLsbD, Nat.testBit_succ, Nat.testBit_zero]
  have hfeedback : (BitVec.ofBool (x.getLsbD 0 != x.getLsbD 1)).setWidth 16 <<< 14 =
      BitVec.ofNat 16 ((x.toNat % 2 + x.toNat / 2 % 2) % 2 * 16384) := by
    rw [h0, h1]
    obtain h | h := Nat.mod_two_eq_zero_or_one x.toNat <;>
      obtain h' | h' := Nat.mod_two_eq_zero_or_one (x.toNat / 2) <;> rw [h, h'] <;> decide
  have hrest : x >>> 1 = BitVec.ofNat 16 (x.toNat / 2) := by
    apply BitVec.eq_of_toNat_eq
    have := x.isLt
    simp [Nat.shiftRight_eq_div_pow]
    omega
  rw [hfeedback, hrest, BitVec.ofNat_or]

theorem liveNoise_iff (x : BitVec 16) : liveNoise x = true ↔ x.toNat < 32768 ∧ x.toNat ≠ 0 := by
  have hlt := x.isLt
  have hbit : x.getLsbD 15 = decide (32768 ≤ x.toNat) := by
    rw [← BitVec.msb_eq_getLsbD_last, BitVec.msb_eq_decide]
  have hzero : x = 0 ↔ x.toNat = 0 := BitVec.toNat_eq
  rw [liveNoise, Bool.and_eq_true, Bool.not_eq_true', hbit, decide_eq_false_iff_not, not_le, bne_iff_ne, Ne, hzero]

/-- The spec's shift keeps the register within 15 bits, and at 1 the feedback bit keeps it from stopping (R223). -/
theorem liveNoise_shift (x : BitVec 16) (h : liveNoise x = true) :
    liveNoise ((BitVec.ofBool (x.getLsbD 0 != x.getLsbD 1)).setWidth 16 <<< 14 ||| x >>> 1) = true := by
  rw [liveNoise_iff] at h
  have hsum := Nat.two_pow_add_eq_or_of_lt (i := 14) (b := x.toNat / 2) (by omega) ((x.toNat % 2 + x.toNat / 2 % 2) % 2)
  rw [noiseFormula_eq, mul_comm, show 16384 = 2 ^ 14 from rfl, ← hsum, liveNoise_iff, BitVec.toNat_ofNat]
  obtain hbit | hbit := Nat.mod_two_eq_zero_or_one (x.toNat % 2 + x.toNat / 2 % 2)
  · rw [hbit]
    omega
  · rw [hbit]
    omega

theorem liveNoise_noiseStep (cfg : Config) (h : noiseLives cfg = true) (flg : Byte) (c : Counter) (x : BitVec 16)
    (hx : liveNoise x = true) : liveNoise (noiseStep cfg flg c x) = true := by
  unfold noiseStep
  split
  · exact configured_all liveNoise _ (Bool.and_eq_true_iff.1 h).2 _ _ (liveNoise_shift x hx)
  · exact hx

/-- EDL is at most 15, so the longest delay line ends at 0x7800 (R230). -/
theorem echoOffset_nextEchoPos (cfg : Config) (h : echoStays cfg = true) (pos : BitVec 16) (edl : Byte)
    (hpos : echoOffset pos = true) : echoOffset (nextEchoPos cfg pos edl) = true := by
  refine configured_all echoOffset _ h _ _ ?_
  have hedl := (lowNibble edl).isLt
  split
  · rfl
  · rename_i hlen
    simp only [echoOffset, decide_eq_true_eq, echoLength, echoUnit] at hpos hlen ⊢
    rw [BitVec.toNat_ofNat, Nat.mod_eq_of_lt (by omega)]
    omega

theorem halved_halve (cfg : Config) (h : inputsHalved cfg = true) (x : Sample) : halved (halve cfg x) = true := by
  refine configured_all halved _ h _ _ ?_
  have hx := toInt16_range x
  rw [asr_def, pow_one, halved, wrap16_toInt_of_range _ (by omega) (by omega), decide_eq_true_iff]
  omega

/-- An entry set within R24's range leaves the history within it. -/
theorem halved_set (hist : Vector Sample 8) (k : Fin 8) (x : Sample) (hx : halved x = true) (i : Fin 8)
    (hi : halved hist[i.val] = true) : halved (hist.set k.val x)[i.val] = true := by
  rw [Vector.getElem_set]
  split
  · exact hx
  · exact hi

/-! ### The Dsp's operations keep its ranges -/

theorem Voice.ok_keyOff {cfg : Config} {v : Voice} (h : v.ok cfg) : v.keyOff.ok cfg := h

theorem Voice.ok_mirrorWrite {cfg : Config} {v : Voice} (h : v.ok cfg) (n : Nat) (b : Byte) : (mirrorWrite n b v).ok cfg := by
  unfold mirrorWrite
  split <;> exact h

/-- A change of one voice keeps what is true of every voice, if it is true of the changed one. -/
theorem Dsp.mapVoice_voices_ok {cfg : Config} {d : Dsp} (h : ∀ w, (d.voice w).ok cfg) (v : VoiceIx) {f : Voice → Voice}
    (hf : (f (d.voice v)).ok cfg) (w : VoiceIx) : ((d.mapVoice v f).voice w).ok cfg := by
  rw [Dsp.mapVoice, Dsp.voice_setVoice]
  split
  · exact hf
  · exact h w

theorem fanVoice_ok {cfg : Config} {f : Voice → Voice} {x : Voice} (hx : x.ok cfg) (hf : (f x).ok cfg) (mask : Byte)
    (v : VoiceIx) : (fanVoice mask f v x).ok cfg := by
  unfold fanVoice
  split
  · exact hf
  · exact hx

/-- A register write keeps what is true of every voice (R233). -/
theorem Dsp.write_voices_ok {cfg : Config} {d : Dsp} (h : ∀ w, (d.voice w).ok cfg) (m : Memory) (a : RegAddr) (b : Byte)
    (w : VoiceIx) : ((d.write cfg m a b).voice w).ok cfg := by
  unfold Dsp.write
  by_cases hcol : (regColumn a).toNat < 8
  · rw [Dsp.writeEffect_mirror _ _ _ _ _ hcol]
    exact Dsp.mapVoice_voices_ok h _ (Voice.ok_mirrorWrite (h _) _ _) w
  · rw [Dsp.writeEffect_global _ _ _ _ _ hcol]
    split
    · rw [Dsp.keyOnFanout_voice]; exact fanVoice_ok (h w) (Voice.keyOn_ok _ _ _ _ (h w)) b w
    split
    · rw [Dsp.keyOffFanout_voice]; exact fanVoice_ok (h w) (Voice.ok_keyOff (h w)) b w
    split
    · rw [Dsp.copyMask_voice]; exact h w
    split
    · rw [Dsp.copyMask_voice]; exact h w
    split
    · rw [Dsp.copyMask_voice]; exact h w
    · exact h w

/-- A Dsp with the clock and the echo bookkeeping of one within its ranges is within them, if its voices are. -/
theorem Dsp.ok_of_globals {cfg : Config} {d e : Dsp} (h : d.ok cfg) (hcounter : e.counter = d.counter)
    (hnoise : e.noise = d.noise) (hpos : e.echoPos = d.echoPos) (hL : e.histL = d.histL) (hR : e.histR = d.histR)
    (hvoices : ∀ w, (e.voice w).ok cfg) (hmirrored : e.mirrored) : e.ok cfg := by
  obtain ⟨hc, hn, hp, hh, -, -⟩ := h
  exact ⟨hcounter ▸ hc, hnoise ▸ hn, hpos ▸ hp, hL ▸ hR ▸ hh, hvoices, hmirrored⟩

theorem Dsp.ok_write {cfg : Config} {d : Dsp} (h : d.ok cfg) (m : Memory) (a : RegAddr) (b : Byte) :
    (d.write cfg m a b).ok cfg := by
  obtain ⟨-, -, -, -, hvoices, hmirrored⟩ := id h
  have g := Dsp.write_globals cfg m a b d
  exact Dsp.ok_of_globals h g.counter g.noise g.echoPos g.histL g.histR (Dsp.write_voices_ok hvoices m a b)
    (Dsp.mirrored_write cfg m a b d hmirrored)

/-- A voice put in the place of another keeps the ranges if it keeps the voice's and its mirrors. -/
theorem Dsp.ok_setVoice {cfg : Config} {d : Dsp} (h : d.ok cfg) (v : VoiceIx) {x : Voice} (hx : x.ok cfg)
    (hmirrors : x.mirrors d v) : (d.setVoice v x).ok cfg := by
  obtain ⟨-, -, -, -, hvoices, hmirrored⟩ := id h
  refine Dsp.ok_of_globals h rfl rfl rfl rfl rfl (Dsp.mapVoice_voices_ok hvoices v (f := fun _ => x) hx) fun w => ?_
  rw [Dsp.voice_setVoice]
  refine Voice.mirrors_same ((Dsp.SameGlobals.refl d).setVoice v x) w _ ?_
  split
  · rename_i hw; exact hw ▸ hmirrors
  · exact hmirrored w

theorem Voice.ok_softReset {cfg : Config} {v : Voice} (h : v.ok cfg) (flg : Byte) : (Voice.softReset cfg flg v).ok cfg := by
  unfold Voice.softReset
  split <;> exact h

theorem Voice.mirrors_softReset {d : Dsp} {i : VoiceIx} {v : Voice} (h : v.mirrors d i) (cfg : Config) (flg : Byte) :
    (Voice.softReset cfg flg v).mirrors d i := by
  unfold Voice.softReset
  split <;> exact h

/-- A tick keeps the ranges of the Dsp (R222, R223, R227, R230) and renders every voice. -/
theorem Dsp.ok_tick {cfg : Config} {d : Dsp} (h : d.ok cfg) (m : Memory) : (d.tick cfg m).dsp.ok cfg := by
  obtain ⟨hcounter, hnoise, hpos, hhist, hvoices, hmirrored⟩ := h
  refine ⟨fun hs => ?_, fun hs => ?_, fun hs => ?_, fun hs i => ?_, fun w => ?_, fun w => ?_⟩
  · rw [Dsp.tick_counter]; exact counterStep_le cfg hs _ (hcounter hs)
  · rw [Dsp.tick_noise]; exact liveNoise_noiseStep cfg hs _ _ _ (hnoise hs)
  · rw [Dsp.tick_echoPos]; exact echoOffset_nextEchoPos cfg hs _ _ (hpos hs)
  · rw [Dsp.tick_histL, Dsp.tick_histR]
    exact ⟨halved_set _ _ _ (halved_halve cfg hs _) i (hhist hs i).1,
      halved_set _ _ _ (halved_halve cfg hs _) i (hhist hs i).2⟩
  · obtain ⟨last, hrender⟩ := renderVoices_voice cfg m (d.advanceClock cfg) w
    rw [Dsp.tick_voice, hrender]
    exact Voice.render_ok _ _ _ _ _ _ (Voice.ok_softReset (hvoices w) _).1
  · obtain ⟨last, hrender⟩ := renderVoices_voice cfg m (d.advanceClock cfg) w
    have hregs : ∀ a, (d.tick cfg m).dsp.reg a = d.reg a := Dsp.tick_reg cfg m d
    rw [Dsp.tick_voice, hrender]
    exact Voice.mirrors_congr d _ w _ _ (Voice.mirrors_render _ _ _ _ _ d w _ (Voice.mirrors_softReset (hmirrored w) _ _))
      (fun _ _ => hregs _) (hregs _) (hregs _) (hregs _) ⟨rfl, rfl, rfl, rfl, rfl, rfl, rfl, rfl, rfl, rfl, rfl⟩

/-! ### The Apu's operations keep its invariant -/

/-- What is true of the Apu in every state: memory is canonical, and the Dsp is within its ranges. -/
def Apu.ok (cfg : Config) (a : Apu) : Prop := Memory.wf a.mem = true ∧ a.dsp.ok cfg

theorem Apu.ok_tick {cfg : Config} {a : Apu} (h : a.ok cfg) :
    Apu.ok cfg ⟨(a.dsp.tick cfg a.mem).mem, (a.dsp.tick cfg a.mem).dsp⟩ := by
  refine ⟨?_, Dsp.ok_tick h.2 a.mem⟩
  show Memory.wf (a.dsp.tick cfg a.mem).mem = true
  rw [Dsp.tick_mem]
  exact Memory.wf_writeEcho _ _ _ _ _ _ h.1

theorem Apu.ok_render {cfg : Config} (n : Nat) {a : Apu} (h : a.ok cfg) : (a.render cfg n).apu.ok cfg := by
  induction n generalizing a with
  | zero => exact h
  | succ n ih => exact ih (Apu.ok_tick h)

theorem Dsp.ok_loadRegs {cfg : Config} (m : Memory) (bs : List Byte) (a : Nat) {d : Dsp} (h : d.ok cfg) :
    (Dsp.loadRegs cfg m a bs d).ok cfg := by
  induction bs generalizing a d with
  | nil => exact h
  | cons b bs ih =>
    refine ih (a + 1) ?_
    split
    · exact h
    · exact Dsp.ok_write h m _ b

/-- KOFF stored without its event is a byte that nothing mirrors (R272). -/
theorem Dsp.ok_setReg_koff {cfg : Config} {d : Dsp} (h : d.ok cfg) (b : Byte) : (d.setReg 0x5C b).ok cfg := by
  obtain ⟨-, -, -, -, hvoices, hmirrored⟩ := id h
  exact Dsp.ok_of_globals h rfl rfl rfl rfl rfl hvoices fun i =>
    Voice.mirrors_setReg d 0x5C b i _ (by decide) (by decide) (by decide) (by decide) (hmirrored i)

theorem Apu.ok_setState {cfg : Config} (x : Snapshot) (a : Apu) : (a.setState cfg x).ok cfg :=
  ⟨Memory.wf_ofBytes _ ((List.length_take_le _ _).trans (memSize_le cfg)),
    Dsp.ok_write (Dsp.ok_setReg_koff (Dsp.ok_loadRegs _ _ _ (Dsp.reset_ok cfg)) _) _ _ _⟩

/-! ### Every step -/

theorem State.inv_iff (s : State) : s.Inv ↔ s.apu.ok s.cfg ∧ s.ring.ok s.cfg.rbCapacity := and_assoc.symm

theorem State.inv_withApu {s : State} (h : s.Inv) {a : Apu} (ha : a.ok s.cfg) : (s.withApu a).Inv :=
  ⟨ha.1, ha.2, h.2.2⟩

theorem State.inv_withRing {s : State} (h : s.Inv) {r : Ring} (hr : r.ok s.cfg.rbCapacity) : (s.withRing r).Inv :=
  ⟨h.1, h.2.1, hr⟩

theorem State.inv_withSelVoice {s : State} (h : s.Inv) {x : Voice} (hx : s.KeepsVoice x) : (s.withSelVoice x).Inv := by
  obtain ⟨hmem, hdsp, hring⟩ := h
  obtain ⟨-, -, -, -, hvoices, hmirrored⟩ := id hdsp
  exact ⟨hmem, Dsp.ok_setVoice hdsp _ (hx.ok (hvoices _)) (hx.mirrors _ (hmirrored _)), hring⟩

theorem State.inv_writeReg {s : State} (h : s.Inv) (a : RegAddr) (b : Byte) : (s.writeReg a b).Inv :=
  ⟨h.1, Dsp.ok_write h.2.1 _ a b, h.2.2⟩

theorem State.inv_useValue {s : State} (h : s.Inv) (n : BitVec 4) (b : Byte) (u : CfgUse) : (s.useValue n b u).Inv := by
  cases u with
  | write => exact State.inv_writeReg h _ b
  | tick c => exact State.inv_withSelVoice (State.inv_writeReg h _ b) (State.keepsVoice_tick _ c)

theorem State.inv_ticked {s : State} (h : s.Inv) : s.ticked.Inv :=
  State.inv_withApu h (Apu.ok_tick ((State.inv_iff s).1 h).1)

/-- Every effect of an operation keeps the invariant. -/
theorem Effect.inv {i : Instr} {s t : State} (h : Effect s i t) (hs : s.Inv) : t.Inv := by
  obtain ⟨happ, hring⟩ := (State.inv_iff s).1 hs
  cases h with
  | voice hx | voiceReturns hx => exact State.inv_withSelVoice hs hx
  | returns => exact hs
  | dspWrite a b | regWrite a b => exact State.inv_writeReg hs a b
  | flgWrite b => exact State.inv_writeReg hs _ b
  | adsr1 b u | adsr2 b u | gain b u => exact State.inv_useValue hs _ b u
  | flgTick b => exact State.inv_ticked (State.inv_writeReg hs 0x6C b)
  | tick => exact State.inv_ticked hs
  | render n r => exact State.inv_withApu hs (Apu.ok_render n happ)
  | reset => exact State.inv_withApu hs ⟨happ.1, Dsp.reset_ok s.cfg⟩
  | setState x hx => exact State.inv_withApu hs (Apu.ok_setState x s.apu)
  | writeByte a b => exact ⟨Memory.wf_writeByte _ _ a b happ.1, happ.2, hring⟩
  | rbReset => exact State.inv_withRing hs (Ring.ok_reset _ (by obtain ⟨-, -, -, hwr, -⟩ := hring; omega))
  | rbWrite l r h =>
    obtain ⟨-, -, hcount, -⟩ := id hring
    exact State.inv_withRing hs (Ring.ok_push _ _ l r hring (by omega))
  | rbRead n r h => exact State.inv_withRing hs (Ring.ok_drop _ _ n hring h)

/-- Settles O4: taking a line changes no unit, and every effect of its operation keeps the invariant. -/
theorem everyStepKeepsTheInvariant : Obligations.EveryStepKeepsTheInvariant := by
  intro s t hs hstep
  cases hinbox : s.inbox with
  | nil => exact Host.Outcome.next.inj ((step_of_empty hinbox).symm.trans hstep) ▸ hs
  | cons line rest =>
    cases hline : decode line.port line.bytes with
    | error e => exact nomatch (step_of_error hinbox hline).symm.trans hstep
    | ok i => exact (effect_of_exec ((step_of_ok hinbox hline).symm.trans hstep)).inv (s := s.takeLine line rest) hs

end Sys2Proof.Machine
end

section
/-! SUPPORT. The statements about the decoding of a block (`40_brr_decoder.md`, BRR.READ): the recurrence of R132 in
the spec's arithmetic, the fields of a header by its bits, and filter 0 nibble by nibble. -/

namespace Sys2Proof.Machine

/-! ### The recurrence (R132 to R139) -/

theorem scale_eq (cfg : Config) (f : BlockFields) (i : Fin 16) :
    scale cfg f.nibbles[i.val] f.shift = scaledNibble cfg f i := by
  simp only [scale, scaledNibble, asr_def, pow_one, brrShiftMaxLinear]

theorem predictTerm_eq (p1 p2 : Int) (t : PredictTerm) :
    predictTerm p1 p2 t = t.factor * (if t.older then p2 else p1) / ((2 ^ t.shift : Nat) : Int) := by
  rw [predictTerm, asr, mul_comm]

theorem predictorSum_eq (terms : List PredictTerm) (p1 p2 : Int) :
    (terms.map (predictTerm p1 p2)).sum = predictorSum terms p1 p2 := by
  induction terms with
  | nil => rfl
  | cons t terms ih => rw [List.map_cons, List.sum_cons, ih, predictTerm_eq]; rfl

/-- The predictor of a filter (D9), by its configured terms and exceptions. -/
theorem predict_eq (cfg : Config) (filter : BitVec 2) (p1 p2 : Int) : predict cfg filter p1 p2 =
    configured cfg.predictions (filter, p1, p2) (predictorSum cfg.predictors[filter.toNat] p1 p2) := by
  rw [predict, predictorSum_eq]

/-- A block row decodes its fields by the predictor of its filter (R94, R132). -/
theorem blockDecoded_readBlockRow (s : State) (filter : BitVec 2) (f : BlockFields) :
    BlockDecoded (predict s.cfg filter) f s (s.readBlockRow filter f) := by
  have hvoice : ((s.readBlockRow filter f).voice s.sel).dec = (s.voice s.sel).dec.readFields s.cfg filter f := by
    rw [State.readBlockRow, State.voice_withSelDec, State.selVoice_eq]
  rw [BlockDecoded, hvoice]
  refine ⟨fun i => ?_, Decoder.readFields_h1 .., Decoder.readFields_h2 .., rfl, rfl, rfl,
    outsideDecoderKept_withSelDec s _, onlyVoice_withSelDec s _, rfl⟩
  rw [Decoder.readFields_getD, brrSample, scale_eq, asr_def, pow_one]
  rfl

/-- The spec's predictors (R135 to R138) are the sums of the terms of reset. -/
theorem predictorSum_default (p1 p2 : Int) :
    predictorSum defaultPredictors[0] p1 p2 = 0 ∧ predictorSum defaultPredictors[1] p1 p2 = p1 / 2 + -p1 / 32 ∧
    predictorSum defaultPredictors[2] p1 p2 = p1 - p2 + p2 / 16 + p1 * -3 / 64 ∧
    predictorSum defaultPredictors[3] p1 p2 = p1 - p2 + p1 * -13 / 128 + p2 * 3 / 16 := by
  refine ⟨rfl, ?_, ?_, ?_⟩
  · simp [predictorSum, defaultPredictors]
  · simp [predictorSum, defaultPredictors]; omega
  · simp [predictorSum, defaultPredictors]; omega

/-- Settles O15: each row by the predictor of its filter. -/
theorem blockRowsDecode : Obligations.BlockRowsDecode := by
  intro s f
  dsimp only
  have hrow (filter : BitVec 2) : BlockDecoded (fun p1 p2 => configured s.cfg.predictions (filter, p1, p2)
      (predictorSum s.cfg.predictors[filter.toNat] p1 p2)) f s (s.readBlockRow filter f) := by
    simpa only [funext fun p1 => funext (predict_eq s.cfg filter p1)] using blockDecoded_readBlockRow s filter f
  refine ⟨⟨_, rfl, hrow 0⟩, ⟨_, rfl, hrow 1⟩, ⟨_, rfl, hrow 2⟩, ⟨_, rfl, hrow 3⟩, fun hterms hexc p1 p2 => ?_⟩
  simp only [hterms, hexc, configured_nil]
  exact predictorSum_default p1 p2

/-! ### The fields of a block (R91 to R93, D5, D6) -/

theorem getLsbD_eq_decide (b : Byte) (lo : Nat) : b.getLsbD lo = decide (b.toNat / 2 ^ lo % 2 ^ 1 = 1) := by
  rw [BitVec.getLsbD, Nat.testBit_eq_decide_div_mod_eq, pow_one]

theorem extractLsb'_toNat_eq (b : Byte) (lo width : Nat) :
    (b.extractLsb' lo width).toNat = b.toNat / 2 ^ lo % 2 ^ width := by
  rw [BitVec.extractLsb'_toNat, Nat.shiftRight_eq_div_pow]

theorem highNibble_toNat (b : Byte) : (highNibble b).toNat = b.toNat / 16 := by
  have := b.isLt
  rw [highNibble, extractLsb'_toNat_eq]
  omega

theorem lowNibble_toNat (b : Byte) : (lowNibble b).toNat = b.toNat % 16 := by
  rw [lowNibble, extractLsb'_toNat_eq]
  omega

/-- Sample `i` is the earlier nibble of its data byte for even `i`, the later one for odd `i` (R93). -/
theorem fieldsOf_nibble (cfg : Config) (b : Block) (i : Fin 16) : (fieldsOf cfg b).nibbles[i.val] =
    if i.val % 2 = 0 then (nibblePair cfg (b[1 + i.val / 2]'(by omega))).1
      else (nibblePair cfg (b[1 + i.val / 2]'(by omega))).2 := by
  fin_cases i <;> rfl

theorem fieldsOf_nibble_toNat (cfg : Config) (b : Block) (i : Fin 16) : (fieldsOf cfg b).nibbles[i.val].toNat =
    if (i.val % 2 = 0 ↔ cfg.nibbleOrder = .highFirst) then (b[1 + i.val / 2]'(by omega)).toNat / 16
      else (b[1 + i.val / 2]'(by omega)).toNat % 16 := by
  rw [fieldsOf_nibble, nibblePair]
  cases cfg.nibbleOrder <;> by_cases hi : i.val % 2 = 0 <;> simp [hi, highNibble_toNat, lowNibble_toNat]

/-- BRR.READ is the block row of the filter that its header holds (R94). -/
theorem exec_brrRead_eq_row (s : State) (b : Block) {k : BitVec 2}
    (hk : b[0].toNat / 2 ^ s.cfg.header.filterAt % 2 ^ 2 = k.toNat) :
    exec (.brrRead b) s = .next (s.readBlockRow k (fieldsOf s.cfg b)) := by
  have hfilter : filterOf s.cfg b = k := BitVec.eq_of_toNat_eq ((extractLsb'_toNat_eq ..).trans hk)
  rw [exec_brrRead, Decoder.read, hfilter]
  rfl

/-- Settles O16: the fields bit by bit, and the row by the filter field. -/
theorem brrReadIsTheRowItsHeaderSelects : Obligations.BrrReadIsTheRowItsHeaderSelects := by
  intro s b
  have hread := exec_brrRead s b
  refine ⟨fieldsOf s.cfg b, _, extractLsb'_toNat_eq .., getLsbD_eq_decide .., getLsbD_eq_decide ..,
    fieldsOf_nibble_toNat s.cfg b, hread, fun hk => ?_, fun hk => ?_, fun hk => ?_, fun hk => ?_⟩
  · exact (exec_brrRead_eq_row s b (k := 0) hk).symm.trans hread
  · exact (exec_brrRead_eq_row s b (k := 1) hk).symm.trans hread
  · exact (exec_brrRead_eq_row s b (k := 2) hk).symm.trans hread
  · exact (exec_brrRead_eq_row s b (k := 3) hk).symm.trans hread

/-! ### Filter 0 nibble by nibble (R133, R134, R139) -/

theorem nibble_range (n : Nibble) : -8 ≤ n.toInt ∧ n.toInt ≤ 7 := by
  revert n; decide

/-- A predicted sample within half the 16-bit range is only doubled (R139). -/
theorem brrOut_toInt (cfg : Config) (h : cfg.output = []) (v : Int) (hlo : -16384 ≤ v) (hhi : v ≤ 16383) :
    (brrOut cfg v).toInt = v * 2 := by
  rw [brrOut, h, configured_nil, clamp16_of_range v (by omega) (by omega)]
  exact wrap16_toInt_of_range _ (by omega) (by omega)

section Scale
variable (cfg : Config) (h : cfg.scaling = []) (n : Nibble) (shift : BitVec 4)
include h

theorem scale_of_le (hs : shift.toNat ≤ 12) : scale cfg n shift = n.toInt * ((2 ^ shift.toNat : Nat) : Int) / 2 := by
  rw [scale, h, configured_nil, if_pos (show _ ≤ brrShiftMaxLinear from hs), asr_def, pow_one]

theorem scale_of_ge (hs : 13 ≤ shift.toNat) : scale cfg n shift = if n.toInt < 0 then -2048 else 0 := by
  rw [scale, h, configured_nil, if_neg (by rw [brrShiftMaxLinear]; omega)]

/-- Without a prediction a nibble comes out as its scaled value doubled, by the three ranges of the shift. -/
theorem brrOut_scale_toInt (ho : cfg.output = []) :
    (shift.toNat = 0 → (brrOut cfg (scale cfg n shift)).toInt = n.toInt / 2 * 2) ∧
    (1 ≤ shift.toNat → shift.toNat ≤ 12 →
      (brrOut cfg (scale cfg n shift)).toInt = n.toInt * ((2 ^ shift.toNat : Nat) : Int)) ∧
    (13 ≤ shift.toNat → (brrOut cfg (scale cfg n shift)).toInt = if n.toInt < 0 then -4096 else 0) := by
  have hn := nibble_range n
  refine ⟨fun hs => ?_, fun hlo hhi => ?_, fun hs => ?_⟩
  · rw [scale_of_le cfg h n shift (by omega), hs, brrOut_toInt cfg ho _ (by omega) (by omega)]
    omega
  · obtain ⟨k, hk⟩ : ∃ k, shift.toNat = k + 1 := ⟨shift.toNat - 1, by omega⟩
    have hpow : 1 ≤ 2 ^ k ∧ 2 ^ k ≤ 2 ^ 11 := ⟨Nat.one_le_two_pow, Nat.pow_le_pow_right (by decide) (by omega)⟩
    have hhalf : scale cfg n shift = n.toInt * (2 ^ k : Nat) := by
      rw [scale_of_le cfg h n shift hhi, hk, pow_succ, Nat.cast_mul, ← mul_assoc]
      exact Int.mul_ediv_cancel _ (by decide)
    rw [hhalf, hk, pow_succ, Nat.cast_mul, ← mul_assoc]
    generalize 2 ^ k = p at hpow
    exact brrOut_toInt cfg ho _ (by nlinarith) (by nlinarith)
  · rw [scale_of_ge cfg h n shift hs, brrOut_toInt cfg ho _ (by split <;> omega) (by split <;> omega)]
    split <;> rfl

end Scale

theorem Decoder.readFields_getElem_of_predict_zero (d : Decoder) (cfg : Config) (filter : BitVec 2) (f : BlockFields)
    (hp : ∀ p1 p2, predict cfg filter p1 p2 = 0) (i : Fin 16) :
    (d.readFields cfg filter f).buf[i.val] = brrOut cfg (scale cfg f.nibbles[i.val] f.shift) := by
  have hlist := (Decoder.readFields_toList d cfg filter f).trans
    (brrDecode_of_predict_zero cfg filter f.shift hp f.nibbles.toList d.h1 d.h2)
  simpa using congrArg (fun l => l[i.val]?) hlist

/-- Settles O19: with filter 0 an output is made from its own nibble alone. -/
theorem filterZeroOutputsByShift : Obligations.FilterZeroOutputsByShift := by
  intro s f hscaling hterms hexc houtput
  refine ⟨_, rfl, fun i => ?_⟩
  have hbuf : ((s.readBlockRow 0 f).voice s.sel).dec.buf[i.val] = brrOut s.cfg (scale s.cfg f.nibbles[i.val] f.shift) := by
    rw [State.readBlockRow, State.voice_withSelDec]
    exact Decoder.readFields_getElem_of_predict_zero _ _ _ _ (predict_filter_zero _ hterms hexc) i
  dsimp only
  rw [hbuf]
  exact brrOut_scale_toInt s.cfg hscaling _ _ houtput

end Sys2Proof.Machine
end

section
/-! SUPPORT. The statements about a tick of the envelope (`41_envelope.md`, The tick): the candidate of each phase, its
clamp and its commit, by the spec's formulas. -/

namespace Sys2Proof.Machine

/-! ### A tick outside Release: clamp and commit (R171, R172) -/

section Clamp
variable (cfg : Config) (h : cfg.levelClamp = []) (x : Candidate)
include h

theorem clampCandidate_env : (clampCandidate cfg x).env = clamp x.env 0 2047 := by
  have hmax : levelMax = 2047 := rfl
  rw [clampCandidate_eq cfg h, clamp]
  by_cases hout : levelMax < x.env ∨ x.env < 0
  · rw [if_pos hout]
    dsimp only
    split
    · rfl
    · rw [if_pos (by omega), hmax]
  · rw [if_neg hout, if_neg (by omega), if_neg (by omega)]

theorem clampCandidate_mode : (clampCandidate cfg x).mode =
    if (2047 < x.env ∨ x.env < 0) ∧ x.mode = .attack then .decay else x.mode := by
  rw [clampCandidate_eq cfg h, apply_ite Candidate.mode, ite_and]
  rfl

end Clamp

theorem clampCandidate_rate (cfg : Config) (x : Candidate) : (clampCandidate cfg x).rate = x.rate := rfl

theorem clamp_level_range (v : Int) : 0 ≤ clamp v 0 2047 ∧ clamp v 0 2047 ≤ 2047 := by
  unfold clamp
  split
  · omega
  · split <;> omega

/-- The level after a tick outside Release: the clamped candidate if the rate fires, else the level before (R172). -/
theorem Envelope.tick_level (cfg : Config) (h : specTick cfg) (c : Counter) (e : Envelope) (hm : e.mode ≠ .release) :
    ((e.tick cfg c).level.toNat : Int) =
      if fires cfg (candidate cfg e).rate c.toNat then clamp (candidate cfg e).env 0 2047 else e.level.toNat := by
  obtain ⟨-, -, -, -, -, hclamp, hcommit⟩ := h
  have hrange := clamp_level_range (candidate cfg e).env
  rw [Envelope.tick_eq _ _ _ hcommit hm]
  simp only [clampCandidate_rate, clampCandidate_env _ hclamp]
  split
  · exact level_ofInt _ hrange.1 hrange.2
  · rfl

/-- The mode after a tick outside Release: the candidate's, but that an Attack out of range goes to Decay (R171). -/
theorem Envelope.tick_mode (cfg : Config) (h : specTick cfg) (c : Counter) (e : Envelope) (hm : e.mode ≠ .release) :
    (e.tick cfg c).mode = if (2047 < (candidate cfg e).env ∨ (candidate cfg e).env < 0) ∧ (candidate cfg e).mode = .attack
      then .decay else (candidate cfg e).mode := by
  obtain ⟨-, -, -, -, -, hclamp, hcommit⟩ := h
  rw [Envelope.tick_eq _ _ _ hcommit hm]
  exact clampCandidate_mode cfg hclamp _

/-- ENV.TICK outside Release, from the candidate of the selected envelope. -/
theorem envTicked_of_candidate (s : State) (c : Counter) (h : specTick s.cfg) (hm : (s.voice s.sel).env.mode ≠ .release)
    {x : Candidate} (hx : candidate s.cfg (s.voice s.sel).env = x) :
    EnvTicked (if (2047 < x.env ∨ x.env < 0) ∧ x.mode = .attack then .decay else x.mode)
      (if fires s.cfg x.rate c.toNat then clamp x.env 0 2047 else (s.voice s.sel).env.level.toNat) s
      (s.withSelEnv ((s.voice s.sel).env.tick s.cfg c)) := by
  subst hx
  rw [← Envelope.tick_level _ h c _ hm, ← Envelope.tick_mode _ h c _ hm]
  exact envTicked_tick s c

/-! ### The candidate of each phase (R165 to R170) -/

/-- The exponential decrease never leaves the range and never rises; from 0 it stays (R167). -/
theorem expDecrease_range (l : Int) (h : 0 ≤ l) : 0 ≤ expDecrease l ∧ expDecrease l ≤ l := by
  rw [expDecrease, asr_def]
  omega

section Candidate
variable (cfg : Config) (h : specTick cfg) (e : Envelope)
include h

theorem candidate_adsr (hbit : e.adsr1.toNat / 128 = 1) : candidate cfg e = adsrCandidate cfg e := by
  obtain ⟨⟨hgoverns, -⟩, -⟩ := h
  have hset : adsrGoverns cfg e.adsr1 = true := by
    rw [adsrGoverns, hgoverns, configured_nil, getLsbD_eq_decide, decide_eq_true_iff]
    omega
  rw [candidate, if_pos hset]

theorem candidate_gain (hbit : e.adsr1.toNat / 128 = 0) : candidate cfg e = gainCandidate cfg e := by
  obtain ⟨⟨hgoverns, -⟩, -⟩ := h
  have hclear : ¬ adsrGoverns cfg e.adsr1 = true := by
    rw [adsrGoverns, hgoverns, configured_nil, getLsbD_eq_decide, decide_eq_true_iff]
    omega
  rw [candidate, if_neg hclear]

/-- Attack (R166). -/
theorem candidate_attack (hm : e.mode = .attack) (hbit : e.adsr1.toNat / 128 = 1) : candidate cfg e =
    { mode := .attack
      env := (e.level.toNat : Int) + (if e.adsr1.toNat % 16 * 2 + 1 < 31 then 32 else 1024)
      rate := e.adsr1.toNat % 16 * 2 + 1 } := by
  rw [candidate_adsr cfg h e hbit]
  obtain ⟨-, hattack, -⟩ := h
  have hrate : attackRate (e.adsr1.extractLsb' 0 4) = e.adsr1.toNat % 16 * 2 + 1 := by
    rw [attackRate, extractLsb'_toNat_eq, pow_zero, Nat.div_one]
    rfl
  simp only [adsrCandidate, hm, attackOf, hattack, configured_nil, hrate, reduceCtorEq, if_false]
  rfl

/-- Decay (R167), with the threshold of R170 tested on the candidate. -/
theorem candidate_decay (hm : e.mode = .decay) (hbit : e.adsr1.toNat / 128 = 1) : candidate cfg e =
    { mode := if (match cfg.sustainCompare with
          | .le => decide (expDecrease e.level.toNat / 256 ≤ ((e.adsr2.toNat / 32 : Nat) : Int))
          | .eq => decide (expDecrease e.level.toNat / 256 = ((e.adsr2.toNat / 32 : Nat) : Int))) = true
        then .sustain else .decay
      env := expDecrease e.level.toNat
      rate := e.adsr1.toNat / 16 % 8 * 2 + 16 } := by
  rw [candidate_adsr cfg h e hbit]
  obtain ⟨⟨-, hthreshold⟩, -, hdecay, -⟩ := h
  have hsl : sustainLevel e.adsr2 = e.adsr2.toNat / 32 := by
    have := e.adsr2.isLt
    rw [sustainLevel, extractLsb'_toNat_eq]
    omega
  have hrate : decayRate (e.adsr1.extractLsb' 4 3) = e.adsr1.toNat / 16 % 8 * 2 + 16 := by
    rw [decayRate, extractLsb'_toNat_eq]
    rfl
  simp only [adsrCandidate, hm, decayOf, hdecay, reachesSustain, hthreshold, configured_nil, hrate, hsl, asr_def,
    reduceCtorEq, if_false]
  rfl

/-- Sustain (R168). -/
theorem candidate_sustain (hm : e.mode = .sustain) (hbit : e.adsr1.toNat / 128 = 1) : candidate cfg e =
    { mode := .sustain, env := expDecrease e.level.toNat, rate := e.adsr2.toNat % 32 } := by
  rw [candidate_adsr cfg h e hbit]
  obtain ⟨-, -, -, hsustain, -⟩ := h
  have hrate : sustainRate e.adsr2 = e.adsr2.toNat % 32 := by
    rw [sustainRate, extractLsb'_toNat_eq, pow_zero, Nat.div_one]
    rfl
  simp only [adsrCandidate, hm, sustainOf, hsustain, configured_nil, hrate, reduceCtorEq, if_false]

/-- DirectGain left for the configured exit phase is that phase (R165). -/
theorem candidate_exit (hm : e.mode = .directGain) (hbit : e.adsr1.toNat / 128 = 1) :
    candidate cfg { e with mode := AdsrPhase.mode cfg.gainExitMode } = candidate cfg e := by
  rw [candidate_adsr cfg h e hbit, candidate_adsr cfg h { e with mode := AdsrPhase.mode cfg.gainExitMode } hbit]
  simp only [adsrCandidate, hm]
  cases cfg.gainExitMode <;> rfl

end Candidate

/-! ### The statements -/

/-- The exponential decrease of a level needs no clamp. -/
theorem expDecrease_in_range (l : Level) : clamp (expDecrease l.toNat) 0 2047 = expDecrease l.toNat ∧
    ¬ (2047 < expDecrease l.toNat ∨ expDecrease l.toNat < 0) := by
  have hlevel := level_range l
  have hrange := expDecrease_range l.toNat hlevel.1
  refine ⟨?_, by omega⟩
  rw [clamp, if_neg (by omega), if_neg (by omega)]

/-- A tick whose candidate is an exponential decrease: no clamp, the candidate's mode. -/
theorem envTicked_of_expDecrease (s : State) (c : Counter) (h : specTick s.cfg)
    (hm : (s.voice s.sel).env.mode ≠ .release) {mode : EnvMode} {rate : Nat}
    (hx : candidate s.cfg (s.voice s.sel).env = ⟨mode, expDecrease (s.voice s.sel).env.level.toNat, rate⟩) :
    EnvTicked mode (if fires s.cfg rate c.toNat then expDecrease (s.voice s.sel).env.level.toNat
      else (s.voice s.sel).env.level.toNat) s (s.withSelEnv ((s.voice s.sel).env.tick s.cfg c)) := by
  obtain ⟨hclamp, hin⟩ := expDecrease_in_range (s.voice s.sel).env.level
  have hticked := envTicked_of_candidate s c h hm hx
  rwa [hclamp, if_neg (fun hc => hin hc.1)] at hticked

/-- Settles O23: the candidate of each phase, clamped and committed. -/
theorem adsrTicks : Obligations.AdsrTicks := by
  refine ⟨fun s c h hm hbit => ?_, fun s c h hm hbit => ?_, fun s c h hm hbit => ?_⟩
  · refine ⟨_, exec_envTick s c, ?_⟩
    have hlevel := level_range (s.voice s.sel).env.level
    have hticked := envTicked_of_candidate s c h (by rw [hm]; decide) (candidate_attack s.cfg h _ hm hbit)
    have hpos : 0 ≤ ((s.voice s.sel).env.level.toNat : Int) +
        (if (s.voice s.sel).env.adsr1.toNat % 16 * 2 + 1 < 31 then 32 else 1024) := by split <;> omega
    simpa only [clamp, not_lt.2 hpos, if_false, or_false, and_true] using hticked
  · refine ⟨_, exec_envTick s c, ?_⟩
    have hticked := envTicked_of_expDecrease s c h (by rw [hm]; decide) (candidate_decay s.cfg h _ hm hbit)
    rwa [expDecrease, asr_def] at hticked
  · refine ⟨_, exec_envTick s c, ?_⟩
    have hticked := envTicked_of_expDecrease s c h (by rw [hm]; decide) (candidate_sustain s.cfg h _ hm hbit)
    rwa [expDecrease, asr_def] at hticked

/-- The shape a GAIN byte selects (R169). -/
theorem gainShape_eq (g : Byte) (level : Int) : gainShape g level =
    (if g.toNat < 128 then (g.toNat : Int) * 16
      else if g.toNat / 32 % 4 = 0 then level - 32
      else if g.toNat / 32 % 4 = 1 then level - 1 - (level - 1) / 256
      else if g.toNat / 32 % 4 = 2 then level + 32
      else level + (if level < 0x600 then 32 else 8),
      if g.toNat < 128 then 31 else g.toNat % 32) := by
  have hbit : (g.toNat / 2 ^ 7 % 2 ^ 1 = 1) ↔ ¬ g.toNat < 128 := by
    have := g.isLt
    omega
  rw [gainShape, getLsbD_eq_decide]
  by_cases hg : g.toNat < 128
  · have hdirect : g.toNat / 2 ^ 0 % 2 ^ 7 = g.toNat := by omega
    simp only [hbit, hg, not_true, decide_false, Bool.false_eq_true, if_false, if_true, extractLsb'_toNat_eq, hdirect]
  · simp only [hbit, hg, not_false_eq_true, decide_true, if_true, if_false, extractLsb'_toNat_eq, pow_zero, Nat.div_one]
    have hshape : g.toNat / 32 % 4 < 4 := Nat.mod_lt _ (by decide)
    have hfields : g.toNat / 2 ^ 5 % 2 ^ 2 = g.toNat / 32 % 4 ∧ g.toNat % 2 ^ 5 = g.toNat % 32 := ⟨rfl, rfl⟩
    rw [hfields.1, hfields.2]
    generalize g.toNat / 32 % 4 = shape at hshape
    interval_cases shape
    · rfl
    · simp [expDecrease, asr_def]
    · rfl
    · rfl

/-- The tick of a configured exit phase is the tick that leaves DirectGain for it (R165). -/
theorem Envelope.tick_exit (cfg : Config) (h : specTick cfg) (c : Counter) (e : Envelope) (hm : e.mode = .directGain)
    (hbit : e.adsr1.toNat / 128 = 1) :
    Envelope.tick cfg c { e with mode := AdsrPhase.mode cfg.gainExitMode } = e.tick cfg c := by
  have hexit := candidate_exit cfg h e hm hbit
  obtain ⟨-, -, -, -, -, -, hcommit⟩ := h
  have hmode : AdsrPhase.mode cfg.gainExitMode ≠ .release := by cases cfg.gainExitMode <;> decide
  rw [Envelope.tick_eq _ _ _ hcommit hmode, Envelope.tick_eq _ _ e hcommit (by rw [hm]; decide), hexit]

/-- Settles O24: the GAIN byte's shape, clamped and committed; the exit phase has the candidate of its own tick. -/
theorem directGainIsEnteredAndLeft : Obligations.DirectGainIsEnteredAndLeft := by
  constructor
  · intro s c h hm hbit
    refine ⟨_, exec_envTick s c, ?_⟩
    have hticked := envTicked_of_candidate s c h hm (candidate_gain s.cfg h _ hbit)
    obtain ⟨-, -, -, -, hgain, -⟩ := h
    simp only [gainCandidate, gainStep, hgain, configured_nil, gainShape_eq, reduceCtorEq, and_false, if_false] at hticked
    exact hticked
  · intro s c h hm hbit
    refine ⟨_, exec_envTick s c, ?_⟩
    rw [exec_envTick, State.withSelEnv_withSelEnv, State.withSelEnv_sel, State.voice_withSelEnv, State.withSelEnv_cfg]
    exact congrArg (fun e => Host.Outcome.next (s.withSelEnv e)) (Envelope.tick_exit s.cfg h c _ hm hbit)

/-- A tick whose candidate is an exponential decrease does not raise the level. -/
theorem Envelope.tick_level_le_of_expDecrease (cfg : Config) (h : specTick cfg) (c : Counter) (e : Envelope)
    (hm : e.mode ≠ .release) (henv : (candidate cfg e).env = expDecrease e.level.toNat) :
    (e.tick cfg c).level.toNat ≤ e.level.toNat := by
  have hrange := expDecrease_range e.level.toNat (level_range e.level).1
  have htick := Envelope.tick_level cfg h c e hm
  rw [henv, (expDecrease_in_range e.level).1] at htick
  split at htick <;> omega

/-- A tick whose candidate is not below the level does not lower it. -/
theorem Envelope.le_tick_level (cfg : Config) (h : specTick cfg) (c : Counter) (e : Envelope)
    (hm : e.mode ≠ .release) (henv : (e.level.toNat : Int) ≤ (candidate cfg e).env) :
    e.level.toNat ≤ (e.tick cfg c).level.toNat := by
  have hlevel := level_range e.level
  have htick := Envelope.tick_level cfg h c e hm
  have hclamp : (e.level.toNat : Int) ≤ clamp (candidate cfg e).env 0 2047 := by
    unfold clamp
    split
    · omega
    · split <;> omega
  split at htick <;> omega

/-- Settles O25: an Attack raises the candidate, an exponential decrease and Release never do. -/
theorem levelMovesOneWayInEachPhase : Obligations.LevelMovesOneWayInEachPhase := by
  intro s t c h hrelease hexec hbit
  obtain rfl := Host.Outcome.next.inj ((exec_envTick s c).symm.trans hexec)
  rw [State.voice_withSelEnv]
  refine ⟨fun hm => ?_, ?_⟩
  · refine Envelope.le_tick_level s.cfg h c _ (by rw [hm]; decide) ?_
    rw [candidate_attack s.cfg h _ hm hbit]
    dsimp only
    split <;> omega
  · rintro (hm | hm | hm)
    · exact Envelope.tick_level_le_of_expDecrease s.cfg h c _ (by rw [hm]; decide)
        (by rw [candidate_decay s.cfg h _ hm hbit])
    · exact Envelope.tick_level_le_of_expDecrease s.cfg h c _ (by rw [hm]; decide)
        (by rw [candidate_sustain s.cfg h _ hm hbit])
    · exact (Envelope.tick_release_level s.cfg c _ hrelease hm).trans_le (Nat.sub_le ..)

end Sys2Proof.Machine
end

section
/-! SUPPORT. The statements about VOICE.RENDER (`42_voice.md` section 2): the voice it leaves, read off the sequencer's
`advance` with and without a fetch, and what it returns, by the spec's formulas. -/

namespace Sys2Proof.Machine

/-! ### The voice a render leaves -/

section Render
variable (cfg : Config) (m : Memory) (last : Sample) (noise : BitVec 16) (c : Counter) (v : Voice)

/-- The effective pitch is the spec's, by the configured formulas (R192). -/
theorem Voice.effectivePitch_eq : v.effectivePitch cfg last.toInt = renderPitch cfg v last := by
  have hhigh : (v.pitchh.extractLsb' 0 6).toNat = v.pitchh.toNat % 64 := by
    rw [extractLsb'_toNat_eq, pow_zero, Nat.div_one]
    rfl
  simp only [Voice.effectivePitch, renderPitch, pitchOf, modulatedPitch, hhigh, asr_def]
  rfl

theorem renderPitch_range : 0 ≤ renderPitch cfg v last ∧ renderPitch cfg v last ≤ 0x3FFF := by
  unfold renderPitch
  dsimp only
  generalize (if v.pmon = true then _ else _ : Int) = q
  split
  · omega
  · split <;> omega

/-- At most four whole steps: the position is below one, the pitch below four (R196). -/
theorem wholeSteps_le : wholeSteps cfg v last ≤ 4 := by
  have hpos := v.pos.isLt
  have hpitch := renderPitch_range cfg last v
  rw [wholeSteps]
  omega

/-- The voice that a render's sequencer starts from: the envelope ticked and perhaps silenced (R194, R195). -/
def Voice.rendering : Voice := ({ v with env := v.env.tick cfg c } : Voice).autoSilence

theorem Voice.rendering_eq : v.rendering cfg c = { v with
    env := if v.dec.endsWithoutLoop then (v.env.tick cfg c).silence else v.env.tick cfg c } :=
  Voice.autoSilence_eq _

@[simp] theorem Voice.rendering_dec : (v.rendering cfg c).dec = v.dec := by rw [Voice.rendering_eq]
@[simp] theorem Voice.rendering_sampleAddress : (v.rendering cfg c).sampleAddress = v.sampleAddress := by
  rw [Voice.rendering_eq]
@[simp] theorem Voice.rendering_nextBlock : (v.rendering cfg c).nextBlock = v.nextBlock := by
  rw [Voice.rendering_eq]; rfl
@[simp] theorem Voice.samplesAhead_rendering : samplesAhead (v.rendering cfg c) = samplesAhead v := by
  rw [Voice.rendering_eq]; rfl

/-- The sequencer of a render: one `advance` for each whole step (R196). -/
def Voice.advanced : Voice := Voice.advanceTimes cfg m (wholeSteps cfg v last) (v.rendering cfg c)

/-- A render leaves the advanced voice, its position and its raw output set (R191). -/
theorem Voice.render_voice_eq : (v.render cfg m last noise c).voice = { v.advanced cfg m last c with
    pos := BitVec.ofNat 12 ((v.pos.toNat + (renderPitch cfg v last).toNat) % 4096)
    rawOut := envScale cfg (v.sourceSample cfg noise) (v.env.tick cfg c).level } := by
  rw [Voice.render_voice, Voice.effectivePitch_eq]
  rfl

theorem Voice.render_left : (v.render cfg m last noise c).left =
    wrap16 (volScale cfg (v.render cfg m last noise c).raw.toInt v.voll) :=
  congrArg (fun x => wrap16 (volScale cfg _ x)) (Voice.render_frame cfg m last noise c v).voll

theorem Voice.render_right : (v.render cfg m last noise c).right =
    wrap16 (volScale cfg (v.render cfg m last noise c).raw.toInt v.volr) :=
  congrArg (fun x => wrap16 (volScale cfg _ x)) (Voice.render_frame cfg m last noise c v).volr

/-- The envelope after a render: the ticked one, silenced under a block that ends without loop (R195). -/
theorem Voice.render_env : (v.render cfg m last noise c).voice.env =
    if v.dec.endsWithoutLoop then (v.env.tick cfg c).silence else v.env.tick cfg c := by
  rw [Voice.render_voice_eq]
  exact (Voice.advanceTimes_frame cfg m _ _).env.trans (by rw [Voice.rendering_eq])

end Render

/-! ### The sequencer, without and with a fetch (R197, R198) -/

/-- While enough outputs are buffered, of the decoder only the cursor moves. -/
theorem Voice.advanceTimes_dec (cfg : Config) (m : Memory) (n : Nat) (v : Voice) (h : v.dec.idx.val + n ≤ 16) :
    (Voice.advanceTimes cfg m n v).dec = { v.dec with idx := (Voice.advanceTimes cfg m n v).dec.idx } := by
  obtain ⟨-, hbuf, hh1, hh2, hend, hloop, -⟩ := Voice.advanceTimes_pops cfg m n v h
  dsimp only
  rw [← hbuf, ← hh1, ← hh2, ← hend, ← hloop]

/-- The first two samples ahead after `n` of them have been taken. -/
theorem samples_of_samplesAhead {w : Voice} {l : List Sample} {n : Nat} (h : samplesAhead w = l.drop n) :
    w.cur = l.getD n 0 ∧ w.nxt = l.getD (n + 1) 0 := by
  have hcur : (samplesAhead w).getD 0 0 = w.cur := rfl
  have hnxt : (samplesAhead w).getD 1 0 = w.nxt := rfl
  rw [← hcur, ← hnxt, h]
  simp

/-- The block that `advance` fetches next, decoded on the history the voice has. -/
def Voice.nextDecoder (cfg : Config) (m : Memory) (v : Voice) : Decoder :=
  v.dec.read cfg (memReadBlock cfg m v.nextBlock)

@[simp] theorem Voice.nextDecoder_rendering (cfg : Config) (m : Memory) (c : Counter) (v : Voice) :
    (v.rendering cfg c).nextDecoder cfg m = v.nextDecoder cfg m := by
  rw [Voice.nextDecoder, Voice.rendering_dec, Voice.rendering_nextBlock, Voice.nextDecoder]

/-- The advance that fetches: it takes the first output of the new block. -/
theorem Voice.advance_fetches (cfg : Config) (m : Memory) (v : Voice) (h : v.dec.idx = 16) :
    (Voice.advance cfg m v).sampleAddress = v.nextBlock + 9 ∧
      (Voice.advance cfg m v).dec = { v.nextDecoder cfg m with idx := 1 } ∧
      samplesAhead (Voice.advance cfg m v) = v.nxt :: (v.nextDecoder cfg m).buf.toList := by
  rw [Voice.advance_of_finished cfg m v h]
  refine ⟨rfl, rfl, congrArg (v.nxt :: ·) ?_⟩
  conv_rhs => rw [← List.drop_zero (l := (v.nextDecoder cfg m).buf.toList), List.drop_eq_getElem_cons (by simp)]
  rw [Vector.getElem_toList]
  rfl

/-- What `n` advances give when one of them fetches: the next block's decoder, the address past it, and the samples of
the old block followed by those of the new one. -/
theorem Voice.advanceTimes_fetches (cfg : Config) (m : Memory) (n : Nat) (v : Voice) (h : 16 < v.dec.idx.val + n)
    (hn : n ≤ 16) :
    (Voice.advanceTimes cfg m n v).sampleAddress = v.nextBlock + 9 ∧
      (Voice.advanceTimes cfg m n v).dec.idx.val = v.dec.idx.val + n - 16 ∧
      (Voice.advanceTimes cfg m n v).dec =
        { v.nextDecoder cfg m with idx := (Voice.advanceTimes cfg m n v).dec.idx } ∧
      samplesAhead (Voice.advanceTimes cfg m n v) = (samplesAhead v ++ (v.nextDecoder cfg m).buf.toList).drop n := by
  induction n generalizing v with
  | zero => exact absurd v.dec.idx.isLt (by omega)
  | succ n ih =>
    obtain hi | hi := v.idx_cases
    · rw [Voice.advanceTimes, Voice.advance_of_lt cfg m v hi]
      obtain ⟨haddr, hidx, hdec, hahead⟩ := ih
        { v with cur := v.nxt, nxt := v.dec.buf[v.dec.idx.val], dec := v.dec.popped hi }
        (by simp only [Decoder.popped]; omega) (by omega)
      refine ⟨haddr, by rw [hidx]; simp only [Decoder.popped]; omega, hdec, ?_⟩
      rw [hahead]
      have hbuf : v.dec.buf.toList.drop v.dec.idx.val =
          v.dec.buf[v.dec.idx.val] :: v.dec.buf.toList.drop (v.dec.idx.val + 1) := by
        rw [List.drop_eq_getElem_cons (i := v.dec.idx.val) (by simp [hi])]
        simp
      simp only [samplesAhead, Decoder.popped, hbuf, List.cons_append, List.drop_succ_cons]
      rfl
    · obtain ⟨haddr, hdec, hahead⟩ := Voice.advance_fetches cfg m v hi
      have hidx : v.dec.idx.val = 16 := by rw [hi]; rfl
      have hexhausted : samplesAhead v = [v.cur, v.nxt] := by
        rw [samplesAhead, hidx, List.drop_eq_nil_of_le (by simp)]
      have hroom : (Voice.advance cfg m v).dec.idx.val + n ≤ 16 := by rw [hdec]; show 1 + n ≤ 16; omega
      obtain ⟨hidx', -, -, -, -, -, haddr', hahead'⟩ := Voice.advanceTimes_pops cfg m n _ hroom
      have hdec' := Voice.advanceTimes_dec cfg m n _ hroom
      rw [Voice.advanceTimes]
      refine ⟨haddr'.trans haddr, ?_, ?_, ?_⟩
      · rw [hidx', hdec, hidx]
        show 1 + n = _
        omega
      · rw [hdec', hdec]
      · rw [hahead', hahead, hexhausted]
        rfl

/-! ### The sequencer of a render -/

section Advanced
variable (cfg : Config) (m : Memory) (last : Sample) (c : Counter) (v : Voice)

/-- The advanced voice when its block lasts. -/
theorem Voice.advanced_pops (h : v.dec.idx.val + wholeSteps cfg v last ≤ 16) :
    (v.advanced cfg m last c).sampleAddress = v.sampleAddress ∧
      (v.advanced cfg m last c).dec.idx.val = v.dec.idx.val + wholeSteps cfg v last ∧
      (v.advanced cfg m last c).dec = { v.dec with idx := (v.advanced cfg m last c).dec.idx } ∧
      samplesAhead (v.advanced cfg m last c) = (samplesAhead v).drop (wholeSteps cfg v last) := by
  have hroom : (v.rendering cfg c).dec.idx.val + wholeSteps cfg v last ≤ 16 := by rwa [Voice.rendering_dec]
  obtain ⟨hidx, -, -, -, -, -, haddr, hahead⟩ := Voice.advanceTimes_pops cfg m _ _ hroom
  have hdec := Voice.advanceTimes_dec cfg m _ _ hroom
  rw [Voice.rendering_dec] at hidx hdec
  rw [Voice.rendering_sampleAddress] at haddr
  rw [Voice.samplesAhead_rendering] at hahead
  exact ⟨haddr, hidx, hdec, hahead⟩

/-- The advanced voice when its block does not last. -/
theorem Voice.advanced_fetches (h : 16 < v.dec.idx.val + wholeSteps cfg v last) :
    (v.advanced cfg m last c).sampleAddress = v.nextBlock + 9 ∧
      (v.advanced cfg m last c).dec.idx.val = v.dec.idx.val + wholeSteps cfg v last - 16 ∧
      (v.advanced cfg m last c).dec = { v.nextDecoder cfg m with idx := (v.advanced cfg m last c).dec.idx } ∧
      samplesAhead (v.advanced cfg m last c) =
        (samplesAhead v ++ (v.nextDecoder cfg m).buf.toList).drop (wholeSteps cfg v last) := by
  have hfetch := Voice.advanceTimes_fetches cfg m (wholeSteps cfg v last) (v.rendering cfg c)
    (by rwa [Voice.rendering_dec]) ((wholeSteps_le cfg last v).trans (by decide))
  simp only [Voice.rendering_dec, Voice.rendering_nextBlock, Voice.nextDecoder_rendering,
    Voice.samplesAhead_rendering] at hfetch
  exact hfetch

end Advanced

/-! ### The statements -/

/-- The selected voice after a render. -/
theorem voice_render (s : State) (x : Voice) (r : Result) : ((s.withSelVoice x).emit r).voice s.sel = x :=
  s.voice_withSelVoice x

/-- Settles O33: a render replaces the selected voice by one with the same mirrors and addresses. -/
theorem voiceRenderFrame : Obligations.VoiceRenderFrame := by
  intro s last noise c
  refine ⟨_, exec_voiceRender s last noise c, ?_⟩
  have f := Voice.render_frame s.cfg s.apu.mem last noise c (s.voice s.sel)
  dsimp only
  rw [voice_render]
  exact ⟨f.startAddress, f.loopStart, f.voll, f.volr, f.pitchl, f.pitchh, f.srcn, f.pmon, f.non, f.eon, f.adsr1, f.adsr2,
    f.gain, onlyVoice_emit _ _ _ _ (onlyVoice_withSelVoice s _)⟩

theorem Decoder.endsWithoutLoop_iff (d : Decoder) : d.endsWithoutLoop = true ↔ d.endFlag = true ∧ d.loopFlag = false := by
  simp [Decoder.endsWithoutLoop]

/-- Settles O30: the envelope of the rendered voice, by the flags of the block. -/
theorem endWithoutLoopSilences : Obligations.EndWithoutLoopSilences := by
  intro s last noise c
  refine ⟨_, _, exec_voiceRender s last noise c, exec_envTick s c, ?_⟩
  rw [voice_render, State.voice_withSelEnv, Voice.render_env, ← Decoder.endsWithoutLoop_iff]
  exact ⟨fun h => if_pos h, fun h => if_neg h⟩

/-- Settles O29: the position by the spec's arithmetic, the samples by pops. -/
theorem voiceRenderAdvancesThePosition : Obligations.VoiceRenderAdvancesThePosition := by
  intro s last noise c
  dsimp only
  refine ⟨_, exec_voiceRender s last noise c, ?_⟩
  rw [voice_render, Voice.render_voice_eq]
  have hpitch := renderPitch_range s.cfg last (s.voice s.sel)
  refine ⟨?_, fun hk => ?_⟩
  · rw [BitVec.toNat_ofNat]
    omega
  · obtain ⟨haddr, hidx, hdec, hahead⟩ := Voice.advanced_pops s.cfg s.apu.mem last c _ hk
    have hfield {α : Type} (f : Decoder → α) := congrArg f hdec
    exact ⟨hidx, hfield Decoder.buf, hfield Decoder.h1, hfield Decoder.h2, hfield Decoder.endFlag,
      hfield Decoder.loopFlag, haddr, samples_of_samplesAhead hahead⟩

theorem Voice.nextBlock_eq (v : Voice) :
    v.nextBlock = if v.dec.endFlag = true ∧ v.dec.loopFlag = true then v.loopStart else v.sampleAddress := by
  simp only [Voice.nextBlock, Decoder.endsWithLoop, Bool.and_eq_true]

/-- Settles O31: the sequencer with a fetch. -/
theorem exhaustedDecoderFetchesTheNextBlock : Obligations.ExhaustedDecoderFetchesTheNextBlock := by
  intro s last noise c
  dsimp only
  rw [← Voice.nextBlock_eq, ← Voice.nextDecoder]
  intro hk
  refine ⟨_, exec_voiceRender s last noise c, ?_⟩
  obtain ⟨haddr, hidx, hdec, hahead⟩ := Voice.advanced_fetches s.cfg s.apu.mem last c _ hk
  rw [voice_render, Voice.render_voice_eq]
  have hfield {α : Type} (f : Decoder → α) := congrArg f hdec
  exact ⟨haddr, hidx, hfield Decoder.buf, hfield Decoder.h1, hfield Decoder.h2, hfield Decoder.endFlag,
    hfield Decoder.loopFlag, samples_of_samplesAhead hahead⟩

/-- Settles O32: the sequencer without or with a fetch. -/
theorem atMostOneFetchPerTick : Obligations.AtMostOneFetchPerTick := by
  intro s last noise c
  refine ⟨_, exec_voiceRender s last noise c, ?_⟩
  dsimp only
  rw [voice_render, Voice.render_voice_eq]
  obtain hk | hk := Nat.lt_or_ge 16 ((s.voice s.sel).dec.idx.val + wholeSteps s.cfg (s.voice s.sel) last)
  · obtain ⟨haddr, -, hdec, -⟩ := Voice.advanced_fetches s.cfg s.apu.mem last c _ hk
    refine .inr ⟨(s.voice s.sel).nextBlock, ?_, haddr, hdec⟩
    rw [Voice.nextBlock]
    split
    · exact .inr rfl
    · exact .inl rfl
  · obtain ⟨haddr, -, hdec, -⟩ := Voice.advanced_pops s.cfg s.apu.mem last c _ hk
    exact .inl ⟨haddr, hdec⟩

/-- The source sample is the spec's, by the configured formulas (R193). -/
theorem Voice.sourceSample_eq (cfg : Config) (v : Voice) (noise : BitVec 16) : v.sourceSample cfg noise =
    (if v.non then configured cfg.noiseSample noise (BitVec.ofInt 16 ((noise.toNat : Int) * 2))
      else configured cfg.interpolation (v.cur, v.nxt, v.pos) (BitVec.ofInt 16
        (even ((v.cur.toInt * (4096 - (v.pos.toNat : Int)) + v.nxt.toInt * (v.pos.toNat : Int)) / 4096))) : Sample).toInt := by
  rw [Voice.sourceSample, interpolate, asr_def, apply_ite BitVec.toInt]
  rfl

/-- A raw output by a volume register, exactly (R199). -/
theorem wrap16_volScale_toInt (cfg : Config) (hv : cfg.volume = []) (raw : Int) (vol : Byte) (h : -32768 < raw)
    (h' : raw ≤ 32767) : (wrap16 (volScale cfg raw vol)).toInt = raw * vol.toInt / 128 := by
  have hrange := volScale_range cfg hv raw vol h.le h' (.inl h)
  rw [wrap16_toInt_of_range _ hrange.1 hrange.2, volScale, hv, configured_nil, asr_def]
  rfl

/-- Settles O28: the render's raw output and its two scalings fit 16 bits, so the registers hold them exactly. -/
theorem voiceRenderReturnsTheScaledSource : Obligations.VoiceRenderReturnsTheScaledSource := by
  intro s last noise c hspec
  obtain ⟨henv, hvol⟩ := hspec
  dsimp only
  refine ⟨_, _, _, _, _, exec_voiceRender s last noise c, exec_envTick s c, rfl, ?_⟩
  rw [voice_render, State.voice_withSelEnv, Voice.render_left, Voice.render_right, Voice.render_raw, ← Voice.sourceSample_eq]
  have hsrc := Voice.sourceSample_range s.cfg (s.voice s.sel) noise
  have hraw := envScale_toInt s.cfg henv _ ((s.voice s.sel).env.tick s.cfg c).level hsrc.1 hsrc.2
  obtain ⟨hlo, hhi, heven⟩ := envFormula_range _ ((s.voice s.sel).env.tick s.cfg c).level hsrc.1 hsrc.2
  rw [← hraw] at hlo hhi heven
  exact ⟨hraw, wrap16_volScale_toInt _ hvol _ _ (by omega) (by omega),
    wrap16_volScale_toInt _ hvol _ _ (by omega) (by omega), by rw [Voice.render_voice_eq], heven, hlo, hhi⟩

end Sys2Proof.Machine
end

section
/-! SUPPORT. The statements about a tick (`43_dsp_mixer.md`): its clocks by the spec's formulas, the words it stores, the
filter tap by tap, and what soft reset leaves of a voice. -/

namespace Sys2Proof.Machine

/-! ### The clocks (R222, R223, R230) -/

theorem counterStep_toNat (cfg : Config) (h : cfg.counterNext = []) (c : Counter) :
    (counterStep cfg c).toNat = if c.toNat = 0 then cfg.counterTop.toNat else c.toNat - 1 := by
  have hzero : c = 0 ↔ c.toNat = 0 := BitVec.toNat_eq
  rw [counterStep, h, configured_nil]
  simp only [hzero]
  split
  · rfl
  · rw [BitVec.toNat_sub_of_le (by rw [BitVec.le_def]; simp; omega)]
    rfl

theorem nextEchoPos_toNat (cfg : Config) (h : cfg.echoNext = []) (pos : BitVec 16) (edl : Byte) :
    (nextEchoPos cfg pos edl).toNat = if edl.toNat % 16 * 2048 ≤ pos.toNat + 4 then 0 else pos.toNat + 4 := by
  rw [nextEchoPos, h, configured_nil, echoLength, echoUnit, lowNibble_toNat]
  split
  · rfl
  · rw [BitVec.toNat_ofNat, Nat.mod_eq_of_lt (by omega)]

/-- The noise register after a tick, FLG's rate and the spec's shift read arithmetically (R223). -/
theorem noiseStep_eq (cfg : Config) (flg : Byte) (c : Counter) (x : BitVec 16) : noiseStep cfg flg c x =
    if fires cfg (flg.toNat / 2 ^ cfg.flg.noiseAt % 32) c.toNat then configured cfg.noiseNext x
      (BitVec.ofNat 16 ((x.toNat % 2 + x.toNat / 2 % 2) % 2 * 16384 ||| x.toNat / 2)) else x := by
  rw [noiseStep, noiseShift, noiseFormula_eq, flgNoiseRate, extractLsb'_toNat_eq]
  rfl

/-- Settles O34: each clock is set by its own stage of the tick. -/
theorem tickMovesTheClocks : Obligations.TickMovesTheClocks := by
  intro s _ hcounter hecho
  refine ⟨_, _, _, exec_dspTick s, fun a => Dsp.tick_reg .., ⟨rfl, rfl, rfl, rfl⟩, rfl, ?_⟩
  have htick : (s.ticked.emit s.tickFrame).apu.dsp = (s.apu.dsp.tick s.cfg s.apu.mem).dsp := rfl
  dsimp only
  rw [htick, Dsp.tick_counter, Dsp.tick_noise, Dsp.tick_hpos, Dsp.tick_echoPos]
  exact ⟨counterStep_toNat _ hcounter _, noiseStep_eq .., Fin.val_add .., nextEchoPos_toNat _ hecho ..⟩

/-! ### The stored frame (R229) -/

/-- The combined value of a channel, exactly (R229). -/
theorem Dsp.feedback_toInt (cfg : Config) (h : cfg.feedback = []) (hv : cfg.volume = []) (d : Dsp) (sum fir : Int) :
    (d.feedback cfg sum fir).toInt = even (clamp16 (sum + fir * (d.reg 0x0D).toInt / 128)) := by
  rw [Dsp.feedback, h, configured_nil, Dsp.scaled_eq cfg hv]
  generalize sum + fir * (d.reg 0x0D).toInt / 128 = v
  have hclamp := clamp16_range v
  have heven := even_range (clamp16 v)
  exact wrap16_toInt_of_range _ (le_even _ _ hclamp.1 (by decide)) (by omega)

/-- The combined value is even (R229). -/
theorem Dsp.evenSample_feedback (cfg : Config) (h : cfg.feedback = []) (d : Dsp) (sum fir : Int) :
    evenSample (d.feedback cfg sum fir) = true := by
  rw [Dsp.feedback, h, configured_nil]
  exact evenSample_wrap16 _ (even_even _)

section Frame
variable (cfg : Config) (m : Memory) (a : Addr) (l r : BitVec 16)

/-- A store of two words leaves every byte outside them. -/
theorem readByte_two_words_ne (a : Addr × Addr) (x : Addr)
    (h : ∀ y ∈ [a.1, a.1 + 1, a.2, a.2 + 1], cell cfg x ≠ cell cfg y) :
    readByte cfg (memWrite2 cfg (memWrite2 cfg m a.1 l) a.2 r) x = readByte cfg m x := by
  rw [readByte_memWrite2_ne _ _ _ _ _ (h _ (by simp)) (h _ (by simp)),
    readByte_memWrite2_ne _ _ _ _ _ (h _ (by simp)) (h _ (by simp))]

variable (hfull : cfg.memTop = 0xFFFF) (hwf : Memory.wf m = true)
include hfull hwf

/-- With 65536 bytes the two words of a frame stand apart, and each reads back as stored. -/
theorem memRead2_frame_left : memRead2 cfg (memWrite2 cfg (memWrite2 cfg m a l) (a + 2) r) a = l := by
  have hne (i j : Addr) (hij : i ≠ j) : cell cfg (a + i) ≠ cell cfg (a + j) :=
    cell_ne_of_full cfg hfull _ _ (fun e => hij (add_left_cancel e))
  have hlast : a + 2 + 1 = a + 3 := BitVec.add_assoc ..
  have hlow := readByte_memWrite2_ne cfg (memWrite2 cfg m a l) (a + 2) (a + 0) r (hne 0 2 (by decide))
    (hlast ▸ hne 0 3 (by decide))
  have hhigh := readByte_memWrite2_ne cfg (memWrite2 cfg m a l) (a + 2) (a + 1) r (hne 1 2 (by decide))
    (hlast ▸ hne 1 3 (by decide))
  have hzero : a + 0 = a := BitVec.add_zero a
  rw [hzero] at hlow
  rw [memRead2, hlow, hhigh]
  exact memRead2_memWrite2 cfg m hfull a l hwf

theorem memRead2_frame_right : memRead2 cfg (memWrite2 cfg (memWrite2 cfg m a l) (a + 2) r) (a + 2) = r :=
  memRead2_memWrite2 _ _ hfull _ _ (Memory.wf_memWrite2 _ _ _ _ hwf)

end Frame

/-- The low byte of a word of memory is the byte at its address (R61). -/
theorem readByte_eq_lowByte (cfg : Config) (m : Memory) (a : Addr) : readByte cfg m a = lowByte (memRead2 cfg m a) := by
  rw [memRead2, lowByte_le16]

theorem lowByte_bit_zero {x : Sample} (h : evenSample x = true) : (lowByte x).getLsbD 0 = false := by
  simpa [evenSample, lowByte] using h

section Stored
variable (s : State)

/-- With echo writes disabled a tick stores nothing. -/
theorem tick_mem_of_echoOff (h : (s.reg 0x6C).getLsbD s.cfg.flg.echoOffAt = true) :
    (s.apu.dsp.tick s.cfg s.apu.mem).mem = s.apu.mem := by
  rw [Dsp.tick_mem, Dsp.writeEcho, Dsp.tick_reg]
  exact if_pos h

/-- The words that a tick combines, left and right (R229). -/
def State.combined (s : State) : Sample × Sample :=
  let t := (s.apu.dsp.tick s.cfg s.apu.mem).dsp
  let x := renderVoices s.cfg s.apu.mem (s.apu.dsp.advanceClock s.cfg)
  (t.feedback s.cfg x.echoL (t.fir s.cfg t.histL), t.feedback s.cfg x.echoR (t.fir s.cfg t.histR))

/-- With echo writes enabled a tick stores the combined words at its frame. -/
theorem tick_mem_of_echoOn (h : (s.reg 0x6C).getLsbD s.cfg.flg.echoOffAt = false) :
    (s.apu.dsp.tick s.cfg s.apu.mem).mem =
      memWrite2 s.cfg (memWrite2 s.cfg s.apu.mem (s.apu.dsp.echoFrame s.cfg).1 s.combined.1)
        (s.apu.dsp.echoFrame s.cfg).2 s.combined.2 := by
  rw [Dsp.tick_mem, Dsp.writeEcho, Dsp.tick_reg]
  exact if_neg (Bool.eq_false_iff.1 h)

/-- The combined words read back from the spec's frame. -/
theorem memRead2_tick (h : (s.reg 0x6C).getLsbD s.cfg.flg.echoOffAt = false) (hwf : Memory.wf s.apu.mem = true)
    (hfull : s.cfg.memTop = 0xFFFF) (haddr : s.cfg.echoAddress = []) :
    memRead2 s.cfg (s.apu.dsp.tick s.cfg s.apu.mem).mem (s.apu.dsp.echoFrame s.cfg).1 = s.combined.1 ∧
      memRead2 s.cfg (s.apu.dsp.tick s.cfg s.apu.mem).mem (s.apu.dsp.echoFrame s.cfg).2 = s.combined.2 := by
  rw [tick_mem_of_echoOn s h, Dsp.echoFrame, echoAddr_eq _ haddr]
  exact ⟨memRead2_frame_left _ _ _ _ _ hfull hwf, memRead2_frame_right _ _ _ _ _ hfull hwf⟩

end Stored

/-- Settles O36: memory after a tick is as before, or with the two combined words at the frame. -/
theorem tickStoresOnlyItsEchoFrame : Obligations.TickStoresOnlyItsEchoFrame := by
  intro s
  refine ⟨_, exec_dspTick s, ?_⟩
  have htick : (s.ticked.emit s.tickFrame).apu.mem = (s.apu.dsp.tick s.cfg s.apu.mem).mem := rfl
  dsimp only
  refine ⟨fun x hx => ?_, fun hoff => ?_, fun hon hwf hfull haddr hfeedback => ?_⟩
  · rw [htick]
    cases hecho : (s.reg 0x6C).getLsbD s.cfg.flg.echoOffAt with
    | true => rw [tick_mem_of_echoOff s hecho]
    | false => rw [tick_mem_of_echoOn s hecho, readByte_two_words_ne _ _ _ _ _ _ hx]
  · rw [MemoryKept, htick, tick_mem_of_echoOff s hoff]
    exact fun _ => rfl
  · obtain ⟨hL, hR⟩ := memRead2_tick s hon hwf hfull haddr
    rw [htick, readByte_eq_lowByte, readByte_eq_lowByte, hL, hR]
    exact ⟨lowByte_bit_zero (Dsp.evenSample_feedback _ hfeedback ..), lowByte_bit_zero (Dsp.evenSample_feedback _ hfeedback ..)⟩

/-- Settles O37: the words at the frame are the combined ones, and a register holds a combined value exactly. -/
theorem tickWritesBackTheCombinedValue : Obligations.TickWritesBackTheCombinedValue := by
  intro s hwf hon hfull haddr hfeedback hvol
  refine ⟨_, exec_dspTick s, ?_⟩
  obtain ⟨hL, hR⟩ := memRead2_tick s hon hwf hfull haddr
  have hframe : s.apu.dsp.echoFrame s.cfg = _ := echoAddr_eq s.cfg haddr (s.reg 0x6D) s.apu.dsp.echoPos
  have hreg : (s.apu.dsp.tick s.cfg s.apu.mem).dsp.reg 0x0D = s.reg 0x0D := Dsp.tick_reg ..
  rw [hframe, memRead2_eq] at hL hR
  rw [BitVec.add_assoc] at hR
  refine ⟨(congrArg BitVec.toInt hL).trans ?_, (congrArg BitVec.toInt hR).trans ?_⟩
  · rw [← hreg]
    exact Dsp.feedback_toInt s.cfg hfeedback hvol ..
  · rw [← hreg]
    exact Dsp.feedback_toInt s.cfg hfeedback hvol ..

/-! ### The filter (R227) -/

/-- Settles O39: the entry `i + 1` places after the newest has age `7 - i`. -/
theorem firWeighsOldestByC0 : Obligations.FirWeighsOldestByC0 := by
  intro cfg d hist hfir
  dsimp only
  refine ⟨fun hfilter => ?_, fun hfilter => ?_⟩
  · have hage (i : Fin 8) : d.hpos + 1 + i = d.hpos - (7 - i) := by
      generalize d.hpos = h
      revert h i; decide
    rw [Dsp.fir, hfir, configured_nil, hfilter]
    simp only [Dsp.eightTap, List.foldl, firTerm, Dsp.firCoef, s8, hage, asr_def, zero_add]
    norm_num [show (7 : Fin 8) - 7 = 0 from rfl]
    rfl
  · rw [Dsp.fir, hfir, configured_nil, hfilter, mul_comm]

/-! ### Soft reset (R238) -/

/-- A silenced voice renders to (Release, 0) and a raw output of 0, by the spec's formulas. -/
theorem Voice.render_silenced (cfg : Config) (hrelease : cfg.release = []) (henv : cfg.envScale = []) (m : Memory)
    (last : Sample) (noise : BitVec 16) (c : Counter) (v : Voice) (hmode : v.env.mode = .release)
    (hlevel : v.env.level = 0) :
    (v.render cfg m last noise c).voice.env.mode = .release ∧ (v.render cfg m last noise c).voice.env.level = 0 ∧
      (v.render cfg m last noise c).voice.rawOut = 0 := by
  have htick : (v.env.tick cfg c).mode = .release := Envelope.tick_release_mode cfg c _ hrelease hmode
  have hzero : (v.env.tick cfg c).level = 0 := by
    apply BitVec.eq_of_toNat_eq
    rw [Envelope.tick_release_level cfg c _ hrelease hmode, hlevel]
    rfl
  refine ⟨?_, ?_, ?_⟩
  · rw [Voice.render_env]
    split
    · rfl
    · exact htick
  · rw [Voice.render_env]
    split
    · rfl
    · exact hzero
  · rw [Voice.render_voice_eq]
    show envScale cfg _ _ = 0
    rw [hzero, envScale_eq, henv, configured_nil]
    simp [even, wrap16]

theorem Voice.softReset_of_set {cfg : Config} {flg : Byte} (h : flgSoftReset cfg flg = true) (v : Voice) :
    Voice.softReset cfg flg v = { v with env := v.env.silence } := if_pos h

/-- Settles O41: soft reset silences each voice before its render. -/
theorem softResetSilencesEveryVoice : Obligations.SoftResetSilencesEveryVoice := by
  intro s hrelease henv hreset
  refine ⟨_, exec_dspTick s, fun v => ?_⟩
  obtain ⟨last, hrender⟩ := renderVoices_voice s.cfg s.apu.mem (s.apu.dsp.advanceClock s.cfg) v
  have hvoice : (s.ticked.emit s.tickFrame).voice v = _ := (Dsp.tick_voice s.cfg s.apu.mem s.apu.dsp v).trans hrender
  have hset : flgSoftReset s.cfg ((s.apu.dsp.advanceClock s.cfg).reg 0x6C) = true := hreset
  rw [hvoice, Voice.softReset_of_set hset]
  exact Voice.render_silenced s.cfg hrelease henv _ _ _ _ _ rfl rfl

end Sys2Proof.Machine
end

section
/-! SUPPORT. The statements about the Apu (`44_apu_host.md`): a render is a run of ticks, a snapshot's registers are
loaded one write at a time, and only its KON byte starts voices. -/

namespace Sys2Proof.Machine

/-! ### Reset (R330) -/

/-- The Dsp after reset under any configuration is the default one with FLG and the noise register set anew. -/
theorem Dsp.reset_eq_default (cfg : Config) : Dsp.reset cfg =
    { (Dsp.reset Config.default).setReg 0x6C cfg.flgReset with noise := cfg.noiseReset } := by
  simp [Dsp.reset, Dsp.setReg, resetRegs]

/-- Settles O52: reset sets the Dsp to a constant of the configuration. -/
theorem apuResetRestoresTheDsp : Obligations.ApuResetRestoresTheDsp := fun s =>
  ⟨s.withApu (s.apu.powerOn s.cfg), rfl, Dsp.reset_eq_default s.cfg, fun _ => rfl, ⟨rfl, rfl, rfl, rfl⟩, rfl, rfl⟩

/-! ### APU.RENDER (R273) -/

theorem exec_apuRender (n : Nat) (s : State) : exec (.apuRender n) s =
    .next ((s.withApu (s.apu.render s.cfg n).apu).emit
      (.frames (s.apu.render s.cfg n).left (s.apu.render s.cfg n).right)) := rfl

/-- A render returns as many frames as asked. -/
theorem Apu.render_length (cfg : Config) (n : Nat) (a : Apu) :
    (a.render cfg n).left.length = n ∧ (a.render cfg n).right.length = n := by
  induction n generalizing a with
  | zero => exact ⟨rfl, rfl⟩
  | succ n ih =>
    obtain ⟨hleft, hright⟩ := ih ⟨(a.dsp.tick cfg a.mem).mem, (a.dsp.tick cfg a.mem).dsp⟩
    exact ⟨congrArg (· + 1) hleft, congrArg (· + 1) hright⟩

/-- One render after another. -/
def Batch.append (x y : Batch) : Batch := ⟨y.apu, x.left ++ y.left, x.right ++ y.right⟩

theorem Apu.render_add (cfg : Config) (m n : Nat) (a : Apu) :
    a.render cfg (m + n) = (a.render cfg m).append ((a.render cfg m).apu.render cfg n) := by
  induction m generalizing a with
  | zero => rw [Nat.zero_add]; rfl
  | succ m ih => rw [Nat.add_right_comm, Apu.render, ih]; rfl

/-- Settles O54: rendering m + n frames is one render after another. -/
theorem renderSplits : Obligations.RenderSplits := by
  intro s m n
  have hm := s.apu.render_length s.cfg m
  have hn := (s.apu.render s.cfg m).apu.render_length s.cfg n
  refine ⟨_, _, _, _, _, _, _, exec_apuRender m s, rfl, hm.1, hm.2, exec_apuRender n _, rfl, hn.1, hn.2,
    exec_apuRender (m + n) s, ?_, ?_, rfl, rfl, rfl, rfl⟩
  · rw [Apu.render_add]; rfl
  · rw [Apu.render_add]; rfl

/-- A run of ticks: the Apu of a render, and the frames returned one by one (R105). -/
theorem execAll_renderTicks (n : Nat) (s : State) : execAll (renderTicks n) s =
    .next { s with
      apu := (s.apu.render s.cfg n).apu
      outbox := s.outbox ++ List.zipWith Result.frame (s.apu.render s.cfg n).left (s.apu.render s.cfg n).right } := by
  induction n generalizing s with
  | zero => exact congrArg (fun out => Host.Outcome.next { s with outbox := out }) (List.append_nil _).symm
  | succ n ih =>
    have hrun : execAll (renderTicks (n + 1)) s = execAll (renderTicks n) (s.ticked.emit s.tickFrame) :=
      execAll_cons_of_next (exec_dspTick s)
    rw [hrun, ih]
    exact congrArg (fun out => Host.Outcome.next { s with apu := (s.apu.render s.cfg (n + 1)).apu, outbox := out })
      (List.append_assoc ..)

/-- Settles O55: a run of ticks leaves the Apu of the render and returns its frames one by one. -/
theorem renderIsTicks : Obligations.RenderIsTicks := fun s n =>
  ⟨_, _, _, _, exec_apuRender n s, rfl, execAll_renderTicks n s, rfl, rfl⟩

/-! ### The memory accessor (R274, R275) -/

theorem exec_apuReadByte (a : Addr) (s : State) :
    exec (.apuReadByte a) s = .next (s.emit (.byte (readByte s.cfg s.apu.mem a))) := rfl

theorem exec_apuWriteByte (a : Addr) (b : Byte) (s : State) :
    exec (.apuWriteByte a b) s = .next (s.withMem (writeByte s.cfg s.apu.mem a b)) := rfl

/-- Settles O56: one byte of memory is written, and it reads back. -/
theorem hostBytesReadAndWrite : Obligations.HostBytesReadAndWrite := fun s a b =>
  ⟨⟨_, exec_apuReadByte a s, rfl, ⟨rfl, rfl, rfl, rfl⟩, rfl⟩,
    ⟨_, _, exec_apuWriteByte a b s, fun x hx => readByte_writeByte_ne s.cfg s.apu.mem a x b hx, rfl,
      ⟨rfl, rfl, rfl, rfl⟩, rfl, exec_apuReadByte a _, ⟨rfl, ⟨rfl, rfl, rfl, rfl⟩, rfl⟩,
      fun hwf => readByte_writeByte_same s.cfg s.apu.mem a b hwf⟩⟩

/-! ### Loading the registers of a snapshot (R272) -/

/-- A register write changes voices and registers only (R233). -/
theorem Dsp.write_eq_with (cfg : Config) (m : Memory) (a : RegAddr) (b : Byte) (d : Dsp) :
    ∃ voices regs, d.write cfg m a b = { d with voices := voices, regs := regs } :=
  ⟨_, _, Dsp.write_globals cfg m a b d⟩

theorem Dsp.write_reg (cfg : Config) (m : Memory) (a c : RegAddr) (b : Byte) (d : Dsp) :
    (d.write cfg m a b).reg c = if c = a then b else d.reg c := by
  rw [(Dsp.write_globals cfg m a b d).reg, Dsp.reg_setReg]

section Load
variable (cfg : Config) (m : Memory)

theorem Dsp.loadRegs_eq_with (bs : List Byte) (n : Nat) (d : Dsp) :
    ∃ voices regs, Dsp.loadRegs cfg m n bs d = { d with voices := voices, regs := regs } := by
  induction bs generalizing n d with
  | nil => exact ⟨_, _, rfl⟩
  | cons b bs ih =>
    rw [Dsp.loadRegs]
    split
    · exact ih (n + 1) d
    · obtain ⟨voices, regs, hwrite⟩ := Dsp.write_eq_with cfg m (BitVec.ofNat 7 n) b d
      rw [hwrite]
      exact ih (n + 1) _

/-- Loading from an address on leaves the registers below it. -/
theorem Dsp.loadRegs_reg_of_lt (bs : List Byte) (n : Nat) (d : Dsp) (a : RegAddr) (ha : a.toNat < n)
    (hlen : n + bs.length ≤ 128) : (Dsp.loadRegs cfg m n bs d).reg a = d.reg a := by
  induction bs generalizing n d with
  | nil => rfl
  | cons b bs ih =>
    rw [List.length_cons] at hlen
    have hne : a ≠ BitVec.ofNat 7 n := fun h => by
      rw [h, BitVec.toNat_ofNat] at ha
      omega
    rw [Dsp.loadRegs, ih (n + 1) _ (by omega) (by omega)]
    split
    · rfl
    · rw [Dsp.write_reg, if_neg hne]

/-- Each register loaded holds its byte, KON and KOFF apart. -/
theorem Dsp.loadRegs_reg (bs : List Byte) (n : Nat) (d : Dsp) (a : RegAddr) (hn : n ≤ a.toNat)
    (hin : a.toNat < n + bs.length) (hlen : n + bs.length ≤ 128) (hkon : a ≠ 0x4C) (hkoff : a ≠ 0x5C) :
    (Dsp.loadRegs cfg m n bs d).reg a = bs.getD (a.toNat - n) 0 := by
  induction bs generalizing n d with
  | nil => exact absurd hin (Nat.not_lt.2 hn)
  | cons b bs ih =>
    rw [List.length_cons] at hin hlen
    rcases Nat.eq_or_lt_of_le hn with heq | hlt
    · have hnot : ¬ (n = 0x4C ∨ n = 0x5C) := by
        rintro (h | h)
        · exact hkon (BitVec.eq_of_toNat_eq (heq ▸ h))
        · exact hkoff (BitVec.eq_of_toNat_eq (heq ▸ h))
      have ha : a = BitVec.ofNat 7 n := by rw [heq, BitVec.ofNat_toNat, BitVec.setWidth_eq]
      rw [Dsp.loadRegs, if_neg hnot, Dsp.loadRegs_reg_of_lt cfg m bs (n + 1) _ a (by omega) (by omega), Dsp.write_reg,
        if_pos ha, heq, Nat.sub_self, List.getD_cons_zero]
    · have hindex : a.toNat - n = a.toNat - (n + 1) + 1 := by omega
      rw [Dsp.loadRegs, ih (n + 1) _ hlt (by omega) (by omega), hindex, List.getD_cons_succ]

end Load

/-- A voice that nothing has started since reset: as `Voice.reset` but for its mirrors. -/
def Voice.AtRest (v : Voice) : Prop :=
  v.env.mode = .release ∧ v.env.level = 0 ∧ v.dec = Decoder.reset ∧ v.sampleAddress = 0 ∧ v.startAddress = 0 ∧
    v.loopStart = 0 ∧ v.pos = 0 ∧ v.cur = 0 ∧ v.nxt = 0 ∧ v.rawOut = 0

theorem Voice.atRest_reset : Voice.reset.AtRest := ⟨rfl, rfl, rfl, rfl, rfl, rfl, rfl, rfl, rfl, rfl⟩

theorem Voice.AtRest.mirrorWrite {v : Voice} (h : v.AtRest) (n : Nat) (b : Byte) : (mirrorWrite n b v).AtRest := by
  unfold Machine.mirrorWrite
  split <;> exact h

/-- A register write that is no event leaves voices at rest (R233). -/
theorem Dsp.atRest_write (cfg : Config) (m : Memory) (a : RegAddr) (b : Byte) (d : Dsp) (hkon : a ≠ 0x4C)
    (hkoff : a ≠ 0x5C) (h : ∀ v, (d.voice v).AtRest) (v : VoiceIx) : ((d.write cfg m a b).voice v).AtRest := by
  rw [Dsp.write]
  by_cases hcol : (regColumn a).toNat < 8
  · rw [Dsp.writeEffect_mirror _ _ _ _ _ hcol, Dsp.mapVoice, Dsp.voice_setVoice]
    split
    · exact (h _).mirrorWrite _ b
    · exact h v
  · rw [Dsp.writeEffect_global _ _ _ _ _ hcol, if_neg hkon, if_neg hkoff]
    split
    · rw [Dsp.copyMask_voice]; exact h v
    split
    · rw [Dsp.copyMask_voice]; exact h v
    split
    · rw [Dsp.copyMask_voice]; exact h v
    · exact h v

/-- Loading registers starts no voice: KON and KOFF are left out. -/
theorem Dsp.atRest_loadRegs (cfg : Config) (m : Memory) (bs : List Byte) (n : Nat) (d : Dsp)
    (hlen : n + bs.length ≤ 128) (h : ∀ v, (d.voice v).AtRest) (v : VoiceIx) :
    ((Dsp.loadRegs cfg m n bs d).voice v).AtRest := by
  induction bs generalizing n d with
  | nil => exact h v
  | cons b bs ih =>
    rw [List.length_cons] at hlen
    refine ih (n + 1) _ (by omega) fun w => ?_
    have hval (k : Nat) (hk : BitVec.ofNat 7 n = BitVec.ofNat 7 k) (hk' : k < 128) : n = k := by
      have hnat := congrArg BitVec.toNat hk
      rw [BitVec.toNat_ofNat, BitVec.toNat_ofNat] at hnat
      omega
    split
    · exact h w
    next hnot =>
      refine Dsp.atRest_write cfg m _ b d (fun hk => hnot (.inl ?_)) (fun hk => hnot (.inr ?_)) h w
      · exact hval 0x4C hk (by decide)
      · exact hval 0x5C hk (by decide)

/-! ### APU.SET_STATE (R272) -/

/-- Key-on forgets all that key-on sets. -/
theorem Voice.keyOn_keyOn (cfg : Config) (m : Memory) (dir : Byte) (v : Voice) :
    (v.keyOn cfg m dir).keyOn cfg m dir = v.keyOn cfg m dir := by
  rw [Voice.keyOn_eq cfg m dir (v.keyOn cfg m dir), Voice.keyOn_eq cfg m dir v, Decoder.seed_zero_read,
    Decoder.seed_zero_read]
  rfl

/-- The machine with a snapshot's memory and registers, KON not yet written. -/
def State.snapshotLoaded (s : State) (x : Snapshot) : State :=
  let m := Memory.ofBytes 0 (x.ram.take (memSize s.cfg))
  s.withApu ⟨m, (Dsp.loadRegs s.cfg m 0 x.dspregs (Dsp.reset s.cfg)).setReg 0x5C (x.dspregs.getD 0x5C 0)⟩

theorem Snapshot.wellFormed_iff (x : Snapshot) : x.wellFormed = true ↔ x.ram.length = 65536 ∧ x.dspregs.length = 128 := by
  rw [Snapshot.wellFormed, Bool.and_eq_true, hasLength_iff, hasLength_iff]

/-- The machine after APU.SET_STATE: KON is written last. -/
def State.snapshotSet (s : State) (x : Snapshot) : State :=
  (s.snapshotLoaded x).writeReg 0x4C (x.dspregs.getD 0x4C 0)

theorem exec_apuSetState (s : State) {x : Snapshot} (h : x.wellFormed = true) :
    exec (.apuSetState x) s = .next (s.snapshotSet x) := if_pos h

section Snapshot
variable (s : State) (x : Snapshot)

/-- Clocks and echo bookkeeping start from reset. -/
theorem State.snapshotLoaded_dsp : ∃ voices regs,
    (s.snapshotLoaded x).apu.dsp = { Dsp.reset s.cfg with voices := voices, regs := regs } := by
  obtain ⟨voices, regs, hload⟩ := Dsp.loadRegs_eq_with s.cfg (Memory.ofBytes 0 (x.ram.take (memSize s.cfg))) x.dspregs 0
    (Dsp.reset s.cfg)
  exact ⟨voices, _, congrArg (Dsp.setReg · 0x5C (x.dspregs.getD 0x5C 0)) hload⟩

variable (hlen : x.dspregs.length = 128)
include hlen

theorem State.snapshotLoaded_reg (a : RegAddr) (hkon : a ≠ 0x4C) :
    (s.snapshotLoaded x).reg a = x.dspregs.getD a.toNat 0 := by
  refine (Dsp.reg_setReg ..).trans ?_
  split
  next hkoff => rw [hkoff]; rfl
  next hkoff => exact Dsp.loadRegs_reg _ _ _ _ _ a (Nat.zero_le _) (by omega) (by omega) hkon hkoff

theorem State.snapshotLoaded_atRest (v : VoiceIx) : ((s.snapshotLoaded x).voice v).AtRest :=
  Dsp.atRest_loadRegs _ _ _ _ _ (by omega) (fun w => by rw [Dsp.reset_voice]; exact Voice.atRest_reset) v

theorem State.snapshotSet_reg (a : RegAddr) : (s.snapshotSet x).reg a = x.dspregs.getD a.toNat 0 := by
  obtain ⟨hkon, hothers, -⟩ := registerWritten_writeReg (s.snapshotLoaded x) 0x4C (x.dspregs.getD 0x4C 0)
  by_cases ha : a = 0x4C
  · rw [ha]; exact hkon
  · rw [State.snapshotSet, hothers a ha, s.snapshotLoaded_reg x hlen a ha]

/-- A voice whose KON bit is set is one at rest keyed on, with the directory page now in DIR. -/
theorem State.snapshotSet_voice_of_set (v : VoiceIx) (h : ((s.snapshotSet x).reg 0x4C).getLsbD v.val = true) :
    ∃ w : Voice, w.AtRest ∧
      (s.snapshotSet x).voice v = w.keyOn s.cfg (s.snapshotSet x).apu.mem ((s.snapshotSet x).reg 0x5D) := by
  rw [s.snapshotSet_reg x hlen 0x4C] at h
  refine ⟨_, s.snapshotLoaded_atRest x hlen v, ?_⟩
  rw [s.snapshotSet_reg x hlen, ← s.snapshotLoaded_reg x hlen 0x5D (by decide)]
  exact ((s.snapshotLoaded x).writeReg_kon_voice _ v).trans (if_pos h)

/-- Every other voice is at rest. -/
theorem State.snapshotSet_voice_of_clear (v : VoiceIx) (h : ((s.snapshotSet x).reg 0x4C).getLsbD v.val = false) :
    ((s.snapshotSet x).voice v).AtRest := by
  rw [s.snapshotSet_reg x hlen 0x4C] at h
  have hvoice : (s.snapshotSet x).voice v = (s.snapshotLoaded x).voice v :=
    ((s.snapshotLoaded x).writeReg_kon_voice _ v).trans (if_neg (Bool.eq_false_iff.1 h))
  rw [hvoice]
  exact s.snapshotLoaded_atRest x hlen v

/-- No voice has a raw output yet: key-on leaves the raw output alone. -/
theorem State.snapshotSet_voice_rawOut (v : VoiceIx) : ((s.snapshotSet x).voice v).rawOut = 0 := by
  cases hbit : ((s.snapshotSet x).reg 0x4C).getLsbD v.val with
  | true =>
    obtain ⟨w, ⟨-, -, -, -, -, -, -, -, -, hraw⟩, hvoice⟩ := s.snapshotSet_voice_of_set x hlen v hbit
    rw [hvoice, Voice.keyOn_eq]
    exact hraw
  | false =>
    obtain ⟨-, -, -, -, -, -, -, -, -, hraw⟩ := s.snapshotSet_voice_of_clear x hlen v hbit
    exact hraw

/-- A voice whose KON bit is set is as VOICE.KON with the loaded DIR leaves it. -/
theorem State.snapshotSet_keyOn (v : VoiceIx) (h : ((s.snapshotSet x).reg 0x4C).getLsbD v.val = true) :
    ((s.snapshotSet x).voice v).keyOn s.cfg (s.snapshotSet x).apu.mem ((s.snapshotSet x).reg 0x5D) =
      (s.snapshotSet x).voice v := by
  obtain ⟨w, -, hvoice⟩ := s.snapshotSet_voice_of_set x hlen v h
  rw [hvoice, Voice.keyOn_keyOn]

end Snapshot

/-- Settles O53: memory and registers are loaded with every voice at rest; then KON is written. -/
theorem setStateLoadsTheSnapshot : Obligations.SetStateLoadsTheSnapshot := by
  refine ⟨fun s x hram hlen => ?_, fun s x hsize => if_neg fun h => ?_⟩
  · obtain ⟨-, -, -, -, -, hmirrored⟩ := (Apu.ok_setState x s.apu (cfg := s.cfg)).2
    obtain ⟨voices, regs, hdsp⟩ := s.snapshotLoaded_dsp x
    obtain ⟨-, -, -, hhost, ⟨hcounter, hnoise, hecho, hhistL, hhistR, hhpos⟩, hout⟩ :=
      registerWritten_writeReg (s.snapshotLoaded x) 0x4C (x.dspregs.getD 0x4C 0)
    rw [hdsp] at hcounter hnoise hecho hhistL hhistR hhpos
    refine ⟨s.snapshotSet x, exec_apuSetState s ((Snapshot.wellFormed_iff x).2 ⟨hram, hlen⟩),
      readByte_ofBytes s.cfg x.ram, s.snapshotSet_reg x hlen, hmirrored, hcounter, hnoise, hecho, hhpos,
      fun i => ⟨?_, ?_⟩, s.snapshotSet_voice_rawOut x hlen, fun v hset => ⟨⟨_, exec_voiceKon _ _, ?_⟩, ?_⟩,
      fun v hclear => ?_, hhost, hout⟩
    · rw [State.snapshotSet, hhistL]; exact Vector.getElem_replicate ..
    · rw [State.snapshotSet, hhistR]; exact Vector.getElem_replicate ..
    · rw [State.voice_withSelVoice]
      have hkeyOn : Voice.keyOn s.cfg (s.snapshotSet x).apu.mem ((s.snapshotSet x).reg 0x5D) ((s.snapshotSet x).voice v) =
        (s.snapshotSet x).voice v := s.snapshotSet_keyOn x hlen v hset
      exact ⟨congrArg Voice.sampleAddress hkeyOn.symm, congrArg Voice.startAddress hkeyOn.symm,
        congrArg Voice.loopStart hkeyOn.symm, congrArg Voice.dec hkeyOn.symm, congrArg Voice.nxt hkeyOn.symm⟩
    · obtain ⟨w, -, hvoice⟩ := s.snapshotSet_voice_of_set x hlen v hset
      rw [hvoice, Voice.keyOn_eq]
      exact ⟨rfl, rfl, rfl, rfl⟩
    · obtain ⟨hmode, hlevel, hdec, hsample, hstart, hloop, hpos, hcur, hnxt, -⟩ :=
        s.snapshotSet_voice_of_clear x hlen v hclear
      exact ⟨hmode, hlevel, hdec, hsample, hstart, hloop, hpos, hcur, hnxt⟩
  · obtain ⟨hram, hregs⟩ := (Snapshot.wellFormed_iff x).1 h
    omega

end Sys2Proof.Machine
end

section
/-! SUPPORT. The RingBuffer as a queue (`45_ring_buffer.md`): each operation is one operation on the pairs held. -/

namespace Sys2Proof.Machine

/-- Settles O60: a write appends a pair, a read takes and drops the oldest, a reset drops all. -/
theorem ringIsAQueue : Obligations.RingIsAQueue := by
  intro s hok
  have hlength := s.ring.contents_length s.cfg.rbCapacity
  dsimp only
  rw [hlength]
  refine ⟨rfl, fun l r hroom => ?_, fun n hn => ?_, ?_⟩
  · exact ⟨_, exec_rbWrite_of_ne s l r (Nat.ne_of_lt hroom), Ring.contents_push _ _ l r hok hroom,
      Ring.ok_push _ _ l r hok hroom⟩
  · refine ⟨_, exec_rbRead_of_le s n hn, ?_, Ring.contents_drop _ _ n, Ring.ok_drop _ _ n hok hn⟩
    rw [Returns, ringSlice_fst _ _ n hn, ringSlice_snd _ _ n hn]
    rfl
  · obtain ⟨-, -, -, hwr, -⟩ := hok
    exact ⟨_, exec_rbReset s, rfl, Ring.ok_reset _ (Nat.zero_lt_of_lt hwr)⟩

end Sys2Proof.Machine
end
